-- ==== Sys2Proof/Word.lean ====
section
/-! DEFINITION. The three data widths of the GF251-SIS core (spec 00_scope.md R8): the byte, the 32-bit word
of the host port, and the field element. Plain types only: arithmetic on them stands in Machine/Field.lean. -/

namespace Sys2Proof

/-- A pixel, a shadow byte, a cover byte, or an 8-bit register (R8). -/
abbrev Byte := BitVec 8

/-- One word of the host port (R8, R60). -/
abbrev Word := BitVec 32

/-- A field element: an integer in `[0, 250]` (R8, R21, R111). The registers that hold one are 8 bits wide and
never hold 251 to 255, which the type says once for all of them. -/
abbrev FE := Fin 251

end Sys2Proof
end

