-- ==== Sys2Proof/Config.lean ====
section
/-! DEFINITION. What an implementation fixes and what the spec leaves free: the open parameters P1 to P3
(00_scope.md R5, 92_eei_decisions.md), the random draws nobody has scripted (R45), and the memory bytes nothing
has written since reset (R301). The free values have no body, so no proof can learn one. -/

namespace Sys2Proof.Config

/-- The open parameters of the model (R5; P1, P2, P3). The upper bounds of the spec (`N_MAX <= 250`,
`SECRET_DEPTH < 2^31`, `COVER_DEPTH < 2^31`) are in the types; the lower bounds are `Params.ok`. -/
structure Params where
  /-- `N_MAX`, the number of cover slots and shadow memories (P1). -/
  nMax : Fin 251
  /-- `SECRET_DEPTH`, bytes of the SECRET memory (P2). -/
  secretDepth : Fin 2147483648
  /-- `COVER_DEPTH`, bytes of each COVER memory (P3). -/
  coverDepth : Fin 2147483648
deriving DecidableEq, Repr

/-- The lower bounds of P1 to P3: `8 <= N_MAX`, `14 <= SECRET_DEPTH`, `1 <= COVER_DEPTH`. -/
def Params.ok (p : Params) : Bool :=
  8 ≤ p.nMax.val && 14 ≤ p.secretDepth.val && 1 ≤ p.coverDepth.val

/-- The parameters that `State.reset` carries: each at the largest value the spec allows, so that nothing a core
of the spec accepts is turned away for want of room. DESIGN CHOICE, unsafe: notes/assumptions/1.md. Every
statement about all states holds for every other choice too, since the parameters stand in the state. -/
def params : Params where
  nMax := 250
  secretDepth := ⟨2147483647, by decide⟩
  coverDepth := ⟨2147483647, by decide⟩

/-- Draw number `n` since power-up, where no value was queued for it: any value of `[1, 250]`, given as one less
(R45; 93_implementation_defined.md U4). FREE VALUE: notes/assumptions/3.md. -/
opaque freeDraw : Nat → Fin 250

/-- What the memory byte at a key reads as when nothing has written it since reset number `epoch` (R301, V1).
FREE VALUE: notes/assumptions/4.md. -/
opaque powerUpByte (epoch key : Nat) : Byte

end Sys2Proof.Config
end

