-- ==== Sys2Proof/Machine/State.lean ====
section
/-! DEFINITION. The state of the core (10_state.md R20, R23, R44, R47) with the inputs a step reads, and the state
right after power-up (70_reset_and_hazards.md R300). Plain data. The constant parts of R20, `VERSION` and the
inverse ROM, are constants of Machine/HostPort.lean and Machine/Field.lean. -/

namespace Sys2Proof.Machine

/-- Why the machine stops. There is no such reason: every host transaction and every command of this core ends in
a next state, an error being a nonzero outcome in `ERR` (60_exceptions.md R262, R263; 93: "Nothing in the spec is
unpredictable"). Nobody raises a fault. Safe: the type is empty, so no run can end in one. -/
inductive Fault
deriving DecidableEq, Repr

/-- Why an instruction is given no meaning. -/
inductive Refusal where
  /-- The instruction of this mnemonic has no meaning in the model. Raised by no arm of `exec`: every row of the
  opcode table has its meaning. Safe, were it raised: a run would stop. -/
  | notModelled (mnemonic : String)
deriving DecidableEq, Repr

/-- The memory: every byte written since reset, as (key, byte) pairs. What a key stands for is `cellKey` in
Machine/Ops.lean. -/
abbrev Memory := List Host.Cell

/-- The canonical form of a memory: keys strictly rising. A key that is not listed has no value of its own, so no
entry can repeat what an unlisted key reads as, and two memories that hold the same bytes are the same list
(notes/assumptions/4.md). -/
abbrev Memory.wf (m : Memory) : Prop := m.Pairwise (fun p q => p.1 < q.1)

/-- One polynomial bank, `P0` or `P1` (R40): the length register and the eight coefficient registers. -/
structure Bank where
  len : BitVec 4
  c : Vector FE 8
deriving DecidableEq, Repr

/-- The registers of one cover slot (R44): `CID[s]`, `CW[s]`, `CH[s]`. -/
structure Slot where
  cid : Byte
  cw : BitVec 16
  ch : BitVec 16
deriving DecidableEq, Repr

/-- One event at the host port (20_memory.md R60, R61) or at the reset input (R300). -/
inductive HostOp where
  /-- `HostWrite(idx, w)`. -/
  | write (idx : Byte) (w : Word)
  /-- `HostRead(idx)`. -/
  | read (idx : Byte)
  /-- The reset event. -/
  | reset
deriving DecidableEq, Repr

/-- The random-draw port (R45) as the model sees it: the bytes the environment has queued on it, oldest first, and
how many draws were taken since power-up. The model's own field: notes/assumptions/3.md. -/
structure DrawPort where
  queued : List Byte
  taken : Nat
deriving DecidableEq, Repr

/-- The whole state of the model. Registers stand in the order of the register map (R23). -/
structure State where
  /-- `CMD`: the last command word written (R25). -/
  cmd : Word
  /-- `ERR`: the outcome code of the last command (R26). -/
  err : BitVec 3
  /-- `ESTICKY`: one bit for each nonzero outcome code seen (R27). -/
  esticky : BitVec 5
  /-- `EINFO`: detail of the last nonzero outcome (R28). -/
  einfo : Word
  /-- `FLAGS.EQ`, the one flag (R29). -/
  flagEq : Bool
  /-- `A` (R35). -/
  a : FE
  /-- `B` (R35). -/
  b : FE
  /-- `E`: the exponent (R36). -/
  e : Word
  /-- `R`: the scalar result (R37). -/
  r : FE
  /-- `K`: the threshold (R30). -/
  k : Byte
  /-- `N`: the number of participants (R31). -/
  n : Byte
  /-- `NPIX`: the length of the secret plane (R32). -/
  npix : Word
  /-- `BLK`: the block index (R33). -/
  blk : Word
  /-- `OUTW` (R34). -/
  outw : BitVec 16
  /-- `OUTH` (R34). -/
  outh : BitVec 16
  /-- `MSEL`: space in bits 1..0, slot in bits 15..8 (R41). -/
  msel : BitVec 16
  /-- `MADDR`: byte index of the memory window (R42). -/
  maddr : Word
  /-- `SEL[0..7]` (R38). -/
  sel : Vector Byte 8
  /-- `NPTS` (R39). -/
  npts : Byte
  /-- `X[0..7]` (R39). -/
  x : Vector FE 8
  /-- `Y[0..7]` (R39). -/
  y : Vector FE 8
  /-- Bank `P0` (R40). -/
  p0 : Bank
  /-- Bank `P1` (R40). -/
  p1 : Bank
  /-- `CID[s]`, `CW[s]`, `CH[s]` for `s < N_MAX` (R44). -/
  slots : List Slot
  /-- The bytes of the SECRET, SHADOW and COVER memories written since reset (R47). -/
  mem : Memory
  /-- The open parameters `N_MAX`, `SECRET_DEPTH`, `COVER_DEPTH` (R5, R20: inputs of a step). No step changes them. -/
  params : Config.Params
  /-- How many reset events happened since power-up: it tells apart what unwritten bytes read as after each of them
  (R301). The model's own field. -/
  epoch : Nat
  /-- The random-draw port (R45: an input of the core). The model's own field. -/
  drawPort : DrawPort
  /-- What the environment will do at the host port and the reset input, oldest first (R69: one total order). The
  model's own field. -/
  pending : List HostOp
  /-- The word the last `HostRead` returned (R61). The model's own field. -/
  rdata : Word
deriving DecidableEq, Repr

/-- A bank at reset: the constant polynomial 0 (R300). -/
def Bank.zero : Bank where
  len := 1#4
  c := Vector.replicate 8 0

/-- The registers of a slot at reset (R300). -/
def Slot.zero : Slot where
  cid := 0#8
  cw := 0#16
  ch := 0#16

/-- The state right after power-up of a core with the given parameters: every register at the value of R23 and
R300, no memory byte written, nothing waiting at any port. -/
def State.resetWith (p : Config.Params) : State where
  cmd := 0#32
  err := 0#3
  esticky := 0#5
  einfo := 0#32
  flagEq := false
  a := 0
  b := 0
  e := 0#32
  r := 0
  k := 0#8
  n := 0#8
  npix := 0#32
  blk := 0#32
  outw := 0#16
  outh := 0#16
  msel := 0#16
  maddr := 0#32
  sel := #v[0#8, 1#8, 2#8, 3#8, 4#8, 5#8, 6#8, 7#8]
  npts := 0#8
  x := Vector.replicate 8 0
  y := Vector.replicate 8 0
  p0 := Bank.zero
  p1 := Bank.zero
  slots := List.replicate p.nMax.val Slot.zero
  mem := []
  params := p
  epoch := 0
  drawPort := { queued := [], taken := 0 }
  pending := []
  rdata := 0#32

/-- The state right after power-up (R300), with the parameters `Config.params`. -/
def State.reset : State := State.resetWith Config.params

end Sys2Proof.Machine
end

