-- ==== Sys2Proof/Machine/Field.lean ====
section
/-! DEFINITION. The field GF(251) (40_field.md R110 to R119) and the inverse ROM (R113). A `none` of a function here
is the `DivisionByZero` it raises; what `EINFO` then holds is the command's to say. -/

namespace Sys2Proof.Machine

/-- `norm(v)`: the Euclidean remainder modulo 251, of any integer (R110). -/
def normInt (v : Int) : FE := ⟨(v % 251).toNat, by omega⟩

/-- A raw byte used as a field element: 251 to 255 act as 0 to 4 (20_memory.md R68). -/
def normByte (v : Byte) : FE := normInt (v.toNat : Int)

/-- What a host write of `w` stores in a field-element register: `norm(sext_32(w))` (10_state.md R21). -/
def normWord (w : Word) : FE := normInt w.toInt

/-- A field element written to memory, as the unsigned byte of its value (R68). -/
def feByte (v : FE) : Byte := BitVec.ofNat 8 v.val

/-- `fadd(a, b) = (a + b) mod 251` (R114). -/
def fadd (a b : FE) : FE := normInt ((a.val : Int) + (b.val : Int))

/-- `fsub(a, b) = (a - b) mod 251` (R115). -/
def fsub (a b : FE) : FE := normInt ((a.val : Int) - (b.val : Int))

/-- `fmul(a, b) = (a * b) mod 251` (R116). -/
def fmul (a b : FE) : FE := normInt ((a.val : Int) * (b.val : Int))

/-- The contents of the inverse ROM, words 0 to 255, sixteen a row as R113 prints them. -/
def invRom : List Nat :=
  [0, 1, 126, 84, 63, 201, 42, 36, 157, 28, 226, 137, 21, 58, 18, 67] ++
  [204, 192, 14, 185, 113, 12, 194, 131, 136, 241, 29, 93, 9, 26, 159, 81] ++
  [102, 213, 96, 208, 7, 95, 218, 103, 182, 49, 6, 216, 97, 106, 191, 235] ++
  [68, 41, 246, 64, 140, 90, 172, 178, 130, 229, 13, 234, 205, 107, 166, 4] ++
  [51, 112, 232, 15, 48, 211, 104, 99, 129, 196, 173, 164, 109, 163, 177, 197] ++
  [91, 31, 150, 124, 3, 189, 108, 176, 174, 110, 53, 80, 221, 27, 243, 37] ++
  [34, 44, 146, 71, 123, 169, 32, 39, 70, 153, 45, 61, 86, 76, 89, 199] ++
  [65, 20, 240, 227, 132, 118, 117, 135, 228, 195, 179, 100, 83, 249, 2, 168] ++
  [151, 72, 56, 23, 116, 134, 133, 119, 24, 11, 231, 186, 52, 162, 175, 165] ++
  [190, 206, 98, 181, 212, 219, 82, 128, 180, 105, 207, 217, 214, 8, 224, 30] ++
  [171, 198, 141, 77, 75, 143, 62, 248, 127, 101, 220, 160, 54, 74, 88, 142] ++
  [87, 78, 55, 122, 152, 147, 40, 203, 236, 19, 139, 200, 247, 85, 144, 46] ++
  [17, 238, 22, 121, 73, 79, 161, 111, 187, 5, 210, 183, 16, 60, 145, 154] ++
  [35, 245, 202, 69, 148, 33, 156, 244, 43, 155, 38, 149, 170, 92, 225, 242] ++
  [158, 222, 10, 115, 120, 57, 239, 138, 66, 237, 59, 47, 184, 233, 193, 230] ++
  [114, 25, 223, 94, 215, 209, 50, 188, 167, 125, 250, 0, 0, 0, 0, 0]

/-- Word `a` of the inverse ROM, 8 bits wide (R46, R113). -/
def romWord (a : Nat) : Byte := BitVec.ofNat 8 (invRom.getD a 0)

/-- `INV[a]` as a field element. -/
def inverse (a : FE) : FE := normByte (romWord a.val)

/-- `fdiv(a, b)`: raises `DivisionByZero` when `b = 0`, and is `fmul(a, INV[b])` otherwise (R117). -/
def fdiv (a b : FE) : Option FE := if b = 0 then none else some (fmul a (inverse b))

/-- Square and multiply over the low `bits` bits of the exponent. R118 leaves the method free. -/
def powBits : Nat → FE → Nat → FE
  | 0, _, _ => 1
  | bits + 1, a, e =>
    if e % 2 = 1 then fmul a (powBits bits (fmul a a) (e / 2)) else powBits bits (fmul a a) (e / 2)

/-- `fpow(a, e)` for the 32-bit exponent register: the product of `e` copies of `a`, and 1 for `e = 0` (R118). -/
def fpow (a : FE) (e : Word) : FE := powBits 32 a e.toNat

/-- `feq(a, b)`: equality of the values held (R119). -/
def feq (a b : FE) : Bool := a.val == b.val

end Sys2Proof.Machine
end

