-- ==== Sys2Proof/Machine/Poly.lean ====
section
/-! DEFINITION. Polynomials as coefficient lists, highest-degree term first (41_polynomial.md R140): evaluation,
the Lagrange basis value at 0, interpolation (R141 to R147), and the cheating search (43_share_decoder.md R204).
A `none` is the outcome the algorithm raises: `DivisionByZero`, or `CheatingDetected` for the search. -/

namespace Sys2Proof.Machine

/-- `eval(C, x)` by the Horner recurrence (R141, R142). -/
def eval (cs : List FE) (x : FE) : FE := cs.foldl (fun acc c => fadd (fmul acc x) c) 0

/-- Element `i` of a list of field elements. -/
def elem (xs : List FE) (i : Nat) : FE := xs.getD i 0

/-- The factor `(-x_j) / (x_i - x_j)` of the basis value (R143). -/
def lagFactor (xs : List FE) (i j : Nat) : Option FE := fdiv (fsub 0 (elem xs j)) (fsub (elem xs i) (elem xs j))

/-- `lag0(xs, i, top)`: the value at 0 of basis polynomial `i` over the first `top` points (R143). -/
def lag0 (xs : List FE) (i top : Nat) : Option FE :=
  (List.range top).foldlM (fun acc j => if j = i then some acc else (lagFactor xs i j).map (fmul acc)) 1

/-- `sum of w_i * L_i(0)` over the first `top` points: the coefficient one pass extracts (R144). -/
def lagSum (xs w : List FE) (top : Nat) : Option FE :=
  (List.range top).foldlM (fun acc i => (lag0 xs i top).map (fun l => fadd acc (fmul (elem w i) l))) 0

/-- The ordinates of the next pass, over its first `top` points: `(w_i - c) / x_i` (R144). -/
def deflate (xs w : List FE) (c : FE) (top : Nat) : Option (List FE) :=
  (List.range top).mapM (fun i => fdiv (fsub (elem w i) c) (elem xs i))

/-- The passes over the working sets of `top`, `top - 1`, ..., 1 points, from the working ordinates `w` and the value
`last` the pass before extracted, if there was one (R144). The value of the first of these passes is the lowest
coefficient, so it stands last in the list (90_conflicts.md C5). -/
def interpPasses (xs : List FE) : (top : Nat) → (w : List FE) → (last : Option FE) → Option (List FE)
  | 0, _, _ => some []
  | top + 1, w, last =>
    (match last with
      | none => some w
      | some c => deflate xs w c (top + 1)).bind fun w' =>
    (lagSum xs w' (top + 1)).bind fun c =>
    (interpPasses xs top w' (some c)).map fun higher => higher ++ [c]

/-- `interp(k, xs, ys)`: the polynomial of length `k` through the `k` points, or `DivisionByZero` (R144 to R146). -/
def interp (k : Nat) (xs ys : List FE) : Option (List FE) := interpPasses xs k ys none

/-- Both equations of the cheating check hold for `r` (R204). -/
def blindsBoth (a0 a1 b0 b1 r : FE) : Bool := feq (fadd (fmul r a0) b0) 0 && feq (fadd (fmul r a1) b1) 0

/-- The search for `r = 0, 1, ..., 250` ascending (R204, 90_conflicts.md C8). -/
def cheatSearch (a0 a1 b0 b1 : FE) : Option FE :=
  ((List.range 251).map fun r : Nat => normInt (r : Int)).find? (blindsBoth a0 a1 b0 b1)

/-- `cheat(f, g)`: the blinding value found, or `CheatingDetected` (R204). -/
def cheat (f g : List FE) : Option FE := cheatSearch (elem f 0) (elem f 1) (elem g 0) (elem g 1)

end Sys2Proof.Machine
end

