-- ==== Sys2Proof/Machine/Ops.lean ====
section
/-! DEFINITION. The named operations over the state: one byte and one run of bytes of memory (20_memory.md R62, R63,
R76), the random-draw port (R45), ending a command with or without an outcome raised (60_exceptions.md R260 to R264),
writing registers, and the reset event (70_reset_and_hazards.md R300, R301). -/

namespace Sys2Proof.Machine

/-! ## Memory -/

/-- The three byte memories (R47). -/
inductive Space where
  | secret
  | shadow
  | cover
deriving DecidableEq, Repr

/-- The key of a location in the memory list: SECRET has one memory, SHADOW and COVER one for each slot. Distinct
locations of the address map (R76) have distinct keys, since a slot is below 256 and a byte index below `2^32`. -/
def cellKey (sp : Space) (slot i : Nat) : Nat :=
  match sp with
  | .secret => i
  | .shadow => (256 + slot) * 4294967296 + i
  | .cover => (512 + slot) * 4294967296 + i

/-- The byte listed at a key, if one is. -/
def lookup : Memory → Nat → Option Byte
  | [], _ => none
  | (k, v) :: rest, key => if k = key then some v else lookup rest key

/-- Bytes laid out from a key upwards. -/
def cellsFrom : Nat → List Byte → Memory
  | _, [] => []
  | key, v :: vs => (key, v) :: cellsFrom (key + 1) vs

/-- The memory with the keys from `base` on replaced by a run of bytes. -/
def splice (m : Memory) (base : Nat) (bytes : List Byte) : Memory :=
  m.filter (fun p => p.1 < base) ++ cellsFrom base bytes ++ m.filter (fun p => base + bytes.length ≤ p.1)

/-- The byte stored at a location (R62): the last one written since reset, or the byte that stood there after reset,
about which nothing is known (R301). -/
def State.byteAt (s : State) (sp : Space) (slot i : Nat) : Byte :=
  match lookup s.mem (cellKey sp slot i) with
  | some v => v
  | none => Config.powerUpByte s.epoch (cellKey sp slot i)

/-- Stores a run of bytes at indices `i`, `i + 1`, ... of one memory. -/
def State.storeFrom (s : State) (sp : Space) (slot i : Nat) (bytes : List Byte) : State :=
  { s with mem := splice s.mem (cellKey sp slot i) bytes }

/-- `MemWrite(space, slot, i, v)` at a location that exists (R63). -/
def State.storeByte (s : State) (sp : Space) (slot i : Nat) (v : Byte) : State := s.storeFrom sp slot i [v]

/-- Writes bytes 0, 1, ... of one memory: what every command that writes a memory does (R65). -/
def State.fill (s : State) (sp : Space) (slot : Nat) (bytes : List Byte) : State := s.storeFrom sp slot 0 bytes

/-- `SHADOW_DEPTH = ceil(SECRET_DEPTH / 2)` (R5). -/
def shadowDepth (p : Config.Params) : Nat := (p.secretDepth.val + 1) / 2

/-- A location exists (R62). -/
def inRange (p : Config.Params) (sp : Space) (slot i : Nat) : Bool :=
  match sp with
  | .secret => i < p.secretDepth.val
  | .shadow => slot < p.nMax.val && i < shadowDepth p
  | .cover => slot < p.nMax.val && i < p.coverDepth.val

/-! ## The random-draw port -/

/-- A byte on the draw port is a draw when it is in `[1, 250]`; others are discarded (R45). -/
def isDraw (v : Byte) : Bool := 1 ≤ v.toNat && v.toNat ≤ 250

/-- `Draw()` (R45): the oldest queued byte that is a draw, or, where none is queued, whatever the source delivers. -/
def DrawPort.draw (p : DrawPort) : FE × DrawPort :=
  match p.queued.dropWhile (fun v => !isDraw v) with
  | v :: rest => (normByte v, { queued := rest, taken := p.taken + 1 })
  | [] => (normInt ((Config.freeDraw p.taken).val + 1 : Nat), { queued := [], taken := p.taken + 1 })

/-- The next `n` draws, in order. -/
def DrawPort.drawMany : Nat → DrawPort → List FE × DrawPort
  | 0, p => ([], p)
  | n + 1, p =>
    let d := p.draw
    let rest := DrawPort.drawMany n d.2
    (d.1 :: rest.1, rest.2)

/-- The state with the draw port after some draws. -/
def State.withDrawPort (s : State) (p : DrawPort) : State := { s with drawPort := p }

/-! ## Ending a command -/

/-- The validation subcodes (R264). -/
inductive Subcode where
  | vK
  | vSize
  | vDiv
  | vNcov
  | vSel
  | vDim
  | vCap
  | vNpts
  | vArg
  | vLen
  | vBlk
deriving DecidableEq, Repr

/-- The number of a subcode, as `EINFO` shows it (R264). -/
def Subcode.code : Subcode → Nat
  | .vK => 1
  | .vSize => 2
  | .vDiv => 3
  | .vNcov => 4
  | .vSel => 5
  | .vDim => 6
  | .vCap => 7
  | .vNpts => 8
  | .vArg => 9
  | .vLen => 10
  | .vBlk => 11

/-- What a command can raise (R260), with what it records. -/
inductive Trap where
  | validation (v : Subcode)
  | divisionByZero (info : Nat)
  | cheatingDetected (info : Nat)
  | illegalCommand (w : Word)
deriving DecidableEq, Repr

/-- The outcome code, as `ERR` shows it (R26, R260). -/
def Trap.code : Trap → Nat
  | .validation _ => 1
  | .divisionByZero _ => 2
  | .cheatingDetected _ => 3
  | .illegalCommand _ => 4

/-- The value recorded in `EINFO` (R28, R260). -/
def Trap.info : Trap → Word
  | .validation v => BitVec.ofNat 32 v.code
  | .divisionByZero info => BitVec.ofNat 32 info
  | .cheatingDetected info => BitVec.ofNat 32 info
  | .illegalCommand w => w

/-- `raise E(info)`, the one way a command ends with a nonzero outcome (R262): `ERR`, the bit of `ESTICKY` and
`EINFO` are written and nothing else. There is no handler to enter and none to return from (R263). -/
def State.raise (s : State) (t : Trap) : State :=
  { s with
    err := BitVec.ofNat 3 t.code
    esticky := s.esticky ||| (1#5 <<< t.code)
    einfo := t.info }

/-- `ERR <- 0`, the end of a command that raised nothing; `ESTICKY` and `EINFO` stay (R26 to R28). -/
def State.succeed (s : State) : State := { s with err := 0#3 }

/-- The end of a command that runs from `s` (R67, compute then commit): what it computed is committed only when
nothing was raised, and a raise leaves `s` but for R262's three registers. -/
def State.conclude (s : State) (result : Except Trap State) : Host.Outcome State Fault Refusal :=
  match result with
  | .ok t => .next t.succeed
  | .error trap => .next (s.raise trap)

/-- The subcode of the first check of a list that fails, a check being `(does it fail, its subcode)` (R265). -/
def firstFailure : List (Bool × Subcode) → Option Subcode
  | [] => none
  | (fails, v) :: rest => if fails then some v else firstFailure rest

/-- Makes checks in order and raises `ValidationError` at the first that fails (R265). -/
def validate (checks : List (Bool × Subcode)) : Except Trap Unit :=
  match firstFailure checks with
  | none => .ok ()
  | some v => .error (.validation v)

/-- An algorithm's `none` ends the command with an outcome. -/
def orRaise {α : Type} (t : Trap) : Option α → Except Trap α
  | some v => .ok v
  | none => .error t

/-! ## Registers the commands write -/

/-- `R <- v` (R37). -/
def State.withR (s : State) (v : FE) : State := { s with r := v }

/-- `ESTICKY <- 0; EINFO <- 0` (R251). -/
def State.clearErrors (s : State) : State := { s with esticky := 0#5, einfo := 0#32 }

/-- A bank that holds the polynomial `cs` of length `len`: `C[i]` with `i >= LEN` holds 0 (R40). -/
def Bank.load (len : Nat) (cs : List FE) : Bank where
  len := BitVec.ofNat 4 len
  c := Vector.ofFn fun i : Fin 8 => if i.val < len then elem cs i.val else 0

/-- `P0` is replaced. -/
def State.withP0 (s : State) (b : Bank) : State := { s with p0 := b }

/-- `P1` is replaced. -/
def State.withP1 (s : State) (b : Bank) : State := { s with p1 := b }

/-- The registers of slot `i` (R44). -/
def State.slotRegs (s : State) (i : Nat) : Slot := s.slots.getD i Slot.zero

/-- Slot `i` is changed by `f`. -/
def State.updateSlot (s : State) (i : Nat) (f : Slot → Slot) : State := { s with slots := s.slots.modify i f }

/-- `CID[i] <- v` (R177, R236). -/
def State.withCid (s : State) (i : Nat) (v : Byte) : State := s.updateSlot i fun t => { t with cid := v }

/-- `OUTW <- w; OUTH <- h` (R34). -/
def State.withOut (s : State) (w h : BitVec 16) : State := { s with outw := w, outh := h }

/-! ## The reset event -/

/-- The reset event (R300): every register takes its reset value; the memories keep nothing that may be relied on
(R301), which a new `epoch` says. What waits at the ports, the parameters and the word last read are not registers
of the core. -/
def State.resetEvent (s : State) : State :=
  { State.resetWith s.params with
    epoch := s.epoch + 1
    drawPort := s.drawPort
    pending := s.pending
    rdata := s.rdata }

end Sys2Proof.Machine
end

