-- ==== Sys2Proof/Machine/Flags.lean ====
section
/-! DEFINITION. The one flag, `FLAGS.EQ` (10_state.md R29), and the two comparisons that write it: of field elements
(40_field.md R119) and of polynomials (41_polynomial.md R147). No other command writes a flag (R128). -/

namespace Sys2Proof.Machine

/-- `FLAGS.EQ <- v` (R29). -/
def State.withEq (s : State) (v : Bool) : State := { s with flagEq := v }

/-- The word `FLAGS` reads as: bit 0 is `EQ`, the others 0 (R29). -/
def State.flagsWord (s : State) : Word := if s.flagEq then 1#32 else 0#32

/-- Equality of the polynomials in two banks: the lengths, then the coefficients below the length (R147, R152). -/
def Bank.sameAs (p q : Bank) : Bool :=
  p.len == q.len && (List.range p.len.toNat).all fun i => feq (p.c.toList.getD i 0) (q.c.toList.getD i 0)

end Sys2Proof.Machine
end

