-- ==== Sys2Proof/Machine/Operands.lean ====
section
/-! DEFINITION. The operand forms of the commands: the derived quantities of the registers (00_scope.md R5, R230,
R231), banks and points as lists, and the checks the commands share (42_share_encoder.md R171, R172;
43_share_decoder.md R201; 44_embedding.md R232), each a pair of "does it fail" and its subcode. -/

namespace Sys2Proof.Machine

/-! ## Derived quantities -/

/-- `BS(K) = 2K - 2` (R5). -/
def State.blockSize (s : State) : Nat := 2 * s.k.toNat - 2

/-- `NB = NPIX / BS(K)` (R5). -/
def State.numBlocks (s : State) : Nat := s.npix.toNat / s.blockSize

/-- `SL = 2 * NB`, the shadow length (R5, R231). -/
def State.shadowLen (s : State) : Nat := 2 * s.numBlocks

/-- `W(K)`: 4 for `K` 3 or 4, else 2 (R230). -/
def State.groupWidth (s : State) : Nat := if s.k.toNat = 3 || s.k.toNat = 4 then 4 else 2

/-- `GPB(K) = 8 / W(K)` (R230). -/
def State.groupsPerByte (s : State) : Nat := 8 / s.groupWidth

/-- `MASK(K) = 2^W(K) - 1` (R230). -/
def State.groupMask (s : State) : Byte := BitVec.ofNat 8 (2 ^ s.groupWidth - 1)

/-- How many cover bytes carry a shadow: `SL * GPB(K)` (R231). -/
def State.coverUsed (s : State) : Nat := s.shadowLen * s.groupsPerByte

/-- `CLEN(s) = CW[s] * CH[s]`, exact (R44, R128). -/
def State.coverLen (s : State) (slot : Nat) : Nat := (s.slotRegs slot).cw.toNat * (s.slotRegs slot).ch.toNat

/-- `SEL[i]` as a slot number (R38). -/
def State.selAt (s : State) (i : Nat) : Nat := (s.sel.toList.getD i 0#8).toNat

/-! ## Banks and points -/

/-- Bank `P0` or `P1` (R148). -/
def State.bank (s : State) (b : Nat) : Bank := if b = 0 then s.p0 else s.p1

/-- Bank `P0` or `P1` is replaced. -/
def State.withBank (s : State) (b : Nat) (bank : Bank) : State := if b = 0 then s.withP0 bank else s.withP1 bank

/-- `poly(Pb)`: the coefficients below the length (R148). -/
def Bank.poly (p : Bank) : List FE := p.c.toList.take p.len.toNat

/-- `X[0], ..., X[n-1]`. -/
def State.xs (s : State) (n : Nat) : List FE := s.x.toList.take n

/-- `Y[0], ..., Y[n-1]`. -/
def State.ys (s : State) (n : Nat) : List FE := s.y.toList.take n

/-! ## Checks -/

/-- The bank argument is 0 or 1 (R148). -/
def bankChecks (b : Nat) : List (Bool × Subcode) := [(decide (1 < b), .vArg)]

/-- The slot argument names a slot (R236). -/
def State.slotArgChecks (s : State) (slot : Nat) : List (Bool × Subcode) :=
  [(decide (s.params.nMax.val ≤ slot), .vArg)]

/-- `check_scheme()` (R171). -/
def State.schemeChecks (s : State) : List (Bool × Subcode) :=
  [(decide (s.k.toNat < 3) || decide (8 < s.k.toNat), .vK),
   (decide (s.params.secretDepth.val < s.npix.toNat), .vSize),
   (decide (s.npix.toNat % (2 * s.k.toNat - 2) ≠ 0), .vDiv)]

/-- `check_participants()`, also the first check of `check_selection()` (R172, R201). -/
def State.participantChecks (s : State) : List (Bool × Subcode) :=
  [(decide (s.n.toNat < s.k.toNat) || decide (s.params.nMax.val < s.n.toNat), .vNcov)]

/-- `check_selection()` (R201): enough covers, the selected slots loaded, their dimensions equal. -/
def State.selectionChecks (s : State) : List (Bool × Subcode) :=
  s.participantChecks ++
  (List.range s.k.toNat).map (fun i => (decide (s.n.toNat ≤ s.selAt i), Subcode.vSel)) ++
  (List.range' 1 (s.k.toNat - 1)).map fun i =>
    (decide ((s.slotRegs (s.selAt i)).cw ≠ (s.slotRegs (s.selAt 0)).cw) ||
      decide ((s.slotRegs (s.selAt i)).ch ≠ (s.slotRegs (s.selAt 0)).ch), Subcode.vDim)

/-- `check_capacity(slot)` (R232). -/
def State.capacityCheck (s : State) (slot : Nat) : Bool × Subcode :=
  (decide (s.params.coverDepth.val < s.coverLen slot) || decide (s.coverLen slot < s.coverUsed), .vCap)

/-- `BLK < NB` (R180, R203). -/
def State.blockChecks (s : State) : List (Bool × Subcode) := [(decide (s.numBlocks ≤ s.blk.toNat), .vBlk)]

/-- `NPTS = K` and `1 <= K <= 8` (R154). -/
def State.pointChecks (s : State) : List (Bool × Subcode) :=
  [(decide (s.k.toNat < 1) || decide (8 < s.k.toNat) || decide (s.npts ≠ s.k), .vNpts)]

end Sys2Proof.Machine
end

