-- ==== Sys2Proof/Machine/Embedding.lean ====
section
/-! DEFINITION. The embedding unit (44_embedding.md): packing a shadow into the low bits of a cover and reading it
back (R233, R234), and the commands `EMBED` and `EXTRACT` (R236, R237). -/

namespace Sys2Proof.Machine

/-- Group `t` of a shadow byte, the most significant group being group 0 (R233). -/
def State.groupOf (s : State) (v : Byte) (t : Nat) : Byte :=
  (v >>> (8 - s.groupWidth * (t + 1))) &&& s.groupMask

/-- What `pack(slot)` leaves in cover byte `idx`, which carries group `idx mod G` of shadow byte `idx / G`: the high
bits kept, the low `W` bits replaced (R233). -/
def State.packedByte (s : State) (slot idx : Nat) : Byte :=
  (s.byteAt .cover slot idx &&& (0xFF#8 - s.groupMask)) |||
    s.groupOf (s.byteAt .shadow slot (idx / s.groupsPerByte)) (idx % s.groupsPerByte)

/-- `pack(slot)` (R233). -/
def State.pack (s : State) (slot : Nat) : State :=
  s.fill .cover slot ((List.range s.coverUsed).map (s.packedByte slot))

/-- Byte `q` of `unpack(slot)`: the low groups of its cover bytes, concatenated (R234). -/
def State.unpackByte (s : State) (slot q : Nat) : Byte :=
  (List.range s.groupsPerByte).foldl
    (fun sb t => (sb <<< s.groupWidth) ||| (s.byteAt .cover slot (q * s.groupsPerByte + t) &&& s.groupMask)) 0#8

/-- `unpack(slot)`: `SL` bytes (R234). -/
def State.unpack (s : State) (slot : Nat) : List Byte := (List.range s.shadowLen).map (s.unpackByte slot)

/-- `pack(slot)`, then `CID[slot] <- slot + 1` (R236). -/
def State.embedSlot (s : State) (slot : Nat) : State := (s.pack slot).withCid slot (BitVec.ofNat 8 (slot + 1))

/-- `EMBED slot` (R236). -/
def execEmbed (slot : Nat) (s : State) : Host.Outcome State Fault Refusal :=
  s.conclude do
    validate (s.slotArgChecks slot ++ s.schemeChecks ++ [s.capacityCheck slot])
    .ok (s.embedSlot slot)

/-- `EXTRACT slot` (R237). -/
def execExtract (slot : Nat) (s : State) : Host.Outcome State Fault Refusal :=
  s.conclude do
    validate (s.slotArgChecks slot ++ s.schemeChecks ++ [s.capacityCheck slot])
    .ok (s.fill .shadow slot (s.unpack slot))

end Sys2Proof.Machine
end

