-- ==== Sys2Proof/Machine/Decoder.lean ====
section
/-! DEFINITION. The share decoder (43_share_decoder.md): the points of a block, its two polynomials, the cheating
check and reassembly (R202 to R210), and the commands `BLKINTERP`, `CHEAT`, `DECODE`, `RECOVER`. The shadow of share
`i` is given as a list of bytes: read from SHADOW for `BLKINTERP` and `DECODE`, unpacked for `RECOVER` (R200). -/

namespace Sys2Proof.Machine

/-- The abscissae: the identifiers of the selected slots, in the order of `SEL` (R202). -/
def State.shareXs (s : State) : List FE :=
  (List.range s.k.toNat).map fun i => normByte (s.slotRegs (s.selAt i)).cid

/-- The ordinates at byte `q` of the shadows of the selected slots (R202). -/
def shareYs (shadows : List (List Byte)) (q : Nat) : List FE := shadows.map fun sh => normByte (sh.getD q 0#8)

/-- The first `SL` bytes of the shadow memory of each selected slot (R65, R200). -/
def State.storedShadows (s : State) : List (List Byte) :=
  (List.range s.k.toNat).map fun i => (List.range s.shadowLen).map (s.byteAt .shadow (s.selAt i))

/-- The shadow each selected cover carries (R208). -/
def State.carriedShadows (s : State) : List (List Byte) :=
  (List.range s.k.toNat).map fun i => s.unpack (s.selAt i)

/-- The polynomials `f` and `g` of block `b`, or `DivisionByZero` (R203, R210). -/
def State.interpBlock (s : State) (shadows : List (List Byte)) (b : Nat) : Option (List FE × List FE) :=
  (interp s.k.toNat s.shareXs (shareYs shadows (2 * b))).bind fun f =>
    (interp s.k.toNat s.shareXs (shareYs shadows (2 * b + 1))).map fun g => (f, g)

/-- Block reassembly: the coefficients of `f`, then those of `g` from position 2 (R206). -/
def reassemble (f g : List FE) : List FE := f ++ g.drop 2

/-- `decode_block(b)`, with the outcome it raises (R207, R210). -/
def State.decodeBlock (s : State) (shadows : List (List Byte)) (b : Nat) : Except Trap (List FE) := do
  let fg ← orRaise (.divisionByZero b) (s.interpBlock shadows b)
  let _ ← orRaise (.cheatingDetected b) (cheat fg.1 fg.2)
  .ok (reassemble fg.1 fg.2)

/-- Blocks `b` to `b + n - 1` in turn, up to the first that raises (R207). -/
def State.decodeBlocks (s : State) (shadows : List (List Byte)) : (n b : Nat) → Except Trap (List FE)
  | 0, _ => .ok []
  | n + 1, b => do
    let out ← s.decodeBlock shadows b
    let rest ← State.decodeBlocks s shadows n (b + 1)
    .ok (out ++ rest)

/-- Commits a reconstructed plane: `SECRET[0 .. NPIX-1]`, `OUTW`, `OUTH` (R207, R209). -/
def State.commitPlane (s : State) (plane : List FE) : State :=
  (s.fill .secret 0 (plane.map feByte)).withOut (s.slotRegs (s.selAt 0)).cw (s.slotRegs (s.selAt 0)).ch

/-- Writes the extracted shadows to the SHADOW memories of their slots (R208). -/
def State.storeShadows (s : State) : (shadows : List (List Byte)) → (i : Nat) → State
  | [], _ => s
  | sh :: rest, i => State.storeShadows (s.fill .shadow (s.selAt i) sh) rest (i + 1)

/-- `BLKINTERP` (R203). -/
def execBlkinterp (s : State) : Host.Outcome State Fault Refusal :=
  s.conclude do
    validate (s.schemeChecks ++ s.selectionChecks ++ s.blockChecks)
    let fg ← orRaise (.divisionByZero s.blk.toNat) (s.interpBlock s.storedShadows s.blk.toNat)
    .ok ((s.withP0 (Bank.load s.k.toNat fg.1)).withP1 (Bank.load s.k.toNat fg.2))

/-- `CHEAT` (R205). -/
def execCheat (s : State) : Host.Outcome State Fault Refusal :=
  s.conclude do
    validate [(decide (s.p0.len.toNat < 2) || decide (s.p1.len.toNat < 2), .vLen)]
    let r ← orRaise (.cheatingDetected 0) (cheat s.p0.poly s.p1.poly)
    .ok (s.withR r)

/-- `DECODE` (R207). -/
def execDecode (s : State) : Host.Outcome State Fault Refusal :=
  s.conclude do
    validate (s.schemeChecks ++ s.selectionChecks)
    let plane ← s.decodeBlocks s.storedShadows s.numBlocks 0
    .ok (s.commitPlane plane)

/-- `RECOVER` (R208). -/
def execRecover (s : State) : Host.Outcome State Fault Refusal :=
  s.conclude do
    validate (s.schemeChecks ++ s.selectionChecks ++
      (List.range s.k.toNat).map fun i => s.capacityCheck (s.selAt i))
    let plane ← s.decodeBlocks s.carriedShadows s.numBlocks 0
    .ok ((s.storeShadows s.carriedShadows 0).commitPlane plane)

end Sys2Proof.Machine
end

