-- ==== Sys2Proof/Machine/Encoder.lean ====
section
/-! DEFINITION. The share encoder (42_share_encoder.md): one block's two polynomials (R173 to R179), the shadows
(R176, R177), and the commands `BLKBUILD`, `ENCODE`, `DISTRIBUTE` (R180 to R182). -/

namespace Sys2Proof.Machine

/-- Pixel `t` of block `i`, as a field element (R173). -/
def State.pixel (s : State) (i t : Nat) : FE := normByte (s.byteAt .secret 0 (i * s.blockSize + t))

/-- A leading value, remapped to 1 when it is exactly 0 (R174). -/
def remapZero (v : FE) : FE := if v = 0 then 1 else v

/-- `build_block(i, r)`: the polynomials `f_i` and `g_i` (R179). -/
def State.buildBlock (s : State) (i : Nat) (r : FE) : List FE × List FE :=
  (remapZero (s.pixel i 0) :: remapZero (s.pixel i 1) ::
      (List.range' 2 (s.k.toNat - 2)).map (s.pixel i),
    fsub 0 (fmul r (remapZero (s.pixel i 0))) :: fsub 0 (fmul r (remapZero (s.pixel i 1))) ::
      (List.range' s.k.toNat (s.k.toNat - 2)).map (s.pixel i))

/-- The polynomials of all blocks, draw `i` blinding block `i` (R181, 20_memory.md R70). -/
def State.buildBlocks (s : State) (rs : List FE) : List (List FE × List FE) :=
  List.zipWith s.buildBlock (List.range s.numBlocks) rs

/-- Participant `j`'s shadow: `f_i(j)` and `g_i(j)` for each block in turn (R176). -/
def shadowOf (polys : List (List FE × List FE)) (j : Nat) : List Byte :=
  polys.flatMap fun fg => [feByte (eval fg.1 (normInt (j : Int))), feByte (eval fg.2 (normInt (j : Int)))]

/-- Writes the shadows of participants `1` to `n`, participant `j` in slot `j - 1` (R177). -/
def State.writeShadows (s : State) (polys : List (List FE × List FE)) (n : Nat) : State :=
  (List.range n).foldl (fun t slot => t.fill .shadow slot (shadowOf polys (slot + 1))) s

/-- The body of `ENCODE`: one draw a block, then every shadow (R181). -/
def State.encodeAll (s : State) : State :=
  (s.withDrawPort (DrawPort.drawMany s.numBlocks s.drawPort).2).writeShadows
    (s.buildBlocks (DrawPort.drawMany s.numBlocks s.drawPort).1) s.n.toNat

/-- `pack` and the identifier for slots `0` to `n - 1` in turn (R182). -/
def State.embedSlots (s : State) (n : Nat) : State := (List.range n).foldl State.embedSlot s

/-- `BLKBUILD` (R180). -/
def execBlkbuild (s : State) : Host.Outcome State Fault Refusal :=
  s.conclude do
    validate (s.schemeChecks ++ s.blockChecks)
    let fg := s.buildBlock s.blk.toNat s.drawPort.draw.1
    .ok ((((s.withDrawPort s.drawPort.draw.2).withP0 (Bank.load s.k.toNat fg.1)).withP1
      (Bank.load s.k.toNat fg.2)).withR s.drawPort.draw.1)

/-- `ENCODE` (R181). -/
def execEncode (s : State) : Host.Outcome State Fault Refusal :=
  s.conclude do
    validate (s.schemeChecks ++ s.participantChecks)
    .ok s.encodeAll

/-- `DISTRIBUTE` (R182). -/
def execDistribute (s : State) : Host.Outcome State Fault Refusal :=
  s.conclude do
    validate (s.schemeChecks ++ s.participantChecks ++ (List.range s.n.toNat).map s.capacityCheck)
    .ok (s.encodeAll.embedSlots s.n.toNat)

end Sys2Proof.Machine
end

