-- ==== Sys2Proof/Machine/FieldUnit.lean ====
section
/-! DEFINITION. The field commands (40_field.md R120 to R127). -/

namespace Sys2Proof.Machine

/-- `FADD` (R121). -/
def execFadd (s : State) : Host.Outcome State Fault Refusal := s.conclude (.ok (s.withR (fadd s.a s.b)))

/-- `FSUB` (R122). -/
def execFsub (s : State) : Host.Outcome State Fault Refusal := s.conclude (.ok (s.withR (fsub s.a s.b)))

/-- `FMUL` (R123). -/
def execFmul (s : State) : Host.Outcome State Fault Refusal := s.conclude (.ok (s.withR (fmul s.a s.b)))

/-- `FDIV` (R124). -/
def execFdiv (s : State) : Host.Outcome State Fault Refusal :=
  s.conclude ((orRaise (.divisionByZero 0) (fdiv s.a s.b)).map s.withR)

/-- `FPOW` (R125). -/
def execFpow (s : State) : Host.Outcome State Fault Refusal := s.conclude (.ok (s.withR (fpow s.a s.e)))

/-- `FINV` (R126). -/
def execFinv (s : State) : Host.Outcome State Fault Refusal :=
  s.conclude (if s.a = 0 then .error (.divisionByZero 0) else .ok (s.withR (inverse s.a)))

/-- `FEQ` (R127). -/
def execFeq (s : State) : Host.Outcome State Fault Refusal := s.conclude (.ok (s.withEq (feq s.a s.b)))

end Sys2Proof.Machine
end

