-- ==== Sys2Proof/Machine/PolyUnit.lean ====
section
/-! DEFINITION. The polynomial commands (41_polynomial.md R148 to R154). -/

namespace Sys2Proof.Machine

/-- `PNEW b, len` (R150). -/
def execPnew (b len : Nat) (s : State) : Host.Outcome State Fault Refusal :=
  s.conclude do
    validate [(decide (1 < b) || decide (len < 1) || decide (8 < len), .vArg)]
    .ok (s.withBank b (Bank.load len []))

/-- `PEVAL b` (R151). -/
def execPeval (b : Nat) (s : State) : Host.Outcome State Fault Refusal :=
  s.conclude do
    validate (bankChecks b)
    .ok (s.withR (eval (s.bank b).poly s.a))

/-- `PEQ` (R152). -/
def execPeq (s : State) : Host.Outcome State Fault Refusal := s.conclude (.ok (s.withEq (s.p0.sameAs s.p1)))

/-- `LAG0 i, top` (R153). -/
def execLag0 (i top : Nat) (s : State) : Host.Outcome State Fault Refusal :=
  s.conclude do
    validate [(decide (top < 1) || decide (8 < top) || decide (top ≤ i), .vArg)]
    let l ← orRaise (.divisionByZero 0) (lag0 (s.xs 8) i top)
    .ok (s.withR l)

/-- `PINTERP b` (R154). -/
def execPinterp (b : Nat) (s : State) : Host.Outcome State Fault Refusal :=
  s.conclude do
    validate (bankChecks b ++ s.pointChecks)
    let cs ← orRaise (.divisionByZero 0) (interp s.k.toNat (s.xs s.k.toNat) (s.ys s.k.toNat))
    .ok (s.withBank b (Bank.load s.k.toNat cs))

end Sys2Proof.Machine
end

