-- ==== Sys2Proof/Machine/SystemUnit.lean ====
section
/-! DEFINITION. The system commands (45_system.md R250, R251). -/

namespace Sys2Proof.Machine

/-- `NOP` (R250). -/
def execNop (s : State) : Host.Outcome State Fault Refusal := s.conclude (.ok s)

/-- `CLRERR` (R251). -/
def execClrerr (s : State) : Host.Outcome State Fault Refusal := s.conclude (.ok s.clearErrors)

end Sys2Proof.Machine
end

