-- ==== Sys2Proof/Syntax.lean ====
section
/-! DEFINITION. The commands: one constructor per row of spec/opcode_table.json (30_encoding.md R93). An argument
is the number that stands in its field of the command word (R94): a bank, a length, a point index, a slot. -/

namespace Sys2Proof

/-- The 23 commands, in the table's order. -/
inductive Instr where
  | nop
  | clrerr
  | fadd
  | fsub
  | fmul
  | fdiv
  | fpow
  | finv
  | feq
  | pnew (bank len : Nat)
  | peval (bank : Nat)
  | peq
  | lag0 (i top : Nat)
  | pinterp (bank : Nat)
  | blkbuild
  | encode
  | distribute
  | blkinterp
  | cheat
  | decode
  | recover
  | embed (slot : Nat)
  | extract (slot : Nat)
deriving DecidableEq, Repr

end Sys2Proof
end

