-- ==== Sys2Proof/Machine/Dispatch.lean ====
section
/-! DEFINITION. The dispatch of the 23 commands: one arm a constructor, each one call of its meaning. -/

namespace Sys2Proof.Machine

def exec (i : Instr) (s : State) : Host.Outcome State Fault Refusal :=
  match i with
  | .nop => Sys2Proof.Machine.execNop s
  | .clrerr => Sys2Proof.Machine.execClrerr s
  | .fadd => Sys2Proof.Machine.execFadd s
  | .fsub => Sys2Proof.Machine.execFsub s
  | .fmul => Sys2Proof.Machine.execFmul s
  | .fdiv => Sys2Proof.Machine.execFdiv s
  | .fpow => Sys2Proof.Machine.execFpow s
  | .finv => Sys2Proof.Machine.execFinv s
  | .feq => Sys2Proof.Machine.execFeq s
  | .pnew bank len => Sys2Proof.Machine.execPnew bank len s
  | .peval bank => Sys2Proof.Machine.execPeval bank s
  | .peq => Sys2Proof.Machine.execPeq s
  | .lag0 j top => Sys2Proof.Machine.execLag0 j top s
  | .pinterp bank => Sys2Proof.Machine.execPinterp bank s
  | .blkbuild => Sys2Proof.Machine.execBlkbuild s
  | .encode => Sys2Proof.Machine.execEncode s
  | .distribute => Sys2Proof.Machine.execDistribute s
  | .blkinterp => Sys2Proof.Machine.execBlkinterp s
  | .cheat => Sys2Proof.Machine.execCheat s
  | .decode => Sys2Proof.Machine.execDecode s
  | .recover => Sys2Proof.Machine.execRecover s
  | .embed slot => Sys2Proof.Machine.execEmbed slot s
  | .extract slot => Sys2Proof.Machine.execExtract slot s

end Sys2Proof.Machine
end

