-- ==== Sys2Proof/WellFormed.lean ====
section
/-! DEFINITION. When a command can stand in a command word: each argument it uses fits its 8-bit field
(30_encoding.md R90, R94). An argument out of the range its command accepts is still well formed: the command is
decoded and raises `V_ARG` (R94). -/

namespace Sys2Proof

/-- An argument field holds an unsigned 8-bit number (R90). -/
def argFits (a : Nat) : Bool := a < 256

/-- Every argument fits its field. -/
def Instr.wellFormed : Instr → Bool
  | .nop => true
  | .clrerr => true
  | .fadd => true
  | .fsub => true
  | .fmul => true
  | .fdiv => true
  | .fpow => true
  | .finv => true
  | .feq => true
  | .pnew bank len => argFits bank && argFits len
  | .peval bank => argFits bank
  | .peq => true
  | .lag0 i top => argFits i && argFits top
  | .pinterp bank => argFits bank
  | .blkbuild => true
  | .encode => true
  | .distribute => true
  | .blkinterp => true
  | .cheat => true
  | .decode => true
  | .recover => true
  | .embed slot => argFits slot
  | .extract slot => argFits slot

end Sys2Proof
end

