-- ==== Sys2Proof/Decode.lean ====
section
/-! DEFINITION. The command word (30_encoding.md R90 to R96): its fields, the decoder, and after it the encoder.
The decoder is total: every 32-bit word is a command or is rejected by the name of what is wrong with it. -/

namespace Sys2Proof

/-- The three formats, which say which argument fields a command uses (R91). -/
inductive Format where
  | Z
  | S
  | T
deriving DecidableEq, Repr

/-- Format S and T use `a0` (R91). -/
def Format.usesA0 : Format → Bool
  | .Z => false
  | .S => true
  | .T => true

/-- Only format T uses `a1` (R91). -/
def Format.usesA1 : Format → Bool
  | .Z => false
  | .S => false
  | .T => true

/-- Why a word is no command (R92, R95). Each of them makes the command raise `IllegalCommand`. -/
inductive DecodeError where
  /-- `op` is one of the 233 unused opcodes. -/
  | unusedOpcode
  /-- A field the format does not use, `a0` or `a1`, is not zero. -/
  | unusedArgument
  /-- The reserved field `rsv` is not zero. -/
  | reservedBits
deriving DecidableEq, Repr

/-- Field `op`, bits 7..0 (R90). -/
def opField (w : Word) : Nat := (w.extractLsb' 0 8).toNat

/-- Field `a0`, bits 15..8 (R90). -/
def a0Field (w : Word) : Nat := (w.extractLsb' 8 8).toNat

/-- Field `a1`, bits 23..16 (R90). -/
def a1Field (w : Word) : Nat := (w.extractLsb' 16 8).toNat

/-- Field `rsv`, bits 31..24 (R90). -/
def rsvField (w : Word) : Nat := (w.extractLsb' 24 8).toNat

/-- The opcode map (R93): the format of an opcode, and its command with the arguments `a0`, `a1`. -/
def opcodeRow (op a0 a1 : Nat) : Option (Format × Instr) :=
  match op with
  | 0x00 => some (.Z, .nop)
  | 0x01 => some (.Z, .clrerr)
  | 0x10 => some (.Z, .fadd)
  | 0x11 => some (.Z, .fsub)
  | 0x12 => some (.Z, .fmul)
  | 0x13 => some (.Z, .fdiv)
  | 0x14 => some (.Z, .fpow)
  | 0x15 => some (.Z, .finv)
  | 0x16 => some (.Z, .feq)
  | 0x20 => some (.T, .pnew a0 a1)
  | 0x21 => some (.S, .peval a0)
  | 0x22 => some (.Z, .peq)
  | 0x23 => some (.T, .lag0 a0 a1)
  | 0x24 => some (.S, .pinterp a0)
  | 0x30 => some (.Z, .blkbuild)
  | 0x31 => some (.Z, .encode)
  | 0x32 => some (.Z, .distribute)
  | 0x40 => some (.Z, .blkinterp)
  | 0x41 => some (.Z, .cheat)
  | 0x42 => some (.Z, .decode)
  | 0x43 => some (.Z, .recover)
  | 0x50 => some (.S, .embed a0)
  | 0x51 => some (.S, .extract a0)
  | _ => none

/-- Decoding, in the order of R92: the opcode, then the fields the format does not use and `rsv`. -/
def decode (w : Word) : Except DecodeError Instr :=
  match opcodeRow (opField w) (a0Field w) (a1Field w) with
  | none => .error .unusedOpcode
  | some (fmt, i) =>
    if (!fmt.usesA0 && a0Field w != 0) || (!fmt.usesA1 && a1Field w != 0) then .error .unusedArgument
    else if rsvField w != 0 then .error .reservedBits
    else .ok i

/-- The command a table row's word stands for: bit 0 is the least significant, and every bit from `nbits` up is
zero. A command is one 32-bit word (R96), which the host writes whole, so no byte order enters (R73). -/
def decodeTableWord (nbits w : Nat) : Option Instr :=
  match decode (BitVec.ofNat 32 (w % 2 ^ nbits)) with
  | .ok i => some i
  | .error _ => none

/-- The opcode of a command (R93). -/
def opcodeOf : Instr → Nat
  | .nop => 0x00
  | .clrerr => 0x01
  | .fadd => 0x10
  | .fsub => 0x11
  | .fmul => 0x12
  | .fdiv => 0x13
  | .fpow => 0x14
  | .finv => 0x15
  | .feq => 0x16
  | .pnew _ _ => 0x20
  | .peval _ => 0x21
  | .peq => 0x22
  | .lag0 _ _ => 0x23
  | .pinterp _ => 0x24
  | .blkbuild => 0x30
  | .encode => 0x31
  | .distribute => 0x32
  | .blkinterp => 0x40
  | .cheat => 0x41
  | .decode => 0x42
  | .recover => 0x43
  | .embed _ => 0x50
  | .extract _ => 0x51

/-- The format of a command (R93). -/
def formatOf : Instr → Format
  | .nop => .Z
  | .clrerr => .Z
  | .fadd => .Z
  | .fsub => .Z
  | .fmul => .Z
  | .fdiv => .Z
  | .fpow => .Z
  | .finv => .Z
  | .feq => .Z
  | .pnew _ _ => .T
  | .peval _ => .S
  | .peq => .Z
  | .lag0 _ _ => .T
  | .pinterp _ => .S
  | .blkbuild => .Z
  | .encode => .Z
  | .distribute => .Z
  | .blkinterp => .Z
  | .cheat => .Z
  | .decode => .Z
  | .recover => .Z
  | .embed _ => .S
  | .extract _ => .S

/-- The arguments `(a0, a1)` of a command, zero where its format uses none (R91, R93). -/
def argsOf : Instr → Nat × Nat
  | .nop => (0, 0)
  | .clrerr => (0, 0)
  | .fadd => (0, 0)
  | .fsub => (0, 0)
  | .fmul => (0, 0)
  | .fdiv => (0, 0)
  | .fpow => (0, 0)
  | .finv => (0, 0)
  | .feq => (0, 0)
  | .pnew bank len => (bank, len)
  | .peval bank => (bank, 0)
  | .peq => (0, 0)
  | .lag0 i top => (i, top)
  | .pinterp bank => (bank, 0)
  | .blkbuild => (0, 0)
  | .encode => (0, 0)
  | .distribute => (0, 0)
  | .blkinterp => (0, 0)
  | .cheat => (0, 0)
  | .decode => (0, 0)
  | .recover => (0, 0)
  | .embed slot => (slot, 0)
  | .extract slot => (slot, 0)

/-- `w = op | (a0 << 8) | (a1 << 16)` (R90). -/
def commandWord (op a0 a1 : Nat) : Word :=
  BitVec.ofNat 32 op ||| (BitVec.ofNat 32 a0 <<< 8) ||| (BitVec.ofNat 32 a1 <<< 16)

/-- The command word of a command. -/
def encode (i : Instr) : Word := commandWord (opcodeOf i) (argsOf i).1 (argsOf i).2

/-- The mask of the fixed bits of a format (R91). -/
def Format.mask : Format → Word
  | .Z => 0xFFFFFFFF#32
  | .S => 0xFFFF00FF#32
  | .T => 0xFF0000FF#32

end Sys2Proof
end

