-- ==== Sys2Proof/Machine/HostPort.lean ====
section
/-! DEFINITION. The host port (20_memory.md R60, R61): the register map (10_state.md R23) for reads and writes, the
memory window (R41 to R43, R62 to R64), the slot window (R44), and the taking of the next event of the environment:
a transaction, a command word to decode (R25, R92), or the reset event (R300). -/

namespace Sys2Proof.Machine

/-- `VERSION` reads 0x00FB0001, a constant (R24). -/
def versionWord : Word := 0x00FB0001#32

/-- The index of `CMD` (R23). -/
def cmdIndex : Nat := 0x01

/-- The index of `MDATA` (R23). -/
def mdataIndex : Nat := 0x1A

/-- `i` is one of the eight indices from `base` on. -/
def inGroup (base i : Nat) : Bool := base ≤ i && i < base + 8

/-! ## The memory window -/

/-- `MSEL.SPACE`; 3 selects no memory (R41). -/
def State.windowSpace (s : State) : Option Space :=
  match (s.msel.extractLsb' 0 2).toNat with
  | 0 => some .secret
  | 1 => some .shadow
  | 2 => some .cover
  | _ => none

/-- `MSEL.SLOT` (R41). -/
def State.windowSlot (s : State) : Nat := (s.msel.extractLsb' 8 8).toNat

/-- The location the window stands on, if it exists: its space, slot and index (R62, R64). `SLOT` does not count for
space SECRET (R41), as `inRange` and `cellKey` have it. -/
def State.windowLoc (s : State) : Option (Space × Nat × Nat) :=
  match s.windowSpace with
  | none => none
  | some sp => if inRange s.params sp s.windowSlot s.maddr.toNat then some (sp, s.windowSlot, s.maddr.toNat) else none

/-- `MADDR` counts on, modulo `2^32` (R42). -/
def State.bumpMaddr (s : State) : State := { s with maddr := s.maddr + 1#32 }

/-- What a read of `MDATA` returns: the byte under the window, or 0 where there is none (R43, R64). -/
def State.windowByte (s : State) : Byte :=
  match s.windowLoc with
  | some (sp, slot, i) => s.byteAt sp slot i
  | none => 0#8

/-- A write of `MDATA`: one byte stored, or nothing where the location does not exist; then `MADDR` counts on
(R43, R64). -/
def State.windowWrite (s : State) (w : Word) : State :=
  match s.windowLoc with
  | some (sp, slot, i) => (s.storeByte sp slot i (w.setWidth 8)).bumpMaddr
  | none => s.bumpMaddr

/-! ## Reading registers -/

/-- An 8-bit register zero-extended (R8). -/
def byteWord (v : Byte) : Word := v.setWidth 32

/-- A field-element register zero-extended (R8). -/
def feWord (v : FE) : Word := BitVec.ofNat 32 v.val

/-- The registers of slot `MSEL.SLOT`, or zeros where there is no such slot (R44). -/
def State.windowSlotRegs (s : State) : Slot :=
  if s.windowSlot < s.params.nMax.val then s.slotRegs s.windowSlot else Slot.zero

/-- The word register `i` reads as, 0 for an unmapped index (R23, R49, R61). -/
def State.readReg (s : State) (i : Nat) : Word :=
  if inGroup 0x20 i then byteWord (s.sel.toList.getD (i - 0x20) 0#8)
  else if inGroup 0x30 i then feWord (elem s.x.toList (i - 0x30))
  else if inGroup 0x38 i then feWord (elem s.y.toList (i - 0x38))
  else if inGroup 0x40 i then feWord (elem s.p0.c.toList (i - 0x40))
  else if inGroup 0x50 i then feWord (elem s.p1.c.toList (i - 0x50))
  else
    match i with
    | 0x00 => versionWord
    | 0x01 => s.cmd
    | 0x02 => s.err.setWidth 32
    | 0x03 => s.esticky.setWidth 32
    | 0x04 => s.einfo
    | 0x05 => s.flagsWord
    | 0x08 => feWord s.a
    | 0x09 => feWord s.b
    | 0x0A => s.e
    | 0x0B => feWord s.r
    | 0x10 => byteWord s.k
    | 0x11 => byteWord s.n
    | 0x12 => s.npix
    | 0x13 => s.blk
    | 0x14 => s.outw.setWidth 32
    | 0x15 => s.outh.setWidth 32
    | 0x18 => s.msel.setWidth 32
    | 0x19 => s.maddr
    | 0x1A => byteWord s.windowByte
    | 0x1B => byteWord s.windowSlotRegs.cid
    | 0x1C => s.windowSlotRegs.cw.setWidth 32
    | 0x1D => s.windowSlotRegs.ch.setWidth 32
    | 0x28 => byteWord s.npts
    | 0x48 => s.p0.len.setWidth 32
    | 0x58 => s.p1.len.setWidth 32
    | _ => 0#32

/-- `HostRead(i)`: the word returned stands in `rdata`; only `MDATA` has a side effect (R61). -/
def State.hostRead (s : State) (i : Nat) : State :=
  if i = mdataIndex then { s.bumpMaddr with rdata := s.readReg i } else { s with rdata := s.readReg i }

/-! ## Writing registers -/

/-- `MSEL` stores bits 1..0 and 15..8 of the word and no other (R41). -/
def mselOf (w : Word) : BitVec 16 := w.setWidth 16 &&& 0xFF03#16

/-- A host write to coefficient `j` of a bank: stored when `j < LEN`, ignored otherwise (R40). -/
def Bank.writeCoeff (p : Bank) (j : Nat) (v : FE) : Bank :=
  if j < p.len.toNat then { p with c := p.c.setIfInBounds j v } else p

/-- A host write to the registers of slot `MSEL.SLOT`, ignored where there is no such slot (R44). -/
def State.writeSlot (s : State) (f : Slot → Slot) : State :=
  if s.windowSlot < s.params.nMax.val then s.updateSlot s.windowSlot f else s

/-- A host write of `w` to register `i`, for every register but `CMD` (R23, R60). A read-only register and an unmapped
index ignore it (R49). -/
def State.writeReg (s : State) (i : Nat) (w : Word) : State :=
  if inGroup 0x20 i then { s with sel := s.sel.setIfInBounds (i - 0x20) (w.setWidth 8) }
  else if inGroup 0x30 i then { s with x := s.x.setIfInBounds (i - 0x30) (normWord w) }
  else if inGroup 0x38 i then { s with y := s.y.setIfInBounds (i - 0x38) (normWord w) }
  else if inGroup 0x40 i then s.withP0 (s.p0.writeCoeff (i - 0x40) (normWord w))
  else if inGroup 0x50 i then s.withP1 (s.p1.writeCoeff (i - 0x50) (normWord w))
  else
    match i with
    | 0x08 => { s with a := normWord w }
    | 0x09 => { s with b := normWord w }
    | 0x0A => { s with e := w }
    | 0x10 => { s with k := w.setWidth 8 }
    | 0x11 => { s with n := w.setWidth 8 }
    | 0x12 => { s with npix := w }
    | 0x13 => { s with blk := w }
    | 0x18 => { s with msel := mselOf w }
    | 0x19 => { s with maddr := w }
    | 0x1A => s.windowWrite w
    | 0x1B => s.writeSlot fun t => { t with cid := w.setWidth 8 }
    | 0x1C => s.writeSlot fun t => { t with cw := w.setWidth 16 }
    | 0x1D => s.writeSlot fun t => { t with ch := w.setWidth 16 }
    | 0x28 => { s with npts := w.setWidth 8 }
    | _ => s

/-! ## The next event -/

/-- What the next event asks for: a state that stands already, or a command to execute in a state. -/
inductive Request where
  | done (t : State)
  | command (i : Instr) (t : State)
deriving DecidableEq, Repr

/-- A write of `CMD`: the word is stored, then decoded; a word that is no command raises `IllegalCommand` with the
word in `EINFO` (R25, R92). -/
def State.issue (s : State) (w : Word) : Request :=
  match decode w with
  | .ok i => .command i { s with cmd := w }
  | .error _ => .done ({ s with cmd := w }.raise (.illegalCommand w))

/-- Takes the oldest pending event (R69). With none pending the core is idle and holds all state (R295). -/
def State.request (s : State) : Request :=
  match s.pending with
  | [] => .done s
  | .reset :: rest => .done { s with pending := rest }.resetEvent
  | .read idx :: rest => .done ({ s with pending := rest }.hostRead idx.toNat)
  | .write idx w :: rest =>
    if idx.toNat = cmdIndex then { s with pending := rest }.issue w
    else .done ({ s with pending := rest }.writeReg idx.toNat w)

end Sys2Proof.Machine
end

