-- ==== Sys2Proof/Machine/Step.lean ====
section
/-! DEFINITION. One step: the next event of the environment, taken whole (20_memory.md R66, R69). A write of `CMD`
executes its command to completion within the step (10_state.md R25). -/

namespace Sys2Proof.Machine

/-- One step of the machine. -/
def step (s : State) : Host.Outcome State Fault Refusal :=
  match s.request with
  | .done t => .next t
  | .command i t => exec i t

/-- The state whose very next step executes the command word `w`: the core fetches nothing (R22), so the word is put
first among the events of the host, as a write of `CMD` (notes/assumptions/5.md). -/
def State.withFetchWord (s : State) (nbits w : Nat) : State :=
  { s with pending := .write (BitVec.ofNat 8 cmdIndex) (BitVec.ofNat 32 (w % 2 ^ nbits)) :: s.pending }

end Sys2Proof.Machine
end

