-- ==== Sys2Proof/Safety.lean ====
section
/-! DEFINITION. The terms the claims are stated in: the invariants of the state, the conditions under which a command
runs as the spec's numbers, what a polynomial, a shadow byte and a recovered plane are worth as numbers, and running
several commands in turn. -/

namespace Sys2Proof.Machine

/-! ## Invariants -/

/-- A bank is as R40 says: `1 <= LEN <= 8`, and every coefficient register from `LEN` on holds 0. -/
abbrev Bank.wf (p : Bank) : Prop :=
  1 ≤ p.len.toNat ∧ p.len.toNat ≤ 8 ∧ ∀ i < 8, p.len.toNat ≤ i → elem p.c.toList i = 0

/-- The invariant of the state: the memory is canonical, there is one slot for each of `N_MAX` (R44), the banks are as
R40 says, `ERR` holds a code up to 4 (R26), `ESTICKY` bit 0 is 0 and the bit of the code in `ERR` is set (R27), and the
bits of `MSEL` that are no field are 0 (R41). -/
abbrev State.inv (s : State) : Prop :=
  s.mem.wf ∧ s.slots.length = s.params.nMax.val ∧ s.p0.wf ∧ s.p1.wf ∧ s.err.toNat ≤ 4 ∧
    s.esticky.getLsbD 0 = false ∧ (s.err ≠ 0#3 → s.esticky.getLsbD s.err.toNat = true) ∧ s.msel &&& 0x00FC#16 = 0#16

/-- Every byte listed in the memory is at a location that exists (R63). -/
def State.memInRange (s : State) : Prop :=
  ∀ p ∈ s.mem, ∃ sp slot i, inRange s.params sp slot i = true ∧ p.1 = cellKey sp slot i

/-- The number of a space in `MSEL.SPACE` (R41). -/
def Space.code : Space → Nat
  | .secret => 0
  | .shadow => 1
  | .cover => 2

/-! ## Outcomes -/

/-- What `raise ValidationError(code)` leaves (R262, R264). -/
def State.validationError (s : State) (code : Nat) : State :=
  { s with err := 1#3, esticky := s.esticky ||| 2#5, einfo := BitVec.ofNat 32 code }

/-- What `raise DivisionByZero(info)` leaves (R262). -/
def State.divisionByZero (s : State) (info : Nat) : State :=
  { s with err := 2#3, esticky := s.esticky ||| 4#5, einfo := BitVec.ofNat 32 info }

/-- What `raise CheatingDetected(info)` leaves (R262). -/
def State.cheatingDetected (s : State) (info : Nat) : State :=
  { s with err := 3#3, esticky := s.esticky ||| 8#5, einfo := BitVec.ofNat 32 info }

/-- How many draws a command takes when it ends with outcome 0 (R45). -/
def drawsTaken (i : Instr) (s : State) : Nat :=
  match i with
  | .blkbuild => 1
  | .encode => s.numBlocks
  | .distribute => s.numBlocks
  | .nop => 0
  | .clrerr => 0
  | .fadd => 0
  | .fsub => 0
  | .fmul => 0
  | .fdiv => 0
  | .fpow => 0
  | .finv => 0
  | .feq => 0
  | .pnew _ _ => 0
  | .peval _ => 0
  | .peq => 0
  | .lag0 _ _ => 0
  | .pinterp _ => 0
  | .blkinterp => 0
  | .cheat => 0
  | .decode => 0
  | .recover => 0
  | .embed _ => 0
  | .extract _ => 0

/-- Commands executed one after the other. -/
def execAll : List Instr → State → Host.Outcome State Fault Refusal
  | [], s => .next s
  | i :: rest, s =>
    match exec i s with
    | .next t => execAll rest t
    | .fault r => .fault r
    | .refused r => .refused r

/-! ## The conditions of the checks, as numbers -/

/-- `3 <= K <= 8` (R171). -/
def State.kOk (s : State) : Prop := 3 ≤ s.k.toNat ∧ s.k.toNat ≤ 8

/-- `NPIX <= SECRET_DEPTH` (R171). -/
def State.sizeOk (s : State) : Prop := s.npix.toNat ≤ s.params.secretDepth.val

/-- `NPIX mod (2K-2) = 0` (R171). -/
def State.divOk (s : State) : Prop := s.npix.toNat % (2 * s.k.toNat - 2) = 0

/-- `check_scheme()` passes (R171). -/
def State.schemeOk (s : State) : Prop := s.kOk ∧ s.sizeOk ∧ s.divOk

/-- `K <= N <= N_MAX` (R172). -/
def State.participantsOk (s : State) : Prop := s.k.toNat ≤ s.n.toNat ∧ s.n.toNat ≤ s.params.nMax.val

/-- Every selected slot is a loaded one (R201). -/
def State.selLoaded (s : State) : Prop := ∀ i < s.k.toNat, s.selAt i < s.n.toNat

/-- Every selected cover has the dimensions of the first (R201). -/
def State.dimsAgree (s : State) : Prop :=
  ∀ i < s.k.toNat, (s.slotRegs (s.selAt i)).cw = (s.slotRegs (s.selAt 0)).cw ∧
    (s.slotRegs (s.selAt i)).ch = (s.slotRegs (s.selAt 0)).ch

/-- `check_selection()` passes (R201). -/
def State.selectionOk (s : State) : Prop := s.participantsOk ∧ s.selLoaded ∧ s.dimsAgree

/-- The number of blocks, `NPIX / (2K-2)` (R5). -/
def State.blocks (s : State) : Nat := s.npix.toNat / (2 * s.k.toNat - 2)

/-- The shadow length, `NPIX / (K-1)` (R5, R176). -/
def State.shadowBytes (s : State) : Nat := s.npix.toNat / (s.k.toNat - 1)

/-- The bits of a cover pixel that carry a shadow: 4 for `k < 5`, 2 for `k >= 5` (R230). -/
def State.bitsPerPixel (s : State) : Nat := if s.k.toNat < 5 then 4 else 2

/-- The cover pixels that carry one shadow byte (R230). -/
def State.pixelsPerByte (s : State) : Nat := if s.k.toNat < 5 then 2 else 4

/-- `check_capacity(slot)` passes (R232). -/
def State.capacityOk (s : State) (slot : Nat) : Prop :=
  (s.slotRegs slot).cw.toNat * (s.slotRegs slot).ch.toNat ≤ s.params.coverDepth.val ∧
    s.shadowBytes * s.pixelsPerByte ≤ (s.slotRegs slot).cw.toNat * (s.slotRegs slot).ch.toNat

/-! ## Values -/

/-- The value of a polynomial at `x` as the power sum of R141, `sum(coefficient[i] * x^(degree-i))`, modulo 251. -/
def powerSum (cs : List FE) (x : Nat) : Nat :=
  ((List.range cs.length).map fun i => (elem cs i).val * x ^ (cs.length - 1 - i)).sum % 251

/-- A bank holds a polynomial: the length, the coefficients in order, and 0 beyond them (R40). -/
def Bank.holds (p : Bank) (cs : List FE) : Prop :=
  p.len.toNat = cs.length ∧ ∀ i < 8, elem p.c.toList i = elem cs i

/-- The abscissae of interpolation are accepted: pairwise distinct, and nonzero except possibly the last (R145). -/
def abscissaeOk (k : Nat) (x : Nat → Nat) : Prop :=
  (∀ i < k, ∀ j < k, j ≠ i → x j ≠ x i) ∧ ∀ i, i + 1 < k → x i ≠ 0

/-- The abscissa of share `i`: the identifier of the selected slot, modulo 251 (R202). -/
def State.shareId (s : State) (i : Nat) : Nat := (s.slotRegs (s.selAt i)).cid.toNat % 251

/-- Byte `q` of the shadow that share `i` has in its SHADOW memory. -/
def State.storedByte (s : State) (i q : Nat) : Nat := (s.byteAt .shadow (s.selAt i) q).toNat

/-- Byte `q` of the shadow that the cover of a slot carries: the groups of its pixels, the first one highest (R234). -/
def State.carriedByte (s : State) (slot q : Nat) : Nat :=
  ((List.range s.pixelsPerByte).map fun t =>
    (s.byteAt .cover slot (q * s.pixelsPerByte + t)).toNat % 2 ^ s.bitsPerPixel *
      2 ^ (8 - s.bitsPerPixel * (t + 1))).sum

/-- The polynomial `f` passes through the `k` shares whose ordinates are `y` (R202). -/
def State.passes (s : State) (f : List FE) (y : Nat → Nat) : Prop :=
  f.length = s.k.toNat ∧ ∀ i < s.k.toNat, powerSum f (s.shareId i) = y i % 251

/-- A blinding value satisfies both equations of the cheating check (R204). -/
def blinds (f g : List FE) (r : Nat) : Prop :=
  (r * (elem f 0).val + (elem g 0).val) % 251 = 0 ∧ (r * (elem f 1).val + (elem g 1).val) % 251 = 0

/-- Block `b` of shares given byte by byte is that of the polynomials `f`, `g` (R202). -/
def State.blockIs (s : State) (share : Nat → Nat → Nat) (b : Nat) (f g : List FE) : Prop :=
  s.passes f (fun i => share i (2 * b)) ∧ s.passes g (fun i => share i (2 * b + 1))

/-- Pixel `u` of a block reassembled from `f` and `g` (R206). -/
def reassembled (k : Nat) (f g : List FE) (u : Nat) : FE := if u < k then elem f u else elem g (u - k + 2)

/-- What distribution and recovery make of pixel `a` of the plane: its value modulo 251, a 0 in the first two positions
of a block having become 1 (R184). -/
def State.sharedPixel (s : State) (a : Nat) : Nat :=
  if (s.byteAt .secret 0 a).toNat % 251 = 0 ∧ a % (2 * s.k.toNat - 2) < 2 then 1
  else (s.byteAt .secret 0 a).toNat % 251

end Sys2Proof.Machine
end

