-- ==== Sys2Proof/Certificates/Slice0/Obligations.lean ====
section
/-! DEFINITION. The statements for the provers. Each follows numbered rules of spec/, named in its docstring; where a
clause is the model's own choice the docstring names the log entry. -/

section

open Sys2Proof Sys2Proof.Machine

/-! ## Command words -/

/-- DECODE AND ENCODE AGREE, for every well-formed command with every argument its encoding admits (R90, R91, R93,
R94). -/
def Obligations.EncodeThenDecodeGivesTheCommand : Prop :=
  ∀ i : Instr, i.wellFormed = true → decode (encode i) = .ok i

/-- The other direction: a word that decodes is the encoding of the command it decodes to, so no two words mean one
command and no bit of a word is dropped (R90 to R93). -/
def Obligations.DecodedWordIsItsEncoding : Prop :=
  ∀ (w : Word) (i : Instr), decode w = .ok i → i.wellFormed = true ∧ encode i = w

/-- The rows of the opcode map (R93) as `match`, `mask`, and the command with its arguments `a0`, `a1`. -/
def Sys2Proof.opcodeMapRows : List (Word × Word × (Nat → Nat → Instr)) :=
  [(0x00000000#32, 0xFFFFFFFF#32, fun _ _ => .nop), (0x00000001#32, 0xFFFFFFFF#32, fun _ _ => .clrerr)] ++
  [(0x00000010#32, 0xFFFFFFFF#32, fun _ _ => .fadd), (0x00000011#32, 0xFFFFFFFF#32, fun _ _ => .fsub),
   (0x00000012#32, 0xFFFFFFFF#32, fun _ _ => .fmul), (0x00000013#32, 0xFFFFFFFF#32, fun _ _ => .fdiv),
   (0x00000014#32, 0xFFFFFFFF#32, fun _ _ => .fpow), (0x00000015#32, 0xFFFFFFFF#32, fun _ _ => .finv),
   (0x00000016#32, 0xFFFFFFFF#32, fun _ _ => .feq)] ++
  [(0x00000020#32, 0xFF0000FF#32, fun a0 a1 => .pnew a0 a1), (0x00000021#32, 0xFFFF00FF#32, fun a0 _ => .peval a0),
   (0x00000022#32, 0xFFFFFFFF#32, fun _ _ => .peq), (0x00000023#32, 0xFF0000FF#32, fun a0 a1 => .lag0 a0 a1),
   (0x00000024#32, 0xFFFF00FF#32, fun a0 _ => .pinterp a0)] ++
  [(0x00000030#32, 0xFFFFFFFF#32, fun _ _ => .blkbuild), (0x00000031#32, 0xFFFFFFFF#32, fun _ _ => .encode),
   (0x00000032#32, 0xFFFFFFFF#32, fun _ _ => .distribute)] ++
  [(0x00000040#32, 0xFFFFFFFF#32, fun _ _ => .blkinterp), (0x00000041#32, 0xFFFFFFFF#32, fun _ _ => .cheat),
   (0x00000042#32, 0xFFFFFFFF#32, fun _ _ => .decode), (0x00000043#32, 0xFFFFFFFF#32, fun _ _ => .recover)] ++
  [(0x00000050#32, 0xFFFF00FF#32, fun a0 _ => .embed a0), (0x00000051#32, 0xFFFF00FF#32, fun a0 _ => .extract a0)]

/-- Decoding is total: a word that matches a row of the opcode map decodes to that row's command, it matches no other
row, and a word that matches no row is illegal: written to `CMD` it raises `IllegalCommand` with the word (R92). -/
def Obligations.WordSelectsOneTableRowOrIsIllegal : Prop :=
  (∀ (w : Word), ∀ row ∈ opcodeMapRows, w &&& row.2.1 = row.1 →
    decode w = .ok (row.2.2 (w.toNat / 2 ^ 8 % 256) (w.toNat / 2 ^ 16 % 256)) ∧
      ∀ row' ∈ opcodeMapRows, w &&& row'.2.1 = row'.1 → row'.1 = row.1) ∧
  (∀ (w : Word), (∀ row ∈ opcodeMapRows, w &&& row.2.1 ≠ row.1) →
    (∃ e, decode w = .error e) ∧
      ∀ (s : State) (rest : List HostOp), s.pending = .write 0x01#8 w :: rest →
        step s = .next { s with pending := rest, cmd := w, err := 4#3, esticky := s.esticky ||| 16#5, einfo := w })

/-- The illegal words, as R95 lists them: an unused opcode, nonzero reserved bits, a nonzero argument field that the
opcode's format does not use. Written to `CMD`, each changes nothing but `CMD`, `ERR`, `ESTICKY`, `EINFO`. -/
def Obligations.IllegalWordChangesOnlyTheErrorRecord : Prop :=
  ∀ (s : State) (w : Word) (rest : List HostOp), s.pending = .write 0x01#8 w :: rest →
    ((let op := w.toNat % 256
      (0x02 ≤ op ∧ op ≤ 0x0F) ∨ (0x17 ≤ op ∧ op ≤ 0x1F) ∨ (0x25 ≤ op ∧ op ≤ 0x2F) ∨ (0x33 ≤ op ∧ op ≤ 0x3F) ∨
        (0x44 ≤ op ∧ op ≤ 0x4F) ∨ 0x52 ≤ op) ∨
      w.toNat / 2 ^ 24 ≠ 0 ∨
      (w.toNat % 256 ∉ [0x20, 0x21, 0x23, 0x24, 0x50, 0x51] ∧ w.toNat / 2 ^ 8 % 256 ≠ 0) ∨
      (w.toNat % 256 ∉ [0x20, 0x23] ∧ w.toNat / 2 ^ 16 % 256 ≠ 0)) →
    step s = .next { s with pending := rest, cmd := w, err := 4#3, esticky := s.esticky ||| 16#5, einfo := w }

/-- A few words of the spec's own encoding, read bit by bit (R93; the words of 95_test_vectors.md 2.7). -/
def Obligations.SampleCommandWordsDecode : Prop :=
  decode 0x00000000#32 = .ok .nop ∧ decode 0x00000013#32 = .ok .fdiv ∧ decode 0x00030020#32 = .ok (.pnew 0 3) ∧
    decode 0x00000221#32 = .ok (.peval 2) ∧ decode 0x00030123#32 = .ok (.lag0 1 3) ∧
    decode 0x00000032#32 = .ok .distribute ∧ decode 0x00000043#32 = .ok .recover ∧
    decode 0x00000150#32 = .ok (.embed 1)

/-- A STEP RUNS THE DECODED COMMAND: a host write of `CMD` stores the word and then executes the command it decodes to,
within the one step; a host read of `CMD` returns the last word written, which is 0 after reset, and executes nothing
(R25). The step takes the transaction from the list of pending events, and a read leaves its word in `rdata`:
notes/assumptions/2.md. -/
def Obligations.StepExecutesTheCommandWord : Prop :=
  (∀ (s : State) (w : Word) (rest : List HostOp) (i : Instr), s.pending = .write 0x01#8 w :: rest → decode w = .ok i →
    step s = exec i { s with pending := rest, cmd := w }) ∧
  (∀ (s : State) (rest : List HostOp), s.pending = .read 0x01#8 :: rest →
    step s = .next { s with pending := rest, rdata := s.cmd }) ∧
  State.reset.cmd = 0#32

/-! ## What every command does, and what none does -/

/-- `raise E(info)` has only its three effects: a command that ends with a nonzero outcome changes nothing but `ERR`,
the bit of `ESTICKY` with the number of the outcome, and `EINFO` (R262, R67). -/
def Obligations.FailedCommandWritesOnlyTheErrorRecord : Prop :=
  ∀ (i : Instr) (s t : State), exec i s = .next t → t.err ≠ 0#3 →
    t = { s with err := t.err, esticky := s.esticky ||| (1#5 <<< t.err.toNat), einfo := t.einfo } ∧
      t.err.toNat ≤ 3

/-- A command that ends with outcome 0 leaves `ESTICKY` and `EINFO` as they are, `CLRERR` apart (R27, R28). -/
def Obligations.SuccessfulCommandKeepsTheErrorRecord : Prop :=
  ∀ (i : Instr) (s t : State), exec i s = .next t → t.err = 0#3 → i ≠ .clrerr →
    t.esticky = s.esticky ∧ t.einfo = s.einfo

/-- The machine never stops: from every state, after every number of steps, there is a next state (R309). That every
draw is delivered is the model's assumption about the environment: notes/assumptions/3.md. -/
def Obligations.NoRunEverStops : Prop :=
  ∀ (n : Nat) (s : Sys2Proof.core.State), ∃ t, Sys2Proof.core.run n s = .next t

/-- No draw can cause an outcome: what a command leaves in `ERR`, `ESTICKY` and `EINFO` is the same whatever the draw
port delivers (R261). How the port shows the draws is the model's: notes/assumptions/3.md. -/
def Obligations.DrawsNeverDecideAnOutcome : Prop :=
  ∀ (i : Instr) (s t t' : State) (p : DrawPort), exec i s = .next t → exec i { s with drawPort := p } = .next t' →
    t'.err = t.err ∧ t'.esticky = t.esticky ∧ t'.einfo = t.einfo

/-- Draws are consumed only by `BLKBUILD` (one) and by `ENCODE` and `DISTRIBUTE` (one per block), and none by a command
that raises (R45, R262). How the port shows the draws is the model's: notes/assumptions/3.md. -/
def Obligations.DrawsAreTakenOnlyByTheEncoder : Prop :=
  ∀ (i : Instr) (s t : State), exec i s = .next t →
    t.drawPort = (DrawPort.drawMany (if t.err = 0#3 then drawsTaken i s else 0) s.drawPort).2

/-- The draw port: values queued in `[1, 250]` are delivered in their order, a byte outside that range is discarded
and the next one taken, and every draw is in `[1, 250]`, also where none is queued (R45). That unqueued draws are free
values is the model's: notes/assumptions/3.md. -/
def Obligations.DrawPortDeliversValidBytesInOrder : Prop :=
  (∀ (vs rest : List Byte) (taken : Nat), (∀ v ∈ vs, 1 ≤ v.toNat ∧ v.toNat ≤ 250) →
    (DrawPort.drawMany vs.length { queued := vs ++ rest, taken := taken }).1.map (fun r => r.val) =
        vs.map (fun v => v.toNat) ∧
      (DrawPort.drawMany vs.length { queued := vs ++ rest, taken := taken }).2 =
        { queued := rest, taken := taken + vs.length }) ∧
  (∀ (v : Byte) (rest : List Byte) (taken : Nat), v.toNat = 0 ∨ 250 < v.toNat →
    DrawPort.draw { queued := v :: rest, taken := taken } = DrawPort.draw { queued := rest, taken := taken }) ∧
  (∀ p : DrawPort, 1 ≤ p.draw.1.val ∧ p.draw.1.val ≤ 250)

/-- The registers that only the host writes: no command writes `A`, `B`, `E`, `K`, `N`, `NPIX`, `BLK`, `SEL`, `X`, `Y`,
`NPTS`, `MSEL`, `MADDR`, `CW` or `CH`, nor `CMD` after it is issued (R33, R35, R36, R38, R39, R44, R50); nor the
parameters, and nothing that waits at the host port, which the model holds as state: notes/assumptions/1.md, 2.md. -/
def Obligations.CommandsLeaveHostRegistersAlone : Prop :=
  ∀ (i : Instr) (s t : State), exec i s = .next t →
    (t.cmd = s.cmd ∧ t.a = s.a ∧ t.b = s.b ∧ t.e = s.e ∧ t.k = s.k ∧ t.n = s.n ∧ t.npix = s.npix ∧ t.blk = s.blk) ∧
    (t.sel = s.sel ∧ t.x = s.x ∧ t.y = s.y ∧ t.npts = s.npts ∧ t.msel = s.msel ∧ t.maddr = s.maddr) ∧
    (∀ slot, (t.slotRegs slot).cw = (s.slotRegs slot).cw ∧ (t.slotRegs slot).ch = (s.slotRegs slot).ch) ∧
    t.params = s.params ∧ t.pending = s.pending ∧ t.rdata = s.rdata ∧ t.epoch = s.epoch

/-! ## Invariants and reset -/

/-- The reset values of the registers, for every choice of the parameters (R300, R23). That no byte is listed, and what
stands at the ports, is the model's: notes/assumptions/2.md, 3.md, 4.md. -/
def Obligations.PowerUpRegistersHoldTheirResetValues : Prop :=
  ∀ p : Config.Params,
    let s := State.resetWith p
    (s.readReg 0x00 = 0x00FB0001#32 ∧ s.cmd = 0#32 ∧ s.err = 0#3 ∧ s.esticky = 0#5 ∧ s.einfo = 0#32 ∧
      s.flagEq = false) ∧
    (s.a = 0 ∧ s.b = 0 ∧ s.e = 0#32 ∧ s.r = 0 ∧ s.k = 0#8 ∧ s.n = 0#8 ∧ s.npix = 0#32 ∧ s.blk = 0#32 ∧
      s.outw = 0#16 ∧ s.outh = 0#16 ∧ s.msel = 0#16 ∧ s.maddr = 0#32 ∧ s.npts = 0#8) ∧
    (∀ i < 8, s.selAt i = i ∧ elem s.x.toList i = 0 ∧ elem s.y.toList i = 0 ∧
      elem s.p0.c.toList i = 0 ∧ elem s.p1.c.toList i = 0) ∧
    (s.p0.len = 1#4 ∧ s.p1.len = 1#4) ∧
    (s.slots.length = p.nMax.val ∧ ∀ i, (s.slotRegs i).cid = 0#8 ∧ (s.slotRegs i).cw = 0#16 ∧
      (s.slotRegs i).ch = 0#16)

/-- The invariant holds right after power-up, for every choice of the parameters, `State.reset` among them. The memory
that lists nothing, and the parameters of `State.reset`, are the model's: notes/assumptions/1.md, 4.md. -/
def Obligations.PowerUpSatisfiesTheInvariant : Prop :=
  (∀ p : Config.Params, (State.resetWith p).inv) ∧ State.reset.inv ∧ State.reset.memInRange

/-- AN INVARIANT THAT EVERY STEP KEEPS: canonical memory, one slot for each of `N_MAX`, banks as R40 says, a legal code
in `ERR` recorded in `ESTICKY` (R26, R27), and the unused bits of `MSEL` zero (R41). The
canonical form of the memory and the list of slots are the model's: notes/assumptions/4.md. -/
def Obligations.EveryStepKeepsTheInvariant : Prop :=
  ∀ s t : State, s.inv → step s = .next t → t.inv

/-- Every step, host write or command, stores only at locations that exist (R63, R65). That memory is a list of keys
is the model's: notes/assumptions/4.md. -/
def Obligations.EveryStepStoresOnlyAtExistingLocations : Prop :=
  ∀ s t : State, s.memInRange → step s = .next t → t.memInRange

/-- The reset event, in any state: every register at its value of R300, the parameters as they are, no memory byte
known any more (R301). What waits at the ports stays, and the count of resets goes up: notes/assumptions/4.md, 6.md. -/
def Obligations.ResetEventRestoresEveryRegister : Prop :=
  ∀ (s : State) (rest : List HostOp), s.pending = .reset :: rest →
    step s = .next { State.resetWith s.params with
      epoch := s.epoch + 1, drawPort := s.drawPort, pending := rest, rdata := s.rdata }

/-! ## System commands -/

/-- `NOP` changes nothing but `ERR`; `CLRERR` clears `ESTICKY`, `EINFO` and `ERR` (R250, R251). -/
def Obligations.NopAndClrerrTouchOnlyTheErrorRecord : Prop :=
  decode 0x00000000#32 = .ok .nop ∧ decode 0x00000001#32 = .ok .clrerr ∧
  (∀ s : State, exec .nop s = .next { s with err := 0#3 }) ∧
  (∀ s : State, exec .clrerr s = .next { s with err := 0#3, esticky := 0#5, einfo := 0#32 })

/-! ## Field commands -/

/-- `FADD`, `FSUB` and `FMUL`: the sum, the difference and the product of `A` and `B` modulo 251 go to `R`, and nothing
else changes but `ERR` (R114 to R116, R121 to R123). -/
def Obligations.FaddFsubFmulComputeModulo251 : Prop :=
  (decode 0x00000010#32 = .ok .fadd ∧ ∀ s : State, ∃ v : FE,
    v.val = (if s.a.val + s.b.val < 251 then s.a.val + s.b.val else s.a.val + s.b.val - 251) ∧
      v.val = (s.a.val + s.b.val) % 251 ∧ exec .fadd s = .next { s with r := v, err := 0#3 }) ∧
  (decode 0x00000011#32 = .ok .fsub ∧ ∀ s : State, ∃ v : FE,
    v.val = (if s.b.val ≤ s.a.val then s.a.val - s.b.val else s.a.val + 251 - s.b.val) ∧
      (v.val : Int) = ((s.a.val : Int) - s.b.val) % 251 ∧ exec .fsub s = .next { s with r := v, err := 0#3 }) ∧
  (decode 0x00000012#32 = .ok .fmul ∧ ∀ s : State, ∃ v : FE,
    v.val = (s.a.val * s.b.val) % 251 ∧ exec .fmul s = .next { s with r := v, err := 0#3 })

/-- `FDIV`: the dividend times the ROM's inverse of the divisor, which is the quotient, and `DivisionByZero(0)` exactly
when the divisor is 0, whatever the dividend (R124, R117). -/
def Obligations.FdivDividesOrRaises : Prop :=
  decode 0x00000013#32 = .ok .fdiv ∧
  (∀ s : State, s.b ≠ 0 → ∃ v : FE, v.val = (s.a.val * (romWord s.b.val).toNat) % 251 ∧
    (v.val * s.b.val) % 251 = s.a.val ∧ exec .fdiv s = .next { s with r := v, err := 0#3 }) ∧
  (∀ s : State, s.b = 0 →
    exec .fdiv s = .next { s with err := 2#3, esticky := s.esticky ||| 4#5, einfo := 0#32 })

/-- `FPOW`: the power with the 32-bit exponent as it is, 1 for the exponent 0 of any base (R125, R118); for a nonzero
base the exponent counts modulo 250. -/
def Obligations.FpowRaisesToThePower : Prop :=
  decode 0x00000014#32 = .ok .fpow ∧ ∀ s : State, ∃ v : FE,
    v.val = (s.a.val ^ s.e.toNat) % 251 ∧ (s.a ≠ 0 → v.val = (s.a.val ^ (s.e.toNat % 250)) % 251) ∧
      exec .fpow s = .next { s with r := v, err := 0#3 }

/-- `FINV`: the ROM word, which is the inverse, and `DivisionByZero(0)` exactly when `A = 0` (R126). -/
def Obligations.FinvInvertsOrRaises : Prop :=
  decode 0x00000015#32 = .ok .finv ∧
  (∀ s : State, s.a ≠ 0 → ∃ v : FE, v.val = (romWord s.a.val).toNat ∧ (v.val * s.a.val) % 251 = 1 ∧
    exec .finv s = .next { s with r := v, err := 0#3 }) ∧
  (∀ s : State, s.a = 0 →
    exec .finv s = .next { s with err := 2#3, esticky := s.esticky ||| 4#5, einfo := 0#32 })

/-- `FEQ` writes the flag and nothing else (R127, R119). -/
def Obligations.FeqComparesTheOperands : Prop :=
  decode 0x00000016#32 = .ok .feq ∧
    ∀ s : State, exec .feq s = .next { s with flagEq := decide (s.a.val = s.b.val), err := 0#3 }

/-- The inverse ROM: each word 1 to 250 is the one inverse of its address, words 0 and 251 to 255 hold 0 (R113). -/
def Obligations.InverseRomHoldsTheInverses : Prop :=
  (∀ a : Nat, 1 ≤ a → a ≤ 250 →
    1 ≤ (romWord a).toNat ∧ (romWord a).toNat ≤ 250 ∧ (a * (romWord a).toNat) % 251 = 1 ∧
      ∀ v : Nat, 1 ≤ v → v ≤ 250 → (a * v) % 251 = 1 → v = (romWord a).toNat) ∧
  romWord 0 = 0#8 ∧ ∀ a : Nat, 251 ≤ a → a ≤ 255 → romWord a = 0#8

/-- Normalisation is the Euclidean remainder and a ring homomorphism, on all integers (R110, R112). -/
def Obligations.NormalisationIsARingHomomorphism : Prop :=
  (∀ v : Int, ((normInt v).val : Int) = v % 251) ∧
  (∀ u v : Int, normInt (u + v) = fadd (normInt u) (normInt v) ∧ normInt (u - v) = fsub (normInt u) (normInt v) ∧
    normInt (u * v) = fmul (normInt u) (normInt v))

/-! ## Polynomial commands -/

/-- `PNEW b, len`: the zero polynomial of that length in that bank, or `V_ARG` (R150). -/
def Obligations.PnewBuildsTheZeroPolynomial : Prop :=
  decode 0x00030020#32 = .ok (.pnew 0 3) ∧
  (∀ (s : State) (len : Nat), 1 ≤ len → len ≤ 8 → ∃ p : Bank, p.holds (List.replicate len 0) ∧
    exec (.pnew 0 len) s = .next { s with p0 := p, err := 0#3 } ∧
    exec (.pnew 1 len) s = .next { s with p1 := p, err := 0#3 }) ∧
  (∀ (s : State) (b len : Nat), 1 < b ∨ len < 1 ∨ 8 < len → exec (.pnew b len) s = .next (s.validationError 9))

/-- `PEVAL b`: the power sum of the bank's polynomial at `A`, or `V_ARG` (R151, R141). The bank's coefficients are the
list below its length, highest-degree first. -/
def Obligations.PevalComputesThePowerSum : Prop :=
  decode 0x00000021#32 = .ok (.peval 0) ∧
  (∀ s : State, ∃ v : FE, v.val = powerSum (s.p0.c.toList.take s.p0.len.toNat) s.a.val ∧
    exec (.peval 0) s = .next { s with r := v, err := 0#3 }) ∧
  (∀ s : State, ∃ v : FE, v.val = powerSum (s.p1.c.toList.take s.p1.len.toNat) s.a.val ∧
    exec (.peval 1) s = .next { s with r := v, err := 0#3 }) ∧
  (∀ (s : State) (b : Nat), 1 < b → exec (.peval b) s = .next (s.validationError 9))

/-- `PEQ`: equal lengths and equal coefficients below the length, and only the flag written (R152, R147). -/
def Obligations.PeqComparesLengthAndCoefficients : Prop :=
  decode 0x00000022#32 = .ok .peq ∧ ∀ s : State, ∃ v : Bool,
    (v = true ↔ s.p0.len = s.p1.len ∧ ∀ i < s.p0.len.toNat, elem s.p0.c.toList i = elem s.p1.c.toList i) ∧
      exec .peq s = .next { s with flagEq := v, err := 0#3 }

/-- `LAG0 i, top`: the value whose product with the differences of abscissae is the product of the negated abscissae,
`DivisionByZero(0)` exactly when another of the first `top` abscissae equals `X[i]`, and `V_ARG` before it (R153, R143). -/
def Obligations.Lag0ComputesTheBasisValueAtZero : Prop :=
  decode 0x00030123#32 = .ok (.lag0 1 3) ∧
  (∀ (s : State) (i top : Nat), top ≤ 8 → i < top →
    (∀ j < top, j ≠ i → elem s.x.toList j ≠ elem s.x.toList i) → ∃ v : FE,
      (v.val : ZMod 251) * ((Finset.range top).erase i).prod
          (fun j => ((elem s.x.toList i).val : ZMod 251) - ((elem s.x.toList j).val : ZMod 251)) =
        ((Finset.range top).erase i).prod (fun j => -((elem s.x.toList j).val : ZMod 251)) ∧
      exec (.lag0 i top) s = .next { s with r := v, err := 0#3 }) ∧
  (∀ (s : State) (i top : Nat), top ≤ 8 → i < top →
    (∃ j < top, j ≠ i ∧ elem s.x.toList j = elem s.x.toList i) →
      exec (.lag0 i top) s = .next (s.divisionByZero 0)) ∧
  (∀ (s : State) (i top : Nat), top < 1 ∨ 8 < top ∨ top ≤ i → exec (.lag0 i top) s = .next (s.validationError 9))

/-- `PINTERP b` on `K` accepted abscissae puts into the bank the one polynomial of length `K` that takes the value
`Y[i]` at each `X[i]`, and changes nothing else (R145, R154). -/
def Obligations.PinterpFindsTheUniquePolynomial : Prop :=
  decode 0x00000024#32 = .ok (.pinterp 0) ∧
  ∀ s : State, 1 ≤ s.k.toNat → s.k.toNat ≤ 8 → s.npts = s.k →
    abscissaeOk s.k.toNat (fun i => (elem s.x.toList i).val) → ∃ (cs : List FE) (p : Bank),
      cs.length = s.k.toNat ∧
      (∀ i < s.k.toNat, powerSum cs (elem s.x.toList i).val = (elem s.y.toList i).val) ∧
      (∀ ds : List FE, ds.length = s.k.toNat →
        (∀ i < s.k.toNat, powerSum ds (elem s.x.toList i).val = (elem s.y.toList i).val) → ds = cs) ∧
      p.holds cs ∧
      exec (.pinterp 0) s = .next { s with p0 := p, err := 0#3 } ∧
      exec (.pinterp 1) s = .next { s with p1 := p, err := 0#3 }

/-- When `PINTERP b` raises, in its order: `V_ARG`; `V_NPTS` when `K` is not 1 to 8 or `NPTS` is not `K`; then
`DivisionByZero(0)` exactly when two abscissae are equal or one but the last is 0 (R154, R146). -/
def Obligations.PinterpRaisesOnBadArgumentsAndPoints : Prop :=
  (∀ (s : State) (b : Nat), 1 < b → exec (.pinterp b) s = .next (s.validationError 9)) ∧
  (∀ (s : State) (b : Nat), b ≤ 1 → s.k.toNat < 1 ∨ 8 < s.k.toNat ∨ s.npts ≠ s.k →
    exec (.pinterp b) s = .next (s.validationError 8)) ∧
  (∀ (s : State) (b : Nat), b ≤ 1 → 1 ≤ s.k.toNat → s.k.toNat ≤ 8 → s.npts = s.k →
    ¬ abscissaeOk s.k.toNat (fun i => (elem s.x.toList i).val) →
      exec (.pinterp b) s = .next (s.divisionByZero 0))

/-! ## The encoder -/

/-- `BLKBUILD`: one draw `r`; `f` is the first `K` pixels of the block, `g` the two blinding values `-r*a0`, `-r*a1` and
the other `K-2` pixels, the first two pixels having a 0 remapped to 1 (R173 to R175, R180). -/
def Obligations.BlkbuildBuildsBothPolynomials : Prop :=
  decode 0x00000030#32 = .ok .blkbuild ∧
  ∀ s : State, s.schemeOk → s.blk.toNat < s.blocks →
    let px : Nat → FE := fun t => normByte (s.byteAt .secret 0 (s.blk.toNat * (2 * s.k.toNat - 2) + t))
    let lead : Nat → FE := fun t => if px t = 0 then 1 else px t
    let r := s.drawPort.draw.1
    ∃ (f g : List FE) (p q : Bank), f.length = s.k.toNat ∧ g.length = s.k.toNat ∧
      (∀ t < s.k.toNat, elem f t = if t < 2 then lead t else px t) ∧
      (∀ t < 2, (r.val * (lead t).val + (elem g t).val) % 251 = 0) ∧
      (∀ t < s.k.toNat, 2 ≤ t → elem g t = px (s.k.toNat + t - 2)) ∧
      p.holds f ∧ q.holds g ∧
      exec .blkbuild s = .next { s with p0 := p, p1 := q, r := r, drawPort := s.drawPort.draw.2, err := 0#3 }

/-- `ENCODE`: with draw `b` of the command for block `b`, bytes `2b` and `2b+1` of participant `j`'s shadow are the
values at `j` of the two polynomials of block `b`; every other byte of every memory is as before, and of the registers
only `ERR` is written (R176, R177, R181). -/
def Obligations.EncodeWritesEveryShadow : Prop :=
  decode 0x00000031#32 = .ok .encode ∧
  ∀ s : State, s.schemeOk → s.participantsOk →
    let drawn := DrawPort.drawMany s.blocks s.drawPort
    ∃ t, exec .encode s = .next t ∧
      t = { s with mem := t.mem, drawPort := drawn.2, err := 0#3 } ∧
      (∀ slot < s.n.toNat, ∀ b < s.blocks,
        (t.byteAt .shadow slot (2 * b)).toNat = powerSum (s.buildBlock b (elem drawn.1 b)).1 (slot + 1) ∧
        (t.byteAt .shadow slot (2 * b + 1)).toNat = powerSum (s.buildBlock b (elem drawn.1 b)).2 (slot + 1)) ∧
      (∀ sp slot i, inRange s.params sp slot i = true →
        ¬ (sp = .shadow ∧ slot < s.n.toNat ∧ i < s.shadowBytes) → t.byteAt sp slot i = s.byteAt sp slot i)

/-- `DISTRIBUTE` completes when every capacity suffices, and its result is that of `ENCODE` followed by `EMBED 0` to
`EMBED N-1` with the same draws; every participant's cover then holds its identifier (R182). -/
def Obligations.DistributeIsEncodeThenEmbed : Prop :=
  decode 0x00000032#32 = .ok .distribute ∧
  ∀ s : State, s.schemeOk → s.participantsOk → (∀ slot < s.n.toNat, s.capacityOk slot) → ∃ t,
    exec .distribute s = .next t ∧ t.err = 0#3 ∧
      execAll (.encode :: (List.range s.n.toNat).map Instr.embed) s = .next t ∧
      (s.slots.length = s.params.nMax.val →
        ∀ slot < s.n.toNat, (t.slotRegs slot).cid = BitVec.ofNat 8 (slot + 1))

/-- What `DISTRIBUTE` writes, byte by byte: the shadows of `ENCODE`, their groups into the low bits of the participants'
covers, and identifiers of participants only; every other byte and every other register is as before (R50, R65, R181,
R182, R233). The draws stand in the model's draw port: notes/assumptions/3.md. -/
def Obligations.DistributeWritesShadowsAndCovers : Prop :=
  ∀ s : State, s.schemeOk → s.participantsOk → (∀ slot < s.n.toNat, s.capacityOk slot) →
    let drawn := DrawPort.drawMany s.blocks s.drawPort
    ∃ t, exec .distribute s = .next t ∧
      t = { s with mem := t.mem, slots := t.slots, drawPort := drawn.2, err := 0#3 } ∧
      (∀ slot, (t.slotRegs slot).cw = (s.slotRegs slot).cw ∧ (t.slotRegs slot).ch = (s.slotRegs slot).ch ∧
        (s.n.toNat ≤ slot → (t.slotRegs slot).cid = (s.slotRegs slot).cid)) ∧
      (∀ slot < s.n.toNat, ∀ b < s.blocks,
        (t.byteAt .shadow slot (2 * b)).toNat = powerSum (s.buildBlock b (elem drawn.1 b)).1 (slot + 1) ∧
        (t.byteAt .shadow slot (2 * b + 1)).toNat = powerSum (s.buildBlock b (elem drawn.1 b)).2 (slot + 1)) ∧
      (∀ slot < s.n.toNat, ∀ q < s.shadowBytes, ∀ g < s.pixelsPerByte,
        (t.byteAt .cover slot (q * s.pixelsPerByte + g)).toNat =
          (s.byteAt .cover slot (q * s.pixelsPerByte + g)).toNat / 2 ^ s.bitsPerPixel * 2 ^ s.bitsPerPixel +
            (t.byteAt .shadow slot q).toNat / 2 ^ (8 - s.bitsPerPixel * (g + 1)) % 2 ^ s.bitsPerPixel) ∧
      (∀ sp slot i, inRange s.params sp slot i = true →
        ¬ (sp = .shadow ∧ slot < s.n.toNat ∧ i < s.shadowBytes) →
        ¬ (sp = .cover ∧ slot < s.n.toNat ∧ i < s.shadowBytes * s.pixelsPerByte) →
          t.byteAt sp slot i = s.byteAt sp slot i)

/-! ## The embedding unit -/

/-- `EMBED slot`: cover pixel `q*G + g` keeps its high bits and takes group `g` of shadow byte `q`, the first group the
most significant; the identifier is stamped; every other byte and register is as before (R230, R233, R236). -/
def Obligations.EmbedPacksTheShadowIntoTheCover : Prop :=
  decode 0x00000150#32 = .ok (.embed 1) ∧
  ∀ (s : State) (slot : Nat), slot < s.params.nMax.val → s.schemeOk → s.capacityOk slot → ∃ t,
    exec (.embed slot) s = .next t ∧
      t = { s with
        mem := t.mem
        slots := s.slots.modify slot fun u => { u with cid := BitVec.ofNat 8 (slot + 1) }
        err := 0#3 } ∧
      (∀ q < s.shadowBytes, ∀ g < s.pixelsPerByte,
        (t.byteAt .cover slot (q * s.pixelsPerByte + g)).toNat =
          (s.byteAt .cover slot (q * s.pixelsPerByte + g)).toNat / 2 ^ s.bitsPerPixel * 2 ^ s.bitsPerPixel +
            (s.byteAt .shadow slot q).toNat / 2 ^ (8 - s.bitsPerPixel * (g + 1)) % 2 ^ s.bitsPerPixel) ∧
      (∀ sp slot' i, inRange s.params sp slot' i = true →
        ¬ (sp = .cover ∧ slot' = slot ∧ i < s.shadowBytes * s.pixelsPerByte) →
          t.byteAt sp slot' i = s.byteAt sp slot' i)

/-- `EXTRACT slot`: shadow byte `q` is the concatenation of the low bits of its cover pixels; every other byte and
every register but `ERR` is as before (R234, R237). -/
def Obligations.ExtractUnpacksTheCover : Prop :=
  decode 0x00000151#32 = .ok (.extract 1) ∧
  ∀ (s : State) (slot : Nat), slot < s.params.nMax.val → s.schemeOk → s.capacityOk slot → ∃ t,
    exec (.extract slot) s = .next t ∧ t = { s with mem := t.mem, err := 0#3 } ∧
      (∀ q < s.shadowBytes, (t.byteAt .shadow slot q).toNat = s.carriedByte slot q) ∧
      (∀ sp slot' i, inRange s.params sp slot' i = true →
        ¬ (sp = .shadow ∧ slot' = slot ∧ i < s.shadowBytes) → t.byteAt sp slot' i = s.byteAt sp slot' i)

/-- The packing round trip: after `EMBED`, `EXTRACT` gives back exactly the shadow, for every `K` and every cover; and
packing changes each touched pixel by less than `2^W` and not in its bits from `W` up (R235). -/
def Obligations.EmbedThenExtractRestoresTheShadow : Prop :=
  ∀ (s : State) (slot : Nat), slot < s.params.nMax.val → s.schemeOk → s.capacityOk slot → ∃ t u,
    exec (.embed slot) s = .next t ∧ exec (.extract slot) t = .next u ∧ u.err = 0#3 ∧
      (∀ q < s.shadowBytes, u.byteAt .shadow slot q = s.byteAt .shadow slot q) ∧
      (∀ i < s.shadowBytes * s.pixelsPerByte,
        (t.byteAt .cover slot i).toNat / 2 ^ s.bitsPerPixel = (s.byteAt .cover slot i).toNat / 2 ^ s.bitsPerPixel ∧
        (t.byteAt .cover slot i).toNat < (s.byteAt .cover slot i).toNat + 2 ^ s.bitsPerPixel ∧
        (s.byteAt .cover slot i).toNat < (t.byteAt .cover slot i).toNat + 2 ^ s.bitsPerPixel)

/-! ## The decoder -/

/-- `BLKINTERP`: the banks receive the one pair of polynomials of length `K` through the points of block `BLK`, and
nothing else changes (R202, R203). -/
def Obligations.BlkinterpInterpolatesBothPolynomials : Prop :=
  decode 0x00000040#32 = .ok .blkinterp ∧
  ∀ s : State, s.schemeOk → s.selectionOk → s.blk.toNat < s.blocks → abscissaeOk s.k.toNat s.shareId →
    ∃ (f g : List FE) (p q : Bank), s.blockIs s.storedByte s.blk.toNat f g ∧
      (∀ f' g' : List FE, s.blockIs s.storedByte s.blk.toNat f' g' → f' = f ∧ g' = g) ∧
      p.holds f ∧ q.holds g ∧ exec .blkinterp s = .next { s with p0 := p, p1 := q, err := 0#3 }

/-- `CHEAT`: the least `r` that satisfies both equations goes to `R`; with none, `CheatingDetected(0)`; a bank of length
1 raises `V_LEN` before (R204, R205). -/
def Obligations.CheatFindsTheLeastBlindingValue : Prop :=
  decode 0x00000041#32 = .ok .cheat ∧
  (∀ (s : State) (r : FE), 2 ≤ s.p0.len.toNat → 2 ≤ s.p1.len.toNat →
    blinds s.p0.c.toList s.p1.c.toList r.val → (∀ r' < r.val, ¬ blinds s.p0.c.toList s.p1.c.toList r') →
      exec .cheat s = .next { s with r := r, err := 0#3 }) ∧
  (∀ s : State, 2 ≤ s.p0.len.toNat → 2 ≤ s.p1.len.toNat →
    (∀ r < 251, ¬ blinds s.p0.c.toList s.p1.c.toList r) → exec .cheat s = .next (s.cheatingDetected 0)) ∧
  (∀ s : State, s.p0.len.toNat < 2 ∨ s.p1.len.toNat < 2 → exec .cheat s = .next (s.validationError 10))

/-- `DECODE` reconstructs the plane: where the stored shares of each block are those of polynomials `f`, `g` that pass
the cheating check, the plane is their reassembly, the header is that of slot `SEL[0]`, and every other byte and
register is as before (R206, R207, R209). -/
def Obligations.DecodeReassemblesThePlane : Prop :=
  decode 0x00000042#32 = .ok .decode ∧
  ∀ (s : State) (f g : Nat → List FE), s.schemeOk → s.selectionOk →
    (0 < s.blocks → abscissaeOk s.k.toNat s.shareId) →
    (∀ b < s.blocks, s.blockIs s.storedByte b (f b) (g b) ∧ ∃ r < 251, blinds (f b) (g b) r) → ∃ t,
      exec .decode s = .next t ∧
      t = { s with
        mem := t.mem
        outw := (s.slotRegs (s.selAt 0)).cw
        outh := (s.slotRegs (s.selAt 0)).ch
        err := 0#3 } ∧
      (∀ b < s.blocks, ∀ u < 2 * s.k.toNat - 2,
        (t.byteAt .secret 0 (b * (2 * s.k.toNat - 2) + u)).toNat = (reassembled s.k.toNat (f b) (g b) u).val) ∧
      (∀ sp slot i, inRange s.params sp slot i = true → ¬ (sp = .secret ∧ i < s.npix.toNat) →
        t.byteAt sp slot i = s.byteAt sp slot i)

/-- Cheating detection: `DECODE` raises `CheatingDetected` at the lowest-numbered block whose shares satisfy the
equations for no `r`, and writes nothing of the plane (R204, R207, R265). -/
def Obligations.DecodeReportsTheLowestForgedBlock : Prop :=
  ∀ (s : State) (f g : Nat → List FE) (b : Nat), s.schemeOk → s.selectionOk → b < s.blocks →
    abscissaeOk s.k.toNat s.shareId →
    (∀ b' ≤ b, s.blockIs s.storedByte b' (f b') (g b')) →
    (∀ b' < b, ∃ r < 251, blinds (f b') (g b') r) → (∀ r < 251, ¬ blinds (f b) (g b) r) →
      exec .decode s = .next (s.cheatingDetected b)

/-- Identifiers that interpolation cannot accept, two equal or a zero one not last, end `BLKINTERP` with
`DivisionByZero(BLK)`, and `DECODE` and `RECOVER` with `DivisionByZero(0)`, whatever the shadows are (R146, R203, R207,
R208, R265). -/
def Obligations.BadIdentifiersRaiseDivisionByZero : Prop :=
  ∀ s : State, s.schemeOk → s.selectionOk → ¬ abscissaeOk s.k.toNat s.shareId →
    (s.blk.toNat < s.blocks → exec .blkinterp s = .next (s.divisionByZero s.blk.toNat)) ∧
    (0 < s.blocks → exec .decode s = .next (s.divisionByZero 0)) ∧
    (0 < s.blocks → (∀ i < s.k.toNat, s.capacityOk (s.selAt i)) → exec .recover s = .next (s.divisionByZero 0))

/-- `RECOVER`, when it ends with outcome 0, does what `EXTRACT SEL[0]`, ..., `EXTRACT SEL[K-1]` and then `DECODE` do
(R208). -/
def Obligations.RecoverIsExtractThenDecode : Prop :=
  ∀ s t : State, exec .recover s = .next t → t.err = 0#3 →
    execAll ((List.range s.k.toNat).map (fun i => Instr.extract (s.selAt i)) ++ [.decode]) s = .next t

/-- `RECOVER` reconstructs the plane from the covers: as `DECODE`, the shares being the bytes the covers carry, which
are also left in the SHADOW memories of the selected slots (R208). -/
def Obligations.RecoverReassemblesThePlane : Prop :=
  decode 0x00000043#32 = .ok .recover ∧
  ∀ (s : State) (f g : Nat → List FE), s.schemeOk → s.selectionOk → (∀ i < s.k.toNat, s.capacityOk (s.selAt i)) →
    (0 < s.blocks → abscissaeOk s.k.toNat s.shareId) →
    (∀ b < s.blocks, s.blockIs (fun i q => s.carriedByte (s.selAt i) q) b (f b) (g b) ∧
      ∃ r < 251, blinds (f b) (g b) r) → ∃ t,
      exec .recover s = .next t ∧
      t = { s with
        mem := t.mem
        outw := (s.slotRegs (s.selAt 0)).cw
        outh := (s.slotRegs (s.selAt 0)).ch
        err := 0#3 } ∧
      (∀ b < s.blocks, ∀ u < 2 * s.k.toNat - 2,
        (t.byteAt .secret 0 (b * (2 * s.k.toNat - 2) + u)).toNat = (reassembled s.k.toNat (f b) (g b) u).val) ∧
      (∀ i < s.k.toNat, ∀ q < s.shadowBytes,
        (t.byteAt .shadow (s.selAt i) q).toNat = s.carriedByte (s.selAt i) q) ∧
      (∀ sp slot i, inRange s.params sp slot i = true → ¬ (sp = .secret ∧ i < s.npix.toNat) →
        ¬ (sp = .shadow ∧ (∃ j < s.k.toNat, slot = s.selAt j) ∧ i < s.shadowBytes) →
        t.byteAt sp slot i = s.byteAt sp slot i)

/-- Cheating detection over covers: `RECOVER` raises `CheatingDetected` at the lowest-numbered block whose carried shares
satisfy the equations for no `r`, and writes nothing, not even the extracted shadows (R204, R208, R265). -/
def Obligations.RecoverReportsTheLowestForgedBlock : Prop :=
  ∀ (s : State) (f g : Nat → List FE) (b : Nat), s.schemeOk → s.selectionOk →
    (∀ i < s.k.toNat, s.capacityOk (s.selAt i)) → b < s.blocks → abscissaeOk s.k.toNat s.shareId →
    (∀ b' ≤ b, s.blockIs (fun i q => s.carriedByte (s.selAt i) q) b' (f b') (g b')) →
    (∀ b' < b, ∃ r < 251, blinds (f b') (g b') r) → (∀ r < 251, ¬ blinds (f b) (g b) r) →
      exec .recover s = .next (s.cheatingDetected b)

/-- Honest shares pass: what `ENCODE` writes, `DECODE` of any `K` distinct participants gives back, each pixel as R184
says, for every plane and every sequence of draws (R211, R184). -/
def Obligations.EncodeThenDecodeRestoresThePlane : Prop :=
  ∀ s : State, s.schemeOk → s.selectionOk →
    (∀ i < s.k.toNat, ∀ j < s.k.toNat, j ≠ i → s.selAt j ≠ s.selAt i) →
    (∀ i < s.k.toNat, (s.slotRegs (s.selAt i)).cid = BitVec.ofNat 8 (s.selAt i + 1)) → ∃ t u,
      exec .encode s = .next t ∧ exec .decode t = .next u ∧ u.err = 0#3 ∧
        ∀ a < s.npix.toNat, (u.byteAt .secret 0 a).toNat = s.sharedPixel a

/-- THE SCHEME WORKS: a plane distributed to `N` covers and recovered from any `K` distinct ones of them comes back,
each pixel as R184 says, so exactly where its bytes are 1 to 250 (R211, R184), for every `K` in 3 to 8, every cover and
every sequence of draws. -/
def Obligations.DistributeThenRecoverRestoresThePlane : Prop :=
  ∀ s : State, s.inv → s.schemeOk → s.selectionOk → (∀ slot < s.n.toNat, s.capacityOk slot) →
    (∀ i < s.k.toNat, ∀ j < s.k.toNat, j ≠ i → s.selAt j ≠ s.selAt i) → ∃ t u,
      exec .distribute s = .next t ∧ exec .recover t = .next u ∧ u.err = 0#3 ∧
        ∀ a < s.npix.toNat, (u.byteAt .secret 0 a).toNat = s.sharedPixel a

/-! ## Validation -/

/-- `check_scheme()` comes first in every share and embedding command, and reports `V_K`, then `V_SIZE`, then `V_DIV`
(R171, R265); `EMBED` and `EXTRACT` check their slot before it (R236, R237). -/
def Obligations.SchemeChecksReportInOrder : Prop :=
  ∀ (s : State) (slot : Nat), slot < s.params.nMax.val → ∀ i ∈ [Instr.blkbuild, .encode, .distribute, .blkinterp,
      .decode, .recover, .embed slot, .extract slot],
    (¬ s.kOk → exec i s = .next (s.validationError 1)) ∧
    (s.kOk → ¬ s.sizeOk → exec i s = .next (s.validationError 2)) ∧
    (s.kOk → s.sizeOk → ¬ s.divOk → exec i s = .next (s.validationError 3))

/-- After `check_scheme()`: `V_NCOV` in the commands that read `N`, then `V_SEL` and `V_DIM` in those that read `SEL`
(R172, R201, R265). -/
def Obligations.CoverChecksReportInOrder : Prop :=
  ∀ s : State, s.schemeOk →
    (¬ s.participantsOk → ∀ i ∈ [Instr.encode, .distribute, .blkinterp, .decode, .recover],
      exec i s = .next (s.validationError 4)) ∧
    (∀ i ∈ [Instr.blkinterp, .decode, .recover],
      (s.participantsOk → ¬ s.selLoaded → exec i s = .next (s.validationError 5)) ∧
      (s.participantsOk → s.selLoaded → ¬ s.dimsAgree → exec i s = .next (s.validationError 6)))

/-- The last checks: `V_CAP` for a cover that is too small or too large, in `DISTRIBUTE`, `RECOVER`, `EMBED`, `EXTRACT`;
`V_BLK` in `BLKBUILD` and `BLKINTERP`; and `V_ARG` for a slot that does not exist, before all others (R232, R180, R203,
R236, R265). -/
def Obligations.CapacityBlockAndSlotChecks : Prop :=
  (∀ s : State, s.schemeOk → s.participantsOk → (∃ slot < s.n.toNat, ¬ s.capacityOk slot) →
    exec .distribute s = .next (s.validationError 7)) ∧
  (∀ s : State, s.schemeOk → s.selectionOk → (∃ i < s.k.toNat, ¬ s.capacityOk (s.selAt i)) →
    exec .recover s = .next (s.validationError 7)) ∧
  (∀ (s : State) (slot : Nat), slot < s.params.nMax.val → s.schemeOk → ¬ s.capacityOk slot →
    exec (.embed slot) s = .next (s.validationError 7) ∧ exec (.extract slot) s = .next (s.validationError 7)) ∧
  (∀ s : State, s.schemeOk → s.blocks ≤ s.blk.toNat → exec .blkbuild s = .next (s.validationError 11) ∧
    (s.selectionOk → exec .blkinterp s = .next (s.validationError 11))) ∧
  (∀ (s : State) (slot : Nat), s.params.nMax.val ≤ slot →
    exec (.embed slot) s = .next (s.validationError 9) ∧ exec (.extract slot) s = .next (s.validationError 9))

/-! ## The host port

In each statement the transaction is the oldest of the pending events, and the word a read returns is left in `rdata`:
that is how the model shows the port (notes/assumptions/2.md); what the transaction does is the rule's. -/

/-- A host write of a word to a writable field-element register stores its value as a signed integer modulo 251, never
negative, and changes nothing else (R21, R35, R39, R60). -/
def Obligations.FieldRegisterWritesNormalise : Prop :=
  ∀ (s : State) (w : Word) (rest : List HostOp), ∃ v : FE, (v.val : Int) = w.toInt % 251 ∧
    (s.pending = .write 0x08#8 w :: rest → step s = .next { s with pending := rest, a := v }) ∧
    (s.pending = .write 0x09#8 w :: rest → step s = .next { s with pending := rest, b := v }) ∧
    (∀ i : Fin 8, s.pending = .write (0x30#8 + BitVec.ofNat 8 i.val) w :: rest →
      step s = .next { s with pending := rest, x := s.x.set i.val v }) ∧
    (∀ i : Fin 8, s.pending = .write (0x38#8 + BitVec.ofNat 8 i.val) w :: rest →
      step s = .next { s with pending := rest, y := s.y.set i.val v })

/-- A host write to a coefficient register stores the normalised value below the bank's length, and is ignored from the
length on (R40). -/
def Obligations.CoefficientWritesStopAtTheLength : Prop :=
  ∀ (s : State) (w : Word) (rest : List HostOp) (i : Fin 8), ∃ v : FE, (v.val : Int) = w.toInt % 251 ∧
    (s.pending = .write (0x40#8 + BitVec.ofNat 8 i.val) w :: rest →
      (i.val < s.p0.len.toNat →
        step s = .next { s with pending := rest, p0 := { s.p0 with c := s.p0.c.set i.val v } }) ∧
      (s.p0.len.toNat ≤ i.val → step s = .next { s with pending := rest })) ∧
    (s.pending = .write (0x50#8 + BitVec.ofNat 8 i.val) w :: rest →
      (i.val < s.p1.len.toNat →
        step s = .next { s with pending := rest, p1 := { s.p1 with c := s.p1.c.set i.val v } }) ∧
      (s.p1.len.toNat ≤ i.val → step s = .next { s with pending := rest }))

/-- A host write to a plain register stores the bits the register holds and changes nothing else (R30 to R33, R36, R38,
R39, R41, R42, R60). -/
def Obligations.PlainRegisterWritesStoreTheWord : Prop :=
  ∀ (s : State) (w : Word) (rest : List HostOp),
    (s.pending = .write 0x0A#8 w :: rest → step s = .next { s with pending := rest, e := w }) ∧
    (s.pending = .write 0x10#8 w :: rest → step s = .next { s with pending := rest, k := w.extractLsb' 0 8 }) ∧
    (s.pending = .write 0x11#8 w :: rest → step s = .next { s with pending := rest, n := w.extractLsb' 0 8 }) ∧
    (s.pending = .write 0x12#8 w :: rest → step s = .next { s with pending := rest, npix := w }) ∧
    (s.pending = .write 0x13#8 w :: rest → step s = .next { s with pending := rest, blk := w }) ∧
    (s.pending = .write 0x18#8 w :: rest → ∃ m : BitVec 16,
      (∀ j < 16, m.getLsbD j = (w.getLsbD j && (decide (j < 2) || decide (8 ≤ j)))) ∧
        step s = .next { s with pending := rest, msel := m }) ∧
    (s.pending = .write 0x19#8 w :: rest → step s = .next { s with pending := rest, maddr := w }) ∧
    (s.pending = .write 0x28#8 w :: rest → step s = .next { s with pending := rest, npts := w.extractLsb' 0 8 }) ∧
    (∀ i : Fin 8, s.pending = .write (0x20#8 + BitVec.ofNat 8 i.val) w :: rest →
      step s = .next { s with pending := rest, sel := s.sel.set i.val (w.extractLsb' 0 8) })

/-- A host write to a read-only register or to an unmapped index changes no state, and an unmapped index reads 0 (R49,
R76). -/
def Obligations.ReadOnlyAndUnmappedIndicesIgnoreWrites : Prop :=
  ∀ (s : State) (idx : Byte) (rest : List HostOp),
    let i := idx.toNat
    let unmapped := i = 0x06 ∨ i = 0x07 ∨ (0x0C ≤ i ∧ i ≤ 0x0F) ∨ i = 0x16 ∨ i = 0x17 ∨ i = 0x1E ∨ i = 0x1F ∨
      (0x29 ≤ i ∧ i ≤ 0x2F) ∨ (0x49 ≤ i ∧ i ≤ 0x4F) ∨ 0x59 ≤ i
    let readOnly := i = 0x00 ∨ i = 0x02 ∨ i = 0x03 ∨ i = 0x04 ∨ i = 0x05 ∨ i = 0x0B ∨ i = 0x14 ∨ i = 0x15 ∨
      i = 0x48 ∨ i = 0x58
    (∀ w : Word, s.pending = .write idx w :: rest → unmapped ∨ readOnly → step s = .next { s with pending := rest }) ∧
    (s.pending = .read idx :: rest → unmapped → step s = .next { s with pending := rest, rdata := 0#32 })

/-- A host read returns the register zero-extended and changes nothing: every register of the map but `MDATA` and the
slot registers, at its index (R23, R61). With nothing pending the core holds all state (R295). -/
def Obligations.HostReadsReturnTheRegister : Prop :=
  ∀ (s : State) (rest : List HostOp) (i : Fin 8),
    (∀ p ∈ [(0x00#8, 0x00FB0001), (0x01#8, s.cmd.toNat), (0x02#8, s.err.toNat), (0x03#8, s.esticky.toNat),
        (0x04#8, s.einfo.toNat), (0x05#8, s.flagEq.toNat), (0x08#8, s.a.val), (0x09#8, s.b.val), (0x0A#8, s.e.toNat),
        (0x0B#8, s.r.val), (0x10#8, s.k.toNat), (0x11#8, s.n.toNat), (0x12#8, s.npix.toNat), (0x13#8, s.blk.toNat),
        (0x14#8, s.outw.toNat), (0x15#8, s.outh.toNat), (0x18#8, s.msel.toNat), (0x19#8, s.maddr.toNat),
        (0x28#8, s.npts.toNat), (0x48#8, s.p0.len.toNat), (0x58#8, s.p1.len.toNat),
        (0x20#8 + BitVec.ofNat 8 i.val, (s.sel.get i).toNat), (0x30#8 + BitVec.ofNat 8 i.val, (s.x.get i).val),
        (0x38#8 + BitVec.ofNat 8 i.val, (s.y.get i).val), (0x40#8 + BitVec.ofNat 8 i.val, (s.p0.c.get i).val),
        (0x50#8 + BitVec.ofNat 8 i.val, (s.p1.c.get i).val)],
      s.pending = .read p.1 :: rest → ∃ w : Word, w.toNat = p.2 ∧
        step s = .next { s with pending := rest, rdata := w }) ∧
    (s.pending = [] → step s = .next s)

/-- The memory window on a location that exists: a write of `MDATA` stores the low byte there and nowhere else, a read
returns the byte there, and both count `MADDR` on modulo `2^32` (R43, R62, R63, R253). -/
def Obligations.WindowAccessesTheSelectedByte : Prop :=
  ∀ (s : State) (w : Word) (rest : List HostOp) (sp : Space),
    s.msel.toNat % 4 = sp.code → inRange s.params sp (s.msel.toNat / 256) s.maddr.toNat = true →
    (s.pending = .write 0x1A#8 w :: rest → ∃ t, step s = .next t ∧
      t = { s with pending := rest, mem := t.mem, maddr := s.maddr + 1#32 } ∧
      t.byteAt sp (s.msel.toNat / 256) s.maddr.toNat = w.extractLsb' 0 8 ∧
      ∀ sp' slot' i', inRange s.params sp' slot' i' = true →
        ¬ (sp' = sp ∧ (sp = .secret ∨ slot' = s.msel.toNat / 256) ∧ i' = s.maddr.toNat) →
          t.byteAt sp' slot' i' = s.byteAt sp' slot' i') ∧
    (s.pending = .read 0x1A#8 :: rest → step s = .next { s with
      pending := rest
      maddr := s.maddr + 1#32
      rdata := (s.byteAt sp (s.msel.toNat / 256) s.maddr.toNat).setWidth 32 })

/-- The memory window where there is no byte, `SPACE = 3` among it: a write stores nothing, a read returns 0, `MADDR`
still counts on, and no outcome is raised (R64). -/
def Obligations.WindowOutOfRangeStoresNothingAndReadsZero : Prop :=
  ∀ (s : State) (w : Word) (rest : List HostOp),
    (s.msel.toNat % 4 = 3 ∨ ∃ sp : Space, s.msel.toNat % 4 = sp.code ∧
      inRange s.params sp (s.msel.toNat / 256) s.maddr.toNat = false) →
    (s.pending = .write 0x1A#8 w :: rest → step s = .next { s with pending := rest, maddr := s.maddr + 1#32 }) ∧
    (s.pending = .read 0x1A#8 :: rest →
      step s = .next { s with pending := rest, maddr := s.maddr + 1#32, rdata := 0#32 })

/-- `CID`, `CW`, `CH` reach the registers of slot `MSEL.SLOT`: a write stores the low 8 or 16 bits there and in no other
slot, a read returns the register; for a slot from `N_MAX` on a write is ignored and a read returns 0 (R44). -/
def Obligations.SlotRegistersFollowTheSelectedSlot : Prop :=
  ∀ (s : State) (w : Word) (rest : List HostOp),
    let slot := s.msel.toNat / 256
    (slot < s.params.nMax.val →
      (s.pending = .write 0x1B#8 w :: rest → step s = .next { s with
        pending := rest, slots := s.slots.modify slot fun t => { t with cid := w.extractLsb' 0 8 } }) ∧
      (s.pending = .write 0x1C#8 w :: rest → step s = .next { s with
        pending := rest, slots := s.slots.modify slot fun t => { t with cw := w.extractLsb' 0 16 } }) ∧
      (s.pending = .write 0x1D#8 w :: rest → step s = .next { s with
        pending := rest, slots := s.slots.modify slot fun t => { t with ch := w.extractLsb' 0 16 } }) ∧
      (s.pending = .read 0x1B#8 :: rest →
        step s = .next { s with pending := rest, rdata := (s.slotRegs slot).cid.setWidth 32 }) ∧
      (s.pending = .read 0x1C#8 :: rest →
        step s = .next { s with pending := rest, rdata := (s.slotRegs slot).cw.setWidth 32 }) ∧
      (s.pending = .read 0x1D#8 :: rest →
        step s = .next { s with pending := rest, rdata := (s.slotRegs slot).ch.setWidth 32 })) ∧
    (s.params.nMax.val ≤ slot → ∀ idx ∈ [0x1B#8, 0x1C#8, 0x1D#8],
      (s.pending = .write idx w :: rest → step s = .next { s with pending := rest }) ∧
      (s.pending = .read idx :: rest → step s = .next { s with pending := rest, rdata := 0#32 }))

end
end

