-- ==== Sys2Proof/Laws/State.lean ====
section
/-! SUPPORT. One lemma per field per named update of the state, true by rfl, so that no proof unfolds a record update;
and that the derived quantities and the bytes of memory see through the updates that do not touch them. -/

namespace Sys2Proof.Machine

section
variable (s : State)

@[simp] theorem State.raise_cmd (t : Trap) : (s.raise t).cmd = s.cmd := rfl
@[simp] theorem State.raise_err (t : Trap) : (s.raise t).err = BitVec.ofNat 3 t.code := rfl
@[simp] theorem State.raise_esticky (t : Trap) : (s.raise t).esticky = s.esticky ||| (1#5 <<< t.code) := rfl
@[simp] theorem State.raise_einfo (t : Trap) : (s.raise t).einfo = t.info := rfl
@[simp] theorem State.raise_flagEq (t : Trap) : (s.raise t).flagEq = s.flagEq := rfl
@[simp] theorem State.raise_a (t : Trap) : (s.raise t).a = s.a := rfl
@[simp] theorem State.raise_b (t : Trap) : (s.raise t).b = s.b := rfl
@[simp] theorem State.raise_e (t : Trap) : (s.raise t).e = s.e := rfl
@[simp] theorem State.raise_r (t : Trap) : (s.raise t).r = s.r := rfl
@[simp] theorem State.raise_k (t : Trap) : (s.raise t).k = s.k := rfl
@[simp] theorem State.raise_n (t : Trap) : (s.raise t).n = s.n := rfl
@[simp] theorem State.raise_npix (t : Trap) : (s.raise t).npix = s.npix := rfl
@[simp] theorem State.raise_blk (t : Trap) : (s.raise t).blk = s.blk := rfl
@[simp] theorem State.raise_outw (t : Trap) : (s.raise t).outw = s.outw := rfl
@[simp] theorem State.raise_outh (t : Trap) : (s.raise t).outh = s.outh := rfl
@[simp] theorem State.raise_msel (t : Trap) : (s.raise t).msel = s.msel := rfl
@[simp] theorem State.raise_maddr (t : Trap) : (s.raise t).maddr = s.maddr := rfl
@[simp] theorem State.raise_sel (t : Trap) : (s.raise t).sel = s.sel := rfl
@[simp] theorem State.raise_npts (t : Trap) : (s.raise t).npts = s.npts := rfl
@[simp] theorem State.raise_x (t : Trap) : (s.raise t).x = s.x := rfl
@[simp] theorem State.raise_y (t : Trap) : (s.raise t).y = s.y := rfl
@[simp] theorem State.raise_p0 (t : Trap) : (s.raise t).p0 = s.p0 := rfl
@[simp] theorem State.raise_p1 (t : Trap) : (s.raise t).p1 = s.p1 := rfl
@[simp] theorem State.raise_slots (t : Trap) : (s.raise t).slots = s.slots := rfl
@[simp] theorem State.raise_mem (t : Trap) : (s.raise t).mem = s.mem := rfl
@[simp] theorem State.raise_params (t : Trap) : (s.raise t).params = s.params := rfl
@[simp] theorem State.raise_epoch (t : Trap) : (s.raise t).epoch = s.epoch := rfl
@[simp] theorem State.raise_drawPort (t : Trap) : (s.raise t).drawPort = s.drawPort := rfl
@[simp] theorem State.raise_pending (t : Trap) : (s.raise t).pending = s.pending := rfl
@[simp] theorem State.raise_rdata (t : Trap) : (s.raise t).rdata = s.rdata := rfl
@[simp] theorem State.raise_byteAt (t : Trap) (sp' : Space) (slot' i' : Nat) :
    (s.raise t).byteAt sp' slot' i' = s.byteAt sp' slot' i' := rfl
@[simp] theorem State.raise_blockSize (t : Trap) : (s.raise t).blockSize = s.blockSize := rfl
@[simp] theorem State.raise_numBlocks (t : Trap) : (s.raise t).numBlocks = s.numBlocks := rfl
@[simp] theorem State.raise_shadowLen (t : Trap) : (s.raise t).shadowLen = s.shadowLen := rfl
@[simp] theorem State.raise_groupWidth (t : Trap) : (s.raise t).groupWidth = s.groupWidth := rfl
@[simp] theorem State.raise_groupsPerByte (t : Trap) : (s.raise t).groupsPerByte = s.groupsPerByte := rfl
@[simp] theorem State.raise_groupMask (t : Trap) : (s.raise t).groupMask = s.groupMask := rfl
@[simp] theorem State.raise_coverUsed (t : Trap) : (s.raise t).coverUsed = s.coverUsed := rfl
@[simp] theorem State.raise_slotRegs (t : Trap) (j : Nat) : (s.raise t).slotRegs j = s.slotRegs j := rfl
@[simp] theorem State.raise_selAt (t : Trap) (j : Nat) : (s.raise t).selAt j = s.selAt j := rfl

@[simp] theorem State.succeed_cmd : (s.succeed).cmd = s.cmd := rfl
@[simp] theorem State.succeed_err : (s.succeed).err = 0#3 := rfl
@[simp] theorem State.succeed_esticky : (s.succeed).esticky = s.esticky := rfl
@[simp] theorem State.succeed_einfo : (s.succeed).einfo = s.einfo := rfl
@[simp] theorem State.succeed_flagEq : (s.succeed).flagEq = s.flagEq := rfl
@[simp] theorem State.succeed_a : (s.succeed).a = s.a := rfl
@[simp] theorem State.succeed_b : (s.succeed).b = s.b := rfl
@[simp] theorem State.succeed_e : (s.succeed).e = s.e := rfl
@[simp] theorem State.succeed_r : (s.succeed).r = s.r := rfl
@[simp] theorem State.succeed_k : (s.succeed).k = s.k := rfl
@[simp] theorem State.succeed_n : (s.succeed).n = s.n := rfl
@[simp] theorem State.succeed_npix : (s.succeed).npix = s.npix := rfl
@[simp] theorem State.succeed_blk : (s.succeed).blk = s.blk := rfl
@[simp] theorem State.succeed_outw : (s.succeed).outw = s.outw := rfl
@[simp] theorem State.succeed_outh : (s.succeed).outh = s.outh := rfl
@[simp] theorem State.succeed_msel : (s.succeed).msel = s.msel := rfl
@[simp] theorem State.succeed_maddr : (s.succeed).maddr = s.maddr := rfl
@[simp] theorem State.succeed_sel : (s.succeed).sel = s.sel := rfl
@[simp] theorem State.succeed_npts : (s.succeed).npts = s.npts := rfl
@[simp] theorem State.succeed_x : (s.succeed).x = s.x := rfl
@[simp] theorem State.succeed_y : (s.succeed).y = s.y := rfl
@[simp] theorem State.succeed_p0 : (s.succeed).p0 = s.p0 := rfl
@[simp] theorem State.succeed_p1 : (s.succeed).p1 = s.p1 := rfl
@[simp] theorem State.succeed_slots : (s.succeed).slots = s.slots := rfl
@[simp] theorem State.succeed_mem : (s.succeed).mem = s.mem := rfl
@[simp] theorem State.succeed_params : (s.succeed).params = s.params := rfl
@[simp] theorem State.succeed_epoch : (s.succeed).epoch = s.epoch := rfl
@[simp] theorem State.succeed_drawPort : (s.succeed).drawPort = s.drawPort := rfl
@[simp] theorem State.succeed_pending : (s.succeed).pending = s.pending := rfl
@[simp] theorem State.succeed_rdata : (s.succeed).rdata = s.rdata := rfl
@[simp] theorem State.succeed_byteAt (sp' : Space) (slot' i' : Nat) :
    (s.succeed).byteAt sp' slot' i' = s.byteAt sp' slot' i' := rfl
@[simp] theorem State.succeed_blockSize : (s.succeed).blockSize = s.blockSize := rfl
@[simp] theorem State.succeed_numBlocks : (s.succeed).numBlocks = s.numBlocks := rfl
@[simp] theorem State.succeed_shadowLen : (s.succeed).shadowLen = s.shadowLen := rfl
@[simp] theorem State.succeed_groupWidth : (s.succeed).groupWidth = s.groupWidth := rfl
@[simp] theorem State.succeed_groupsPerByte : (s.succeed).groupsPerByte = s.groupsPerByte := rfl
@[simp] theorem State.succeed_groupMask : (s.succeed).groupMask = s.groupMask := rfl
@[simp] theorem State.succeed_coverUsed : (s.succeed).coverUsed = s.coverUsed := rfl
@[simp] theorem State.succeed_slotRegs (j : Nat) : (s.succeed).slotRegs j = s.slotRegs j := rfl
@[simp] theorem State.succeed_selAt (j : Nat) : (s.succeed).selAt j = s.selAt j := rfl

@[simp] theorem State.clearErrors_cmd : (s.clearErrors).cmd = s.cmd := rfl
@[simp] theorem State.clearErrors_err : (s.clearErrors).err = s.err := rfl
@[simp] theorem State.clearErrors_esticky : (s.clearErrors).esticky = 0#5 := rfl
@[simp] theorem State.clearErrors_einfo : (s.clearErrors).einfo = 0#32 := rfl
@[simp] theorem State.clearErrors_flagEq : (s.clearErrors).flagEq = s.flagEq := rfl
@[simp] theorem State.clearErrors_a : (s.clearErrors).a = s.a := rfl
@[simp] theorem State.clearErrors_b : (s.clearErrors).b = s.b := rfl
@[simp] theorem State.clearErrors_e : (s.clearErrors).e = s.e := rfl
@[simp] theorem State.clearErrors_r : (s.clearErrors).r = s.r := rfl
@[simp] theorem State.clearErrors_k : (s.clearErrors).k = s.k := rfl
@[simp] theorem State.clearErrors_n : (s.clearErrors).n = s.n := rfl
@[simp] theorem State.clearErrors_npix : (s.clearErrors).npix = s.npix := rfl
@[simp] theorem State.clearErrors_blk : (s.clearErrors).blk = s.blk := rfl
@[simp] theorem State.clearErrors_outw : (s.clearErrors).outw = s.outw := rfl
@[simp] theorem State.clearErrors_outh : (s.clearErrors).outh = s.outh := rfl
@[simp] theorem State.clearErrors_msel : (s.clearErrors).msel = s.msel := rfl
@[simp] theorem State.clearErrors_maddr : (s.clearErrors).maddr = s.maddr := rfl
@[simp] theorem State.clearErrors_sel : (s.clearErrors).sel = s.sel := rfl
@[simp] theorem State.clearErrors_npts : (s.clearErrors).npts = s.npts := rfl
@[simp] theorem State.clearErrors_x : (s.clearErrors).x = s.x := rfl
@[simp] theorem State.clearErrors_y : (s.clearErrors).y = s.y := rfl
@[simp] theorem State.clearErrors_p0 : (s.clearErrors).p0 = s.p0 := rfl
@[simp] theorem State.clearErrors_p1 : (s.clearErrors).p1 = s.p1 := rfl
@[simp] theorem State.clearErrors_slots : (s.clearErrors).slots = s.slots := rfl
@[simp] theorem State.clearErrors_mem : (s.clearErrors).mem = s.mem := rfl
@[simp] theorem State.clearErrors_params : (s.clearErrors).params = s.params := rfl
@[simp] theorem State.clearErrors_epoch : (s.clearErrors).epoch = s.epoch := rfl
@[simp] theorem State.clearErrors_drawPort : (s.clearErrors).drawPort = s.drawPort := rfl
@[simp] theorem State.clearErrors_pending : (s.clearErrors).pending = s.pending := rfl
@[simp] theorem State.clearErrors_rdata : (s.clearErrors).rdata = s.rdata := rfl
@[simp] theorem State.clearErrors_byteAt (sp' : Space) (slot' i' : Nat) :
    (s.clearErrors).byteAt sp' slot' i' = s.byteAt sp' slot' i' := rfl
@[simp] theorem State.clearErrors_blockSize : (s.clearErrors).blockSize = s.blockSize := rfl
@[simp] theorem State.clearErrors_numBlocks : (s.clearErrors).numBlocks = s.numBlocks := rfl
@[simp] theorem State.clearErrors_shadowLen : (s.clearErrors).shadowLen = s.shadowLen := rfl
@[simp] theorem State.clearErrors_groupWidth : (s.clearErrors).groupWidth = s.groupWidth := rfl
@[simp] theorem State.clearErrors_groupsPerByte : (s.clearErrors).groupsPerByte = s.groupsPerByte := rfl
@[simp] theorem State.clearErrors_groupMask : (s.clearErrors).groupMask = s.groupMask := rfl
@[simp] theorem State.clearErrors_coverUsed : (s.clearErrors).coverUsed = s.coverUsed := rfl
@[simp] theorem State.clearErrors_slotRegs (j : Nat) : (s.clearErrors).slotRegs j = s.slotRegs j := rfl
@[simp] theorem State.clearErrors_selAt (j : Nat) : (s.clearErrors).selAt j = s.selAt j := rfl

@[simp] theorem State.withR_cmd (v : FE) : (s.withR v).cmd = s.cmd := rfl
@[simp] theorem State.withR_err (v : FE) : (s.withR v).err = s.err := rfl
@[simp] theorem State.withR_esticky (v : FE) : (s.withR v).esticky = s.esticky := rfl
@[simp] theorem State.withR_einfo (v : FE) : (s.withR v).einfo = s.einfo := rfl
@[simp] theorem State.withR_flagEq (v : FE) : (s.withR v).flagEq = s.flagEq := rfl
@[simp] theorem State.withR_a (v : FE) : (s.withR v).a = s.a := rfl
@[simp] theorem State.withR_b (v : FE) : (s.withR v).b = s.b := rfl
@[simp] theorem State.withR_e (v : FE) : (s.withR v).e = s.e := rfl
@[simp] theorem State.withR_r (v : FE) : (s.withR v).r = v := rfl
@[simp] theorem State.withR_k (v : FE) : (s.withR v).k = s.k := rfl
@[simp] theorem State.withR_n (v : FE) : (s.withR v).n = s.n := rfl
@[simp] theorem State.withR_npix (v : FE) : (s.withR v).npix = s.npix := rfl
@[simp] theorem State.withR_blk (v : FE) : (s.withR v).blk = s.blk := rfl
@[simp] theorem State.withR_outw (v : FE) : (s.withR v).outw = s.outw := rfl
@[simp] theorem State.withR_outh (v : FE) : (s.withR v).outh = s.outh := rfl
@[simp] theorem State.withR_msel (v : FE) : (s.withR v).msel = s.msel := rfl
@[simp] theorem State.withR_maddr (v : FE) : (s.withR v).maddr = s.maddr := rfl
@[simp] theorem State.withR_sel (v : FE) : (s.withR v).sel = s.sel := rfl
@[simp] theorem State.withR_npts (v : FE) : (s.withR v).npts = s.npts := rfl
@[simp] theorem State.withR_x (v : FE) : (s.withR v).x = s.x := rfl
@[simp] theorem State.withR_y (v : FE) : (s.withR v).y = s.y := rfl
@[simp] theorem State.withR_p0 (v : FE) : (s.withR v).p0 = s.p0 := rfl
@[simp] theorem State.withR_p1 (v : FE) : (s.withR v).p1 = s.p1 := rfl
@[simp] theorem State.withR_slots (v : FE) : (s.withR v).slots = s.slots := rfl
@[simp] theorem State.withR_mem (v : FE) : (s.withR v).mem = s.mem := rfl
@[simp] theorem State.withR_params (v : FE) : (s.withR v).params = s.params := rfl
@[simp] theorem State.withR_epoch (v : FE) : (s.withR v).epoch = s.epoch := rfl
@[simp] theorem State.withR_drawPort (v : FE) : (s.withR v).drawPort = s.drawPort := rfl
@[simp] theorem State.withR_pending (v : FE) : (s.withR v).pending = s.pending := rfl
@[simp] theorem State.withR_rdata (v : FE) : (s.withR v).rdata = s.rdata := rfl
@[simp] theorem State.withR_byteAt (v : FE) (sp' : Space) (slot' i' : Nat) :
    (s.withR v).byteAt sp' slot' i' = s.byteAt sp' slot' i' := rfl
@[simp] theorem State.withR_blockSize (v : FE) : (s.withR v).blockSize = s.blockSize := rfl
@[simp] theorem State.withR_numBlocks (v : FE) : (s.withR v).numBlocks = s.numBlocks := rfl
@[simp] theorem State.withR_shadowLen (v : FE) : (s.withR v).shadowLen = s.shadowLen := rfl
@[simp] theorem State.withR_groupWidth (v : FE) : (s.withR v).groupWidth = s.groupWidth := rfl
@[simp] theorem State.withR_groupsPerByte (v : FE) : (s.withR v).groupsPerByte = s.groupsPerByte := rfl
@[simp] theorem State.withR_groupMask (v : FE) : (s.withR v).groupMask = s.groupMask := rfl
@[simp] theorem State.withR_coverUsed (v : FE) : (s.withR v).coverUsed = s.coverUsed := rfl
@[simp] theorem State.withR_slotRegs (v : FE) (j : Nat) : (s.withR v).slotRegs j = s.slotRegs j := rfl
@[simp] theorem State.withR_selAt (v : FE) (j : Nat) : (s.withR v).selAt j = s.selAt j := rfl

@[simp] theorem State.withEq_cmd (v : Bool) : (s.withEq v).cmd = s.cmd := rfl
@[simp] theorem State.withEq_err (v : Bool) : (s.withEq v).err = s.err := rfl
@[simp] theorem State.withEq_esticky (v : Bool) : (s.withEq v).esticky = s.esticky := rfl
@[simp] theorem State.withEq_einfo (v : Bool) : (s.withEq v).einfo = s.einfo := rfl
@[simp] theorem State.withEq_flagEq (v : Bool) : (s.withEq v).flagEq = v := rfl
@[simp] theorem State.withEq_a (v : Bool) : (s.withEq v).a = s.a := rfl
@[simp] theorem State.withEq_b (v : Bool) : (s.withEq v).b = s.b := rfl
@[simp] theorem State.withEq_e (v : Bool) : (s.withEq v).e = s.e := rfl
@[simp] theorem State.withEq_r (v : Bool) : (s.withEq v).r = s.r := rfl
@[simp] theorem State.withEq_k (v : Bool) : (s.withEq v).k = s.k := rfl
@[simp] theorem State.withEq_n (v : Bool) : (s.withEq v).n = s.n := rfl
@[simp] theorem State.withEq_npix (v : Bool) : (s.withEq v).npix = s.npix := rfl
@[simp] theorem State.withEq_blk (v : Bool) : (s.withEq v).blk = s.blk := rfl
@[simp] theorem State.withEq_outw (v : Bool) : (s.withEq v).outw = s.outw := rfl
@[simp] theorem State.withEq_outh (v : Bool) : (s.withEq v).outh = s.outh := rfl
@[simp] theorem State.withEq_msel (v : Bool) : (s.withEq v).msel = s.msel := rfl
@[simp] theorem State.withEq_maddr (v : Bool) : (s.withEq v).maddr = s.maddr := rfl
@[simp] theorem State.withEq_sel (v : Bool) : (s.withEq v).sel = s.sel := rfl
@[simp] theorem State.withEq_npts (v : Bool) : (s.withEq v).npts = s.npts := rfl
@[simp] theorem State.withEq_x (v : Bool) : (s.withEq v).x = s.x := rfl
@[simp] theorem State.withEq_y (v : Bool) : (s.withEq v).y = s.y := rfl
@[simp] theorem State.withEq_p0 (v : Bool) : (s.withEq v).p0 = s.p0 := rfl
@[simp] theorem State.withEq_p1 (v : Bool) : (s.withEq v).p1 = s.p1 := rfl
@[simp] theorem State.withEq_slots (v : Bool) : (s.withEq v).slots = s.slots := rfl
@[simp] theorem State.withEq_mem (v : Bool) : (s.withEq v).mem = s.mem := rfl
@[simp] theorem State.withEq_params (v : Bool) : (s.withEq v).params = s.params := rfl
@[simp] theorem State.withEq_epoch (v : Bool) : (s.withEq v).epoch = s.epoch := rfl
@[simp] theorem State.withEq_drawPort (v : Bool) : (s.withEq v).drawPort = s.drawPort := rfl
@[simp] theorem State.withEq_pending (v : Bool) : (s.withEq v).pending = s.pending := rfl
@[simp] theorem State.withEq_rdata (v : Bool) : (s.withEq v).rdata = s.rdata := rfl
@[simp] theorem State.withEq_byteAt (v : Bool) (sp' : Space) (slot' i' : Nat) :
    (s.withEq v).byteAt sp' slot' i' = s.byteAt sp' slot' i' := rfl
@[simp] theorem State.withEq_blockSize (v : Bool) : (s.withEq v).blockSize = s.blockSize := rfl
@[simp] theorem State.withEq_numBlocks (v : Bool) : (s.withEq v).numBlocks = s.numBlocks := rfl
@[simp] theorem State.withEq_shadowLen (v : Bool) : (s.withEq v).shadowLen = s.shadowLen := rfl
@[simp] theorem State.withEq_groupWidth (v : Bool) : (s.withEq v).groupWidth = s.groupWidth := rfl
@[simp] theorem State.withEq_groupsPerByte (v : Bool) : (s.withEq v).groupsPerByte = s.groupsPerByte := rfl
@[simp] theorem State.withEq_groupMask (v : Bool) : (s.withEq v).groupMask = s.groupMask := rfl
@[simp] theorem State.withEq_coverUsed (v : Bool) : (s.withEq v).coverUsed = s.coverUsed := rfl
@[simp] theorem State.withEq_slotRegs (v : Bool) (j : Nat) : (s.withEq v).slotRegs j = s.slotRegs j := rfl
@[simp] theorem State.withEq_selAt (v : Bool) (j : Nat) : (s.withEq v).selAt j = s.selAt j := rfl

@[simp] theorem State.withP0_cmd (p : Bank) : (s.withP0 p).cmd = s.cmd := rfl
@[simp] theorem State.withP0_err (p : Bank) : (s.withP0 p).err = s.err := rfl
@[simp] theorem State.withP0_esticky (p : Bank) : (s.withP0 p).esticky = s.esticky := rfl
@[simp] theorem State.withP0_einfo (p : Bank) : (s.withP0 p).einfo = s.einfo := rfl
@[simp] theorem State.withP0_flagEq (p : Bank) : (s.withP0 p).flagEq = s.flagEq := rfl
@[simp] theorem State.withP0_a (p : Bank) : (s.withP0 p).a = s.a := rfl
@[simp] theorem State.withP0_b (p : Bank) : (s.withP0 p).b = s.b := rfl
@[simp] theorem State.withP0_e (p : Bank) : (s.withP0 p).e = s.e := rfl
@[simp] theorem State.withP0_r (p : Bank) : (s.withP0 p).r = s.r := rfl
@[simp] theorem State.withP0_k (p : Bank) : (s.withP0 p).k = s.k := rfl
@[simp] theorem State.withP0_n (p : Bank) : (s.withP0 p).n = s.n := rfl
@[simp] theorem State.withP0_npix (p : Bank) : (s.withP0 p).npix = s.npix := rfl
@[simp] theorem State.withP0_blk (p : Bank) : (s.withP0 p).blk = s.blk := rfl
@[simp] theorem State.withP0_outw (p : Bank) : (s.withP0 p).outw = s.outw := rfl
@[simp] theorem State.withP0_outh (p : Bank) : (s.withP0 p).outh = s.outh := rfl
@[simp] theorem State.withP0_msel (p : Bank) : (s.withP0 p).msel = s.msel := rfl
@[simp] theorem State.withP0_maddr (p : Bank) : (s.withP0 p).maddr = s.maddr := rfl
@[simp] theorem State.withP0_sel (p : Bank) : (s.withP0 p).sel = s.sel := rfl
@[simp] theorem State.withP0_npts (p : Bank) : (s.withP0 p).npts = s.npts := rfl
@[simp] theorem State.withP0_x (p : Bank) : (s.withP0 p).x = s.x := rfl
@[simp] theorem State.withP0_y (p : Bank) : (s.withP0 p).y = s.y := rfl
@[simp] theorem State.withP0_p0 (p : Bank) : (s.withP0 p).p0 = p := rfl
@[simp] theorem State.withP0_p1 (p : Bank) : (s.withP0 p).p1 = s.p1 := rfl
@[simp] theorem State.withP0_slots (p : Bank) : (s.withP0 p).slots = s.slots := rfl
@[simp] theorem State.withP0_mem (p : Bank) : (s.withP0 p).mem = s.mem := rfl
@[simp] theorem State.withP0_params (p : Bank) : (s.withP0 p).params = s.params := rfl
@[simp] theorem State.withP0_epoch (p : Bank) : (s.withP0 p).epoch = s.epoch := rfl
@[simp] theorem State.withP0_drawPort (p : Bank) : (s.withP0 p).drawPort = s.drawPort := rfl
@[simp] theorem State.withP0_pending (p : Bank) : (s.withP0 p).pending = s.pending := rfl
@[simp] theorem State.withP0_rdata (p : Bank) : (s.withP0 p).rdata = s.rdata := rfl
@[simp] theorem State.withP0_byteAt (p : Bank) (sp' : Space) (slot' i' : Nat) :
    (s.withP0 p).byteAt sp' slot' i' = s.byteAt sp' slot' i' := rfl
@[simp] theorem State.withP0_blockSize (p : Bank) : (s.withP0 p).blockSize = s.blockSize := rfl
@[simp] theorem State.withP0_numBlocks (p : Bank) : (s.withP0 p).numBlocks = s.numBlocks := rfl
@[simp] theorem State.withP0_shadowLen (p : Bank) : (s.withP0 p).shadowLen = s.shadowLen := rfl
@[simp] theorem State.withP0_groupWidth (p : Bank) : (s.withP0 p).groupWidth = s.groupWidth := rfl
@[simp] theorem State.withP0_groupsPerByte (p : Bank) : (s.withP0 p).groupsPerByte = s.groupsPerByte := rfl
@[simp] theorem State.withP0_groupMask (p : Bank) : (s.withP0 p).groupMask = s.groupMask := rfl
@[simp] theorem State.withP0_coverUsed (p : Bank) : (s.withP0 p).coverUsed = s.coverUsed := rfl
@[simp] theorem State.withP0_slotRegs (p : Bank) (j : Nat) : (s.withP0 p).slotRegs j = s.slotRegs j := rfl
@[simp] theorem State.withP0_selAt (p : Bank) (j : Nat) : (s.withP0 p).selAt j = s.selAt j := rfl

@[simp] theorem State.withP1_cmd (p : Bank) : (s.withP1 p).cmd = s.cmd := rfl
@[simp] theorem State.withP1_err (p : Bank) : (s.withP1 p).err = s.err := rfl
@[simp] theorem State.withP1_esticky (p : Bank) : (s.withP1 p).esticky = s.esticky := rfl
@[simp] theorem State.withP1_einfo (p : Bank) : (s.withP1 p).einfo = s.einfo := rfl
@[simp] theorem State.withP1_flagEq (p : Bank) : (s.withP1 p).flagEq = s.flagEq := rfl
@[simp] theorem State.withP1_a (p : Bank) : (s.withP1 p).a = s.a := rfl
@[simp] theorem State.withP1_b (p : Bank) : (s.withP1 p).b = s.b := rfl
@[simp] theorem State.withP1_e (p : Bank) : (s.withP1 p).e = s.e := rfl
@[simp] theorem State.withP1_r (p : Bank) : (s.withP1 p).r = s.r := rfl
@[simp] theorem State.withP1_k (p : Bank) : (s.withP1 p).k = s.k := rfl
@[simp] theorem State.withP1_n (p : Bank) : (s.withP1 p).n = s.n := rfl
@[simp] theorem State.withP1_npix (p : Bank) : (s.withP1 p).npix = s.npix := rfl
@[simp] theorem State.withP1_blk (p : Bank) : (s.withP1 p).blk = s.blk := rfl
@[simp] theorem State.withP1_outw (p : Bank) : (s.withP1 p).outw = s.outw := rfl
@[simp] theorem State.withP1_outh (p : Bank) : (s.withP1 p).outh = s.outh := rfl
@[simp] theorem State.withP1_msel (p : Bank) : (s.withP1 p).msel = s.msel := rfl
@[simp] theorem State.withP1_maddr (p : Bank) : (s.withP1 p).maddr = s.maddr := rfl
@[simp] theorem State.withP1_sel (p : Bank) : (s.withP1 p).sel = s.sel := rfl
@[simp] theorem State.withP1_npts (p : Bank) : (s.withP1 p).npts = s.npts := rfl
@[simp] theorem State.withP1_x (p : Bank) : (s.withP1 p).x = s.x := rfl
@[simp] theorem State.withP1_y (p : Bank) : (s.withP1 p).y = s.y := rfl
@[simp] theorem State.withP1_p0 (p : Bank) : (s.withP1 p).p0 = s.p0 := rfl
@[simp] theorem State.withP1_p1 (p : Bank) : (s.withP1 p).p1 = p := rfl
@[simp] theorem State.withP1_slots (p : Bank) : (s.withP1 p).slots = s.slots := rfl
@[simp] theorem State.withP1_mem (p : Bank) : (s.withP1 p).mem = s.mem := rfl
@[simp] theorem State.withP1_params (p : Bank) : (s.withP1 p).params = s.params := rfl
@[simp] theorem State.withP1_epoch (p : Bank) : (s.withP1 p).epoch = s.epoch := rfl
@[simp] theorem State.withP1_drawPort (p : Bank) : (s.withP1 p).drawPort = s.drawPort := rfl
@[simp] theorem State.withP1_pending (p : Bank) : (s.withP1 p).pending = s.pending := rfl
@[simp] theorem State.withP1_rdata (p : Bank) : (s.withP1 p).rdata = s.rdata := rfl
@[simp] theorem State.withP1_byteAt (p : Bank) (sp' : Space) (slot' i' : Nat) :
    (s.withP1 p).byteAt sp' slot' i' = s.byteAt sp' slot' i' := rfl
@[simp] theorem State.withP1_blockSize (p : Bank) : (s.withP1 p).blockSize = s.blockSize := rfl
@[simp] theorem State.withP1_numBlocks (p : Bank) : (s.withP1 p).numBlocks = s.numBlocks := rfl
@[simp] theorem State.withP1_shadowLen (p : Bank) : (s.withP1 p).shadowLen = s.shadowLen := rfl
@[simp] theorem State.withP1_groupWidth (p : Bank) : (s.withP1 p).groupWidth = s.groupWidth := rfl
@[simp] theorem State.withP1_groupsPerByte (p : Bank) : (s.withP1 p).groupsPerByte = s.groupsPerByte := rfl
@[simp] theorem State.withP1_groupMask (p : Bank) : (s.withP1 p).groupMask = s.groupMask := rfl
@[simp] theorem State.withP1_coverUsed (p : Bank) : (s.withP1 p).coverUsed = s.coverUsed := rfl
@[simp] theorem State.withP1_slotRegs (p : Bank) (j : Nat) : (s.withP1 p).slotRegs j = s.slotRegs j := rfl
@[simp] theorem State.withP1_selAt (p : Bank) (j : Nat) : (s.withP1 p).selAt j = s.selAt j := rfl

@[simp] theorem State.withOut_cmd (w h : BitVec 16) : (s.withOut w h).cmd = s.cmd := rfl
@[simp] theorem State.withOut_err (w h : BitVec 16) : (s.withOut w h).err = s.err := rfl
@[simp] theorem State.withOut_esticky (w h : BitVec 16) : (s.withOut w h).esticky = s.esticky := rfl
@[simp] theorem State.withOut_einfo (w h : BitVec 16) : (s.withOut w h).einfo = s.einfo := rfl
@[simp] theorem State.withOut_flagEq (w h : BitVec 16) : (s.withOut w h).flagEq = s.flagEq := rfl
@[simp] theorem State.withOut_a (w h : BitVec 16) : (s.withOut w h).a = s.a := rfl
@[simp] theorem State.withOut_b (w h : BitVec 16) : (s.withOut w h).b = s.b := rfl
@[simp] theorem State.withOut_e (w h : BitVec 16) : (s.withOut w h).e = s.e := rfl
@[simp] theorem State.withOut_r (w h : BitVec 16) : (s.withOut w h).r = s.r := rfl
@[simp] theorem State.withOut_k (w h : BitVec 16) : (s.withOut w h).k = s.k := rfl
@[simp] theorem State.withOut_n (w h : BitVec 16) : (s.withOut w h).n = s.n := rfl
@[simp] theorem State.withOut_npix (w h : BitVec 16) : (s.withOut w h).npix = s.npix := rfl
@[simp] theorem State.withOut_blk (w h : BitVec 16) : (s.withOut w h).blk = s.blk := rfl
@[simp] theorem State.withOut_outw (w h : BitVec 16) : (s.withOut w h).outw = w := rfl
@[simp] theorem State.withOut_outh (w h : BitVec 16) : (s.withOut w h).outh = h := rfl
@[simp] theorem State.withOut_msel (w h : BitVec 16) : (s.withOut w h).msel = s.msel := rfl
@[simp] theorem State.withOut_maddr (w h : BitVec 16) : (s.withOut w h).maddr = s.maddr := rfl
@[simp] theorem State.withOut_sel (w h : BitVec 16) : (s.withOut w h).sel = s.sel := rfl
@[simp] theorem State.withOut_npts (w h : BitVec 16) : (s.withOut w h).npts = s.npts := rfl
@[simp] theorem State.withOut_x (w h : BitVec 16) : (s.withOut w h).x = s.x := rfl
@[simp] theorem State.withOut_y (w h : BitVec 16) : (s.withOut w h).y = s.y := rfl
@[simp] theorem State.withOut_p0 (w h : BitVec 16) : (s.withOut w h).p0 = s.p0 := rfl
@[simp] theorem State.withOut_p1 (w h : BitVec 16) : (s.withOut w h).p1 = s.p1 := rfl
@[simp] theorem State.withOut_slots (w h : BitVec 16) : (s.withOut w h).slots = s.slots := rfl
@[simp] theorem State.withOut_mem (w h : BitVec 16) : (s.withOut w h).mem = s.mem := rfl
@[simp] theorem State.withOut_params (w h : BitVec 16) : (s.withOut w h).params = s.params := rfl
@[simp] theorem State.withOut_epoch (w h : BitVec 16) : (s.withOut w h).epoch = s.epoch := rfl
@[simp] theorem State.withOut_drawPort (w h : BitVec 16) : (s.withOut w h).drawPort = s.drawPort := rfl
@[simp] theorem State.withOut_pending (w h : BitVec 16) : (s.withOut w h).pending = s.pending := rfl
@[simp] theorem State.withOut_rdata (w h : BitVec 16) : (s.withOut w h).rdata = s.rdata := rfl
@[simp] theorem State.withOut_byteAt (w h : BitVec 16) (sp' : Space) (slot' i' : Nat) :
    (s.withOut w h).byteAt sp' slot' i' = s.byteAt sp' slot' i' := rfl
@[simp] theorem State.withOut_blockSize (w h : BitVec 16) : (s.withOut w h).blockSize = s.blockSize := rfl
@[simp] theorem State.withOut_numBlocks (w h : BitVec 16) : (s.withOut w h).numBlocks = s.numBlocks := rfl
@[simp] theorem State.withOut_shadowLen (w h : BitVec 16) : (s.withOut w h).shadowLen = s.shadowLen := rfl
@[simp] theorem State.withOut_groupWidth (w h : BitVec 16) : (s.withOut w h).groupWidth = s.groupWidth := rfl
@[simp] theorem State.withOut_groupsPerByte (w h : BitVec 16) : (s.withOut w h).groupsPerByte = s.groupsPerByte := rfl
@[simp] theorem State.withOut_groupMask (w h : BitVec 16) : (s.withOut w h).groupMask = s.groupMask := rfl
@[simp] theorem State.withOut_coverUsed (w h : BitVec 16) : (s.withOut w h).coverUsed = s.coverUsed := rfl
@[simp] theorem State.withOut_slotRegs (w h : BitVec 16) (j : Nat) : (s.withOut w h).slotRegs j = s.slotRegs j := rfl
@[simp] theorem State.withOut_selAt (w h : BitVec 16) (j : Nat) : (s.withOut w h).selAt j = s.selAt j := rfl

@[simp] theorem State.withDrawPort_cmd (p : DrawPort) : (s.withDrawPort p).cmd = s.cmd := rfl
@[simp] theorem State.withDrawPort_err (p : DrawPort) : (s.withDrawPort p).err = s.err := rfl
@[simp] theorem State.withDrawPort_esticky (p : DrawPort) : (s.withDrawPort p).esticky = s.esticky := rfl
@[simp] theorem State.withDrawPort_einfo (p : DrawPort) : (s.withDrawPort p).einfo = s.einfo := rfl
@[simp] theorem State.withDrawPort_flagEq (p : DrawPort) : (s.withDrawPort p).flagEq = s.flagEq := rfl
@[simp] theorem State.withDrawPort_a (p : DrawPort) : (s.withDrawPort p).a = s.a := rfl
@[simp] theorem State.withDrawPort_b (p : DrawPort) : (s.withDrawPort p).b = s.b := rfl
@[simp] theorem State.withDrawPort_e (p : DrawPort) : (s.withDrawPort p).e = s.e := rfl
@[simp] theorem State.withDrawPort_r (p : DrawPort) : (s.withDrawPort p).r = s.r := rfl
@[simp] theorem State.withDrawPort_k (p : DrawPort) : (s.withDrawPort p).k = s.k := rfl
@[simp] theorem State.withDrawPort_n (p : DrawPort) : (s.withDrawPort p).n = s.n := rfl
@[simp] theorem State.withDrawPort_npix (p : DrawPort) : (s.withDrawPort p).npix = s.npix := rfl
@[simp] theorem State.withDrawPort_blk (p : DrawPort) : (s.withDrawPort p).blk = s.blk := rfl
@[simp] theorem State.withDrawPort_outw (p : DrawPort) : (s.withDrawPort p).outw = s.outw := rfl
@[simp] theorem State.withDrawPort_outh (p : DrawPort) : (s.withDrawPort p).outh = s.outh := rfl
@[simp] theorem State.withDrawPort_msel (p : DrawPort) : (s.withDrawPort p).msel = s.msel := rfl
@[simp] theorem State.withDrawPort_maddr (p : DrawPort) : (s.withDrawPort p).maddr = s.maddr := rfl
@[simp] theorem State.withDrawPort_sel (p : DrawPort) : (s.withDrawPort p).sel = s.sel := rfl
@[simp] theorem State.withDrawPort_npts (p : DrawPort) : (s.withDrawPort p).npts = s.npts := rfl
@[simp] theorem State.withDrawPort_x (p : DrawPort) : (s.withDrawPort p).x = s.x := rfl
@[simp] theorem State.withDrawPort_y (p : DrawPort) : (s.withDrawPort p).y = s.y := rfl
@[simp] theorem State.withDrawPort_p0 (p : DrawPort) : (s.withDrawPort p).p0 = s.p0 := rfl
@[simp] theorem State.withDrawPort_p1 (p : DrawPort) : (s.withDrawPort p).p1 = s.p1 := rfl
@[simp] theorem State.withDrawPort_slots (p : DrawPort) : (s.withDrawPort p).slots = s.slots := rfl
@[simp] theorem State.withDrawPort_mem (p : DrawPort) : (s.withDrawPort p).mem = s.mem := rfl
@[simp] theorem State.withDrawPort_params (p : DrawPort) : (s.withDrawPort p).params = s.params := rfl
@[simp] theorem State.withDrawPort_epoch (p : DrawPort) : (s.withDrawPort p).epoch = s.epoch := rfl
@[simp] theorem State.withDrawPort_drawPort (p : DrawPort) : (s.withDrawPort p).drawPort = p := rfl
@[simp] theorem State.withDrawPort_pending (p : DrawPort) : (s.withDrawPort p).pending = s.pending := rfl
@[simp] theorem State.withDrawPort_rdata (p : DrawPort) : (s.withDrawPort p).rdata = s.rdata := rfl
@[simp] theorem State.withDrawPort_byteAt (p : DrawPort) (sp' : Space) (slot' i' : Nat) :
    (s.withDrawPort p).byteAt sp' slot' i' = s.byteAt sp' slot' i' := rfl
@[simp] theorem State.withDrawPort_blockSize (p : DrawPort) : (s.withDrawPort p).blockSize = s.blockSize := rfl
@[simp] theorem State.withDrawPort_numBlocks (p : DrawPort) : (s.withDrawPort p).numBlocks = s.numBlocks := rfl
@[simp] theorem State.withDrawPort_shadowLen (p : DrawPort) : (s.withDrawPort p).shadowLen = s.shadowLen := rfl
@[simp] theorem State.withDrawPort_groupWidth (p : DrawPort) : (s.withDrawPort p).groupWidth = s.groupWidth := rfl
@[simp] theorem State.withDrawPort_groupsPerByte (p : DrawPort) : (s.withDrawPort p).groupsPerByte = s.groupsPerByte := rfl
@[simp] theorem State.withDrawPort_groupMask (p : DrawPort) : (s.withDrawPort p).groupMask = s.groupMask := rfl
@[simp] theorem State.withDrawPort_coverUsed (p : DrawPort) : (s.withDrawPort p).coverUsed = s.coverUsed := rfl
@[simp] theorem State.withDrawPort_slotRegs (p : DrawPort) (j : Nat) : (s.withDrawPort p).slotRegs j = s.slotRegs j := rfl
@[simp] theorem State.withDrawPort_selAt (p : DrawPort) (j : Nat) : (s.withDrawPort p).selAt j = s.selAt j := rfl

@[simp] theorem State.updateSlot_cmd (i : Nat) (f : Slot → Slot) : (s.updateSlot i f).cmd = s.cmd := rfl
@[simp] theorem State.updateSlot_err (i : Nat) (f : Slot → Slot) : (s.updateSlot i f).err = s.err := rfl
@[simp] theorem State.updateSlot_esticky (i : Nat) (f : Slot → Slot) : (s.updateSlot i f).esticky = s.esticky := rfl
@[simp] theorem State.updateSlot_einfo (i : Nat) (f : Slot → Slot) : (s.updateSlot i f).einfo = s.einfo := rfl
@[simp] theorem State.updateSlot_flagEq (i : Nat) (f : Slot → Slot) : (s.updateSlot i f).flagEq = s.flagEq := rfl
@[simp] theorem State.updateSlot_a (i : Nat) (f : Slot → Slot) : (s.updateSlot i f).a = s.a := rfl
@[simp] theorem State.updateSlot_b (i : Nat) (f : Slot → Slot) : (s.updateSlot i f).b = s.b := rfl
@[simp] theorem State.updateSlot_e (i : Nat) (f : Slot → Slot) : (s.updateSlot i f).e = s.e := rfl
@[simp] theorem State.updateSlot_r (i : Nat) (f : Slot → Slot) : (s.updateSlot i f).r = s.r := rfl
@[simp] theorem State.updateSlot_k (i : Nat) (f : Slot → Slot) : (s.updateSlot i f).k = s.k := rfl
@[simp] theorem State.updateSlot_n (i : Nat) (f : Slot → Slot) : (s.updateSlot i f).n = s.n := rfl
@[simp] theorem State.updateSlot_npix (i : Nat) (f : Slot → Slot) : (s.updateSlot i f).npix = s.npix := rfl
@[simp] theorem State.updateSlot_blk (i : Nat) (f : Slot → Slot) : (s.updateSlot i f).blk = s.blk := rfl
@[simp] theorem State.updateSlot_outw (i : Nat) (f : Slot → Slot) : (s.updateSlot i f).outw = s.outw := rfl
@[simp] theorem State.updateSlot_outh (i : Nat) (f : Slot → Slot) : (s.updateSlot i f).outh = s.outh := rfl
@[simp] theorem State.updateSlot_msel (i : Nat) (f : Slot → Slot) : (s.updateSlot i f).msel = s.msel := rfl
@[simp] theorem State.updateSlot_maddr (i : Nat) (f : Slot → Slot) : (s.updateSlot i f).maddr = s.maddr := rfl
@[simp] theorem State.updateSlot_sel (i : Nat) (f : Slot → Slot) : (s.updateSlot i f).sel = s.sel := rfl
@[simp] theorem State.updateSlot_npts (i : Nat) (f : Slot → Slot) : (s.updateSlot i f).npts = s.npts := rfl
@[simp] theorem State.updateSlot_x (i : Nat) (f : Slot → Slot) : (s.updateSlot i f).x = s.x := rfl
@[simp] theorem State.updateSlot_y (i : Nat) (f : Slot → Slot) : (s.updateSlot i f).y = s.y := rfl
@[simp] theorem State.updateSlot_p0 (i : Nat) (f : Slot → Slot) : (s.updateSlot i f).p0 = s.p0 := rfl
@[simp] theorem State.updateSlot_p1 (i : Nat) (f : Slot → Slot) : (s.updateSlot i f).p1 = s.p1 := rfl
@[simp] theorem State.updateSlot_slots (i : Nat) (f : Slot → Slot) : (s.updateSlot i f).slots = s.slots.modify i f := rfl
@[simp] theorem State.updateSlot_mem (i : Nat) (f : Slot → Slot) : (s.updateSlot i f).mem = s.mem := rfl
@[simp] theorem State.updateSlot_params (i : Nat) (f : Slot → Slot) : (s.updateSlot i f).params = s.params := rfl
@[simp] theorem State.updateSlot_epoch (i : Nat) (f : Slot → Slot) : (s.updateSlot i f).epoch = s.epoch := rfl
@[simp] theorem State.updateSlot_drawPort (i : Nat) (f : Slot → Slot) : (s.updateSlot i f).drawPort = s.drawPort := rfl
@[simp] theorem State.updateSlot_pending (i : Nat) (f : Slot → Slot) : (s.updateSlot i f).pending = s.pending := rfl
@[simp] theorem State.updateSlot_rdata (i : Nat) (f : Slot → Slot) : (s.updateSlot i f).rdata = s.rdata := rfl
@[simp] theorem State.updateSlot_byteAt (i : Nat) (f : Slot → Slot) (sp' : Space) (slot' i' : Nat) :
    (s.updateSlot i f).byteAt sp' slot' i' = s.byteAt sp' slot' i' := rfl
@[simp] theorem State.updateSlot_blockSize (i : Nat) (f : Slot → Slot) : (s.updateSlot i f).blockSize = s.blockSize := rfl
@[simp] theorem State.updateSlot_numBlocks (i : Nat) (f : Slot → Slot) : (s.updateSlot i f).numBlocks = s.numBlocks := rfl
@[simp] theorem State.updateSlot_shadowLen (i : Nat) (f : Slot → Slot) : (s.updateSlot i f).shadowLen = s.shadowLen := rfl
@[simp] theorem State.updateSlot_groupWidth (i : Nat) (f : Slot → Slot) : (s.updateSlot i f).groupWidth = s.groupWidth := rfl
@[simp] theorem State.updateSlot_groupsPerByte (i : Nat) (f : Slot → Slot) : (s.updateSlot i f).groupsPerByte = s.groupsPerByte := rfl
@[simp] theorem State.updateSlot_groupMask (i : Nat) (f : Slot → Slot) : (s.updateSlot i f).groupMask = s.groupMask := rfl
@[simp] theorem State.updateSlot_coverUsed (i : Nat) (f : Slot → Slot) : (s.updateSlot i f).coverUsed = s.coverUsed := rfl
@[simp] theorem State.updateSlot_selAt (i : Nat) (f : Slot → Slot) (j : Nat) : (s.updateSlot i f).selAt j = s.selAt j := rfl

@[simp] theorem State.withCid_cmd (i : Nat) (v : Byte) : (s.withCid i v).cmd = s.cmd := rfl
@[simp] theorem State.withCid_err (i : Nat) (v : Byte) : (s.withCid i v).err = s.err := rfl
@[simp] theorem State.withCid_esticky (i : Nat) (v : Byte) : (s.withCid i v).esticky = s.esticky := rfl
@[simp] theorem State.withCid_einfo (i : Nat) (v : Byte) : (s.withCid i v).einfo = s.einfo := rfl
@[simp] theorem State.withCid_flagEq (i : Nat) (v : Byte) : (s.withCid i v).flagEq = s.flagEq := rfl
@[simp] theorem State.withCid_a (i : Nat) (v : Byte) : (s.withCid i v).a = s.a := rfl
@[simp] theorem State.withCid_b (i : Nat) (v : Byte) : (s.withCid i v).b = s.b := rfl
@[simp] theorem State.withCid_e (i : Nat) (v : Byte) : (s.withCid i v).e = s.e := rfl
@[simp] theorem State.withCid_r (i : Nat) (v : Byte) : (s.withCid i v).r = s.r := rfl
@[simp] theorem State.withCid_k (i : Nat) (v : Byte) : (s.withCid i v).k = s.k := rfl
@[simp] theorem State.withCid_n (i : Nat) (v : Byte) : (s.withCid i v).n = s.n := rfl
@[simp] theorem State.withCid_npix (i : Nat) (v : Byte) : (s.withCid i v).npix = s.npix := rfl
@[simp] theorem State.withCid_blk (i : Nat) (v : Byte) : (s.withCid i v).blk = s.blk := rfl
@[simp] theorem State.withCid_outw (i : Nat) (v : Byte) : (s.withCid i v).outw = s.outw := rfl
@[simp] theorem State.withCid_outh (i : Nat) (v : Byte) : (s.withCid i v).outh = s.outh := rfl
@[simp] theorem State.withCid_msel (i : Nat) (v : Byte) : (s.withCid i v).msel = s.msel := rfl
@[simp] theorem State.withCid_maddr (i : Nat) (v : Byte) : (s.withCid i v).maddr = s.maddr := rfl
@[simp] theorem State.withCid_sel (i : Nat) (v : Byte) : (s.withCid i v).sel = s.sel := rfl
@[simp] theorem State.withCid_npts (i : Nat) (v : Byte) : (s.withCid i v).npts = s.npts := rfl
@[simp] theorem State.withCid_x (i : Nat) (v : Byte) : (s.withCid i v).x = s.x := rfl
@[simp] theorem State.withCid_y (i : Nat) (v : Byte) : (s.withCid i v).y = s.y := rfl
@[simp] theorem State.withCid_p0 (i : Nat) (v : Byte) : (s.withCid i v).p0 = s.p0 := rfl
@[simp] theorem State.withCid_p1 (i : Nat) (v : Byte) : (s.withCid i v).p1 = s.p1 := rfl
@[simp] theorem State.withCid_slots (i : Nat) (v : Byte) : (s.withCid i v).slots = s.slots.modify i fun t => { t with cid := v } := rfl
@[simp] theorem State.withCid_mem (i : Nat) (v : Byte) : (s.withCid i v).mem = s.mem := rfl
@[simp] theorem State.withCid_params (i : Nat) (v : Byte) : (s.withCid i v).params = s.params := rfl
@[simp] theorem State.withCid_epoch (i : Nat) (v : Byte) : (s.withCid i v).epoch = s.epoch := rfl
@[simp] theorem State.withCid_drawPort (i : Nat) (v : Byte) : (s.withCid i v).drawPort = s.drawPort := rfl
@[simp] theorem State.withCid_pending (i : Nat) (v : Byte) : (s.withCid i v).pending = s.pending := rfl
@[simp] theorem State.withCid_rdata (i : Nat) (v : Byte) : (s.withCid i v).rdata = s.rdata := rfl
@[simp] theorem State.withCid_byteAt (i : Nat) (v : Byte) (sp' : Space) (slot' i' : Nat) :
    (s.withCid i v).byteAt sp' slot' i' = s.byteAt sp' slot' i' := rfl
@[simp] theorem State.withCid_blockSize (i : Nat) (v : Byte) : (s.withCid i v).blockSize = s.blockSize := rfl
@[simp] theorem State.withCid_numBlocks (i : Nat) (v : Byte) : (s.withCid i v).numBlocks = s.numBlocks := rfl
@[simp] theorem State.withCid_shadowLen (i : Nat) (v : Byte) : (s.withCid i v).shadowLen = s.shadowLen := rfl
@[simp] theorem State.withCid_groupWidth (i : Nat) (v : Byte) : (s.withCid i v).groupWidth = s.groupWidth := rfl
@[simp] theorem State.withCid_groupsPerByte (i : Nat) (v : Byte) : (s.withCid i v).groupsPerByte = s.groupsPerByte := rfl
@[simp] theorem State.withCid_groupMask (i : Nat) (v : Byte) : (s.withCid i v).groupMask = s.groupMask := rfl
@[simp] theorem State.withCid_coverUsed (i : Nat) (v : Byte) : (s.withCid i v).coverUsed = s.coverUsed := rfl
@[simp] theorem State.withCid_selAt (i : Nat) (v : Byte) (j : Nat) : (s.withCid i v).selAt j = s.selAt j := rfl

@[simp] theorem State.storeFrom_cmd (sp : Space) (slot i : Nat) (bytes : List Byte) : (s.storeFrom sp slot i bytes).cmd = s.cmd := rfl
@[simp] theorem State.storeFrom_err (sp : Space) (slot i : Nat) (bytes : List Byte) : (s.storeFrom sp slot i bytes).err = s.err := rfl
@[simp] theorem State.storeFrom_esticky (sp : Space) (slot i : Nat) (bytes : List Byte) : (s.storeFrom sp slot i bytes).esticky = s.esticky := rfl
@[simp] theorem State.storeFrom_einfo (sp : Space) (slot i : Nat) (bytes : List Byte) : (s.storeFrom sp slot i bytes).einfo = s.einfo := rfl
@[simp] theorem State.storeFrom_flagEq (sp : Space) (slot i : Nat) (bytes : List Byte) : (s.storeFrom sp slot i bytes).flagEq = s.flagEq := rfl
@[simp] theorem State.storeFrom_a (sp : Space) (slot i : Nat) (bytes : List Byte) : (s.storeFrom sp slot i bytes).a = s.a := rfl
@[simp] theorem State.storeFrom_b (sp : Space) (slot i : Nat) (bytes : List Byte) : (s.storeFrom sp slot i bytes).b = s.b := rfl
@[simp] theorem State.storeFrom_e (sp : Space) (slot i : Nat) (bytes : List Byte) : (s.storeFrom sp slot i bytes).e = s.e := rfl
@[simp] theorem State.storeFrom_r (sp : Space) (slot i : Nat) (bytes : List Byte) : (s.storeFrom sp slot i bytes).r = s.r := rfl
@[simp] theorem State.storeFrom_k (sp : Space) (slot i : Nat) (bytes : List Byte) : (s.storeFrom sp slot i bytes).k = s.k := rfl
@[simp] theorem State.storeFrom_n (sp : Space) (slot i : Nat) (bytes : List Byte) : (s.storeFrom sp slot i bytes).n = s.n := rfl
@[simp] theorem State.storeFrom_npix (sp : Space) (slot i : Nat) (bytes : List Byte) : (s.storeFrom sp slot i bytes).npix = s.npix := rfl
@[simp] theorem State.storeFrom_blk (sp : Space) (slot i : Nat) (bytes : List Byte) : (s.storeFrom sp slot i bytes).blk = s.blk := rfl
@[simp] theorem State.storeFrom_outw (sp : Space) (slot i : Nat) (bytes : List Byte) : (s.storeFrom sp slot i bytes).outw = s.outw := rfl
@[simp] theorem State.storeFrom_outh (sp : Space) (slot i : Nat) (bytes : List Byte) : (s.storeFrom sp slot i bytes).outh = s.outh := rfl
@[simp] theorem State.storeFrom_msel (sp : Space) (slot i : Nat) (bytes : List Byte) : (s.storeFrom sp slot i bytes).msel = s.msel := rfl
@[simp] theorem State.storeFrom_maddr (sp : Space) (slot i : Nat) (bytes : List Byte) : (s.storeFrom sp slot i bytes).maddr = s.maddr := rfl
@[simp] theorem State.storeFrom_sel (sp : Space) (slot i : Nat) (bytes : List Byte) : (s.storeFrom sp slot i bytes).sel = s.sel := rfl
@[simp] theorem State.storeFrom_npts (sp : Space) (slot i : Nat) (bytes : List Byte) : (s.storeFrom sp slot i bytes).npts = s.npts := rfl
@[simp] theorem State.storeFrom_x (sp : Space) (slot i : Nat) (bytes : List Byte) : (s.storeFrom sp slot i bytes).x = s.x := rfl
@[simp] theorem State.storeFrom_y (sp : Space) (slot i : Nat) (bytes : List Byte) : (s.storeFrom sp slot i bytes).y = s.y := rfl
@[simp] theorem State.storeFrom_p0 (sp : Space) (slot i : Nat) (bytes : List Byte) : (s.storeFrom sp slot i bytes).p0 = s.p0 := rfl
@[simp] theorem State.storeFrom_p1 (sp : Space) (slot i : Nat) (bytes : List Byte) : (s.storeFrom sp slot i bytes).p1 = s.p1 := rfl
@[simp] theorem State.storeFrom_slots (sp : Space) (slot i : Nat) (bytes : List Byte) : (s.storeFrom sp slot i bytes).slots = s.slots := rfl
@[simp] theorem State.storeFrom_mem (sp : Space) (slot i : Nat) (bytes : List Byte) : (s.storeFrom sp slot i bytes).mem = splice s.mem (cellKey sp slot i) bytes := rfl
@[simp] theorem State.storeFrom_params (sp : Space) (slot i : Nat) (bytes : List Byte) : (s.storeFrom sp slot i bytes).params = s.params := rfl
@[simp] theorem State.storeFrom_epoch (sp : Space) (slot i : Nat) (bytes : List Byte) : (s.storeFrom sp slot i bytes).epoch = s.epoch := rfl
@[simp] theorem State.storeFrom_drawPort (sp : Space) (slot i : Nat) (bytes : List Byte) : (s.storeFrom sp slot i bytes).drawPort = s.drawPort := rfl
@[simp] theorem State.storeFrom_pending (sp : Space) (slot i : Nat) (bytes : List Byte) : (s.storeFrom sp slot i bytes).pending = s.pending := rfl
@[simp] theorem State.storeFrom_rdata (sp : Space) (slot i : Nat) (bytes : List Byte) : (s.storeFrom sp slot i bytes).rdata = s.rdata := rfl
@[simp] theorem State.storeFrom_blockSize (sp : Space) (slot i : Nat) (bytes : List Byte) : (s.storeFrom sp slot i bytes).blockSize = s.blockSize := rfl
@[simp] theorem State.storeFrom_numBlocks (sp : Space) (slot i : Nat) (bytes : List Byte) : (s.storeFrom sp slot i bytes).numBlocks = s.numBlocks := rfl
@[simp] theorem State.storeFrom_shadowLen (sp : Space) (slot i : Nat) (bytes : List Byte) : (s.storeFrom sp slot i bytes).shadowLen = s.shadowLen := rfl
@[simp] theorem State.storeFrom_groupWidth (sp : Space) (slot i : Nat) (bytes : List Byte) : (s.storeFrom sp slot i bytes).groupWidth = s.groupWidth := rfl
@[simp] theorem State.storeFrom_groupsPerByte (sp : Space) (slot i : Nat) (bytes : List Byte) : (s.storeFrom sp slot i bytes).groupsPerByte = s.groupsPerByte := rfl
@[simp] theorem State.storeFrom_groupMask (sp : Space) (slot i : Nat) (bytes : List Byte) : (s.storeFrom sp slot i bytes).groupMask = s.groupMask := rfl
@[simp] theorem State.storeFrom_coverUsed (sp : Space) (slot i : Nat) (bytes : List Byte) : (s.storeFrom sp slot i bytes).coverUsed = s.coverUsed := rfl
@[simp] theorem State.storeFrom_slotRegs (sp : Space) (slot i : Nat) (bytes : List Byte) (j : Nat) : (s.storeFrom sp slot i bytes).slotRegs j = s.slotRegs j := rfl
@[simp] theorem State.storeFrom_selAt (sp : Space) (slot i : Nat) (bytes : List Byte) (j : Nat) : (s.storeFrom sp slot i bytes).selAt j = s.selAt j := rfl

@[simp] theorem State.fill_cmd (sp : Space) (slot : Nat) (bytes : List Byte) : (s.fill sp slot bytes).cmd = s.cmd := rfl
@[simp] theorem State.fill_err (sp : Space) (slot : Nat) (bytes : List Byte) : (s.fill sp slot bytes).err = s.err := rfl
@[simp] theorem State.fill_esticky (sp : Space) (slot : Nat) (bytes : List Byte) : (s.fill sp slot bytes).esticky = s.esticky := rfl
@[simp] theorem State.fill_einfo (sp : Space) (slot : Nat) (bytes : List Byte) : (s.fill sp slot bytes).einfo = s.einfo := rfl
@[simp] theorem State.fill_flagEq (sp : Space) (slot : Nat) (bytes : List Byte) : (s.fill sp slot bytes).flagEq = s.flagEq := rfl
@[simp] theorem State.fill_a (sp : Space) (slot : Nat) (bytes : List Byte) : (s.fill sp slot bytes).a = s.a := rfl
@[simp] theorem State.fill_b (sp : Space) (slot : Nat) (bytes : List Byte) : (s.fill sp slot bytes).b = s.b := rfl
@[simp] theorem State.fill_e (sp : Space) (slot : Nat) (bytes : List Byte) : (s.fill sp slot bytes).e = s.e := rfl
@[simp] theorem State.fill_r (sp : Space) (slot : Nat) (bytes : List Byte) : (s.fill sp slot bytes).r = s.r := rfl
@[simp] theorem State.fill_k (sp : Space) (slot : Nat) (bytes : List Byte) : (s.fill sp slot bytes).k = s.k := rfl
@[simp] theorem State.fill_n (sp : Space) (slot : Nat) (bytes : List Byte) : (s.fill sp slot bytes).n = s.n := rfl
@[simp] theorem State.fill_npix (sp : Space) (slot : Nat) (bytes : List Byte) : (s.fill sp slot bytes).npix = s.npix := rfl
@[simp] theorem State.fill_blk (sp : Space) (slot : Nat) (bytes : List Byte) : (s.fill sp slot bytes).blk = s.blk := rfl
@[simp] theorem State.fill_outw (sp : Space) (slot : Nat) (bytes : List Byte) : (s.fill sp slot bytes).outw = s.outw := rfl
@[simp] theorem State.fill_outh (sp : Space) (slot : Nat) (bytes : List Byte) : (s.fill sp slot bytes).outh = s.outh := rfl
@[simp] theorem State.fill_msel (sp : Space) (slot : Nat) (bytes : List Byte) : (s.fill sp slot bytes).msel = s.msel := rfl
@[simp] theorem State.fill_maddr (sp : Space) (slot : Nat) (bytes : List Byte) : (s.fill sp slot bytes).maddr = s.maddr := rfl
@[simp] theorem State.fill_sel (sp : Space) (slot : Nat) (bytes : List Byte) : (s.fill sp slot bytes).sel = s.sel := rfl
@[simp] theorem State.fill_npts (sp : Space) (slot : Nat) (bytes : List Byte) : (s.fill sp slot bytes).npts = s.npts := rfl
@[simp] theorem State.fill_x (sp : Space) (slot : Nat) (bytes : List Byte) : (s.fill sp slot bytes).x = s.x := rfl
@[simp] theorem State.fill_y (sp : Space) (slot : Nat) (bytes : List Byte) : (s.fill sp slot bytes).y = s.y := rfl
@[simp] theorem State.fill_p0 (sp : Space) (slot : Nat) (bytes : List Byte) : (s.fill sp slot bytes).p0 = s.p0 := rfl
@[simp] theorem State.fill_p1 (sp : Space) (slot : Nat) (bytes : List Byte) : (s.fill sp slot bytes).p1 = s.p1 := rfl
@[simp] theorem State.fill_slots (sp : Space) (slot : Nat) (bytes : List Byte) : (s.fill sp slot bytes).slots = s.slots := rfl
@[simp] theorem State.fill_mem (sp : Space) (slot : Nat) (bytes : List Byte) : (s.fill sp slot bytes).mem = splice s.mem (cellKey sp slot 0) bytes := rfl
@[simp] theorem State.fill_params (sp : Space) (slot : Nat) (bytes : List Byte) : (s.fill sp slot bytes).params = s.params := rfl
@[simp] theorem State.fill_epoch (sp : Space) (slot : Nat) (bytes : List Byte) : (s.fill sp slot bytes).epoch = s.epoch := rfl
@[simp] theorem State.fill_drawPort (sp : Space) (slot : Nat) (bytes : List Byte) : (s.fill sp slot bytes).drawPort = s.drawPort := rfl
@[simp] theorem State.fill_pending (sp : Space) (slot : Nat) (bytes : List Byte) : (s.fill sp slot bytes).pending = s.pending := rfl
@[simp] theorem State.fill_rdata (sp : Space) (slot : Nat) (bytes : List Byte) : (s.fill sp slot bytes).rdata = s.rdata := rfl
@[simp] theorem State.fill_blockSize (sp : Space) (slot : Nat) (bytes : List Byte) : (s.fill sp slot bytes).blockSize = s.blockSize := rfl
@[simp] theorem State.fill_numBlocks (sp : Space) (slot : Nat) (bytes : List Byte) : (s.fill sp slot bytes).numBlocks = s.numBlocks := rfl
@[simp] theorem State.fill_shadowLen (sp : Space) (slot : Nat) (bytes : List Byte) : (s.fill sp slot bytes).shadowLen = s.shadowLen := rfl
@[simp] theorem State.fill_groupWidth (sp : Space) (slot : Nat) (bytes : List Byte) : (s.fill sp slot bytes).groupWidth = s.groupWidth := rfl
@[simp] theorem State.fill_groupsPerByte (sp : Space) (slot : Nat) (bytes : List Byte) : (s.fill sp slot bytes).groupsPerByte = s.groupsPerByte := rfl
@[simp] theorem State.fill_groupMask (sp : Space) (slot : Nat) (bytes : List Byte) : (s.fill sp slot bytes).groupMask = s.groupMask := rfl
@[simp] theorem State.fill_coverUsed (sp : Space) (slot : Nat) (bytes : List Byte) : (s.fill sp slot bytes).coverUsed = s.coverUsed := rfl
@[simp] theorem State.fill_slotRegs (sp : Space) (slot : Nat) (bytes : List Byte) (j : Nat) : (s.fill sp slot bytes).slotRegs j = s.slotRegs j := rfl
@[simp] theorem State.fill_selAt (sp : Space) (slot : Nat) (bytes : List Byte) (j : Nat) : (s.fill sp slot bytes).selAt j = s.selAt j := rfl

@[simp] theorem State.bumpMaddr_cmd : (s.bumpMaddr).cmd = s.cmd := rfl
@[simp] theorem State.bumpMaddr_err : (s.bumpMaddr).err = s.err := rfl
@[simp] theorem State.bumpMaddr_esticky : (s.bumpMaddr).esticky = s.esticky := rfl
@[simp] theorem State.bumpMaddr_einfo : (s.bumpMaddr).einfo = s.einfo := rfl
@[simp] theorem State.bumpMaddr_flagEq : (s.bumpMaddr).flagEq = s.flagEq := rfl
@[simp] theorem State.bumpMaddr_a : (s.bumpMaddr).a = s.a := rfl
@[simp] theorem State.bumpMaddr_b : (s.bumpMaddr).b = s.b := rfl
@[simp] theorem State.bumpMaddr_e : (s.bumpMaddr).e = s.e := rfl
@[simp] theorem State.bumpMaddr_r : (s.bumpMaddr).r = s.r := rfl
@[simp] theorem State.bumpMaddr_k : (s.bumpMaddr).k = s.k := rfl
@[simp] theorem State.bumpMaddr_n : (s.bumpMaddr).n = s.n := rfl
@[simp] theorem State.bumpMaddr_npix : (s.bumpMaddr).npix = s.npix := rfl
@[simp] theorem State.bumpMaddr_blk : (s.bumpMaddr).blk = s.blk := rfl
@[simp] theorem State.bumpMaddr_outw : (s.bumpMaddr).outw = s.outw := rfl
@[simp] theorem State.bumpMaddr_outh : (s.bumpMaddr).outh = s.outh := rfl
@[simp] theorem State.bumpMaddr_msel : (s.bumpMaddr).msel = s.msel := rfl
@[simp] theorem State.bumpMaddr_maddr : (s.bumpMaddr).maddr = s.maddr + 1#32 := rfl
@[simp] theorem State.bumpMaddr_sel : (s.bumpMaddr).sel = s.sel := rfl
@[simp] theorem State.bumpMaddr_npts : (s.bumpMaddr).npts = s.npts := rfl
@[simp] theorem State.bumpMaddr_x : (s.bumpMaddr).x = s.x := rfl
@[simp] theorem State.bumpMaddr_y : (s.bumpMaddr).y = s.y := rfl
@[simp] theorem State.bumpMaddr_p0 : (s.bumpMaddr).p0 = s.p0 := rfl
@[simp] theorem State.bumpMaddr_p1 : (s.bumpMaddr).p1 = s.p1 := rfl
@[simp] theorem State.bumpMaddr_slots : (s.bumpMaddr).slots = s.slots := rfl
@[simp] theorem State.bumpMaddr_mem : (s.bumpMaddr).mem = s.mem := rfl
@[simp] theorem State.bumpMaddr_params : (s.bumpMaddr).params = s.params := rfl
@[simp] theorem State.bumpMaddr_epoch : (s.bumpMaddr).epoch = s.epoch := rfl
@[simp] theorem State.bumpMaddr_drawPort : (s.bumpMaddr).drawPort = s.drawPort := rfl
@[simp] theorem State.bumpMaddr_pending : (s.bumpMaddr).pending = s.pending := rfl
@[simp] theorem State.bumpMaddr_rdata : (s.bumpMaddr).rdata = s.rdata := rfl
@[simp] theorem State.bumpMaddr_byteAt (sp' : Space) (slot' i' : Nat) :
    (s.bumpMaddr).byteAt sp' slot' i' = s.byteAt sp' slot' i' := rfl
@[simp] theorem State.bumpMaddr_blockSize : (s.bumpMaddr).blockSize = s.blockSize := rfl
@[simp] theorem State.bumpMaddr_numBlocks : (s.bumpMaddr).numBlocks = s.numBlocks := rfl
@[simp] theorem State.bumpMaddr_shadowLen : (s.bumpMaddr).shadowLen = s.shadowLen := rfl
@[simp] theorem State.bumpMaddr_groupWidth : (s.bumpMaddr).groupWidth = s.groupWidth := rfl
@[simp] theorem State.bumpMaddr_groupsPerByte : (s.bumpMaddr).groupsPerByte = s.groupsPerByte := rfl
@[simp] theorem State.bumpMaddr_groupMask : (s.bumpMaddr).groupMask = s.groupMask := rfl
@[simp] theorem State.bumpMaddr_coverUsed : (s.bumpMaddr).coverUsed = s.coverUsed := rfl
@[simp] theorem State.bumpMaddr_slotRegs (j : Nat) : (s.bumpMaddr).slotRegs j = s.slotRegs j := rfl
@[simp] theorem State.bumpMaddr_selAt (j : Nat) : (s.bumpMaddr).selAt j = s.selAt j := rfl

end

end Sys2Proof.Machine
end

