-- ==== Sys2Proof/Laws/Memory.lean ====
section
/-! SUPPORT. The memory: what one splice does to every key, that it keeps the canonical form, that canonical memories
which read alike are equal, and what a store or a fill does to every byte (20_memory.md R62, R63). -/

namespace Sys2Proof.Machine

theorem lookup_append (m m' : Memory) (key : Nat) : lookup (m ++ m') key = (lookup m key).or (lookup m' key) := by
  induction m with
  | nil => simp [lookup]
  | cons p rest ih =>
    obtain ⟨k, v⟩ := p
    by_cases h : k = key <;> simp [lookup, h, ih]

theorem lookup_filter (m : Memory) (f : Nat → Bool) (key : Nat) :
    lookup (m.filter fun p => f p.1) key = if f key then lookup m key else none := by
  induction m with
  | nil => simp [lookup]
  | cons p rest ih =>
    obtain ⟨k, v⟩ := p
    by_cases hk : k = key
    · subst hk
      by_cases hf : f k <;> simp [lookup, hf, ih]
    · by_cases hf : f k <;> simp [lookup, hf, hk, ih]

theorem lookup_cellsFrom (base : Nat) (bytes : List Byte) (key : Nat) :
    lookup (cellsFrom base bytes) key = if base ≤ key then bytes[key - base]? else none := by
  induction bytes generalizing base with
  | nil => simp [cellsFrom, lookup]
  | cons v rest ih =>
    rw [cellsFrom, lookup, ih]
    by_cases h : base = key
    · simp [h]
    · by_cases h2 : base ≤ key
      · have h3 : base + 1 ≤ key := by omega
        obtain ⟨d, rfl⟩ := Nat.exists_eq_add_of_le h3
        have e1 : base + 1 + d - base = d + 1 := by omega
        have e2 : base + 1 + d - (base + 1) = d := by omega
        simp [h, e1, e2, h2]
      · have h3 : ¬ base + 1 ≤ key := by omega
        simp [h, h2, h3]

/-- What one splice does: the run of keys holds the new bytes, every other key is as before. -/
theorem lookup_splice (m : Memory) (base : Nat) (bytes : List Byte) (key : Nat) :
    lookup (splice m base bytes) key =
      if base ≤ key ∧ key < base + bytes.length then bytes[key - base]? else lookup m key := by
  have h1 := lookup_filter m (fun k => decide (k < base)) key
  have h2 := lookup_filter m (fun k => decide (base + bytes.length ≤ k)) key
  rw [splice, lookup_append, lookup_append, h1, h2, lookup_cellsFrom]
  by_cases ha : key < base
  · have : ¬ base ≤ key := by omega
    have hb : ¬ base + bytes.length ≤ key := by omega
    simp [ha, this, hb]
  · by_cases hb : base + bytes.length ≤ key
    · have hlen : bytes.length ≤ key - base := by omega
      have h3 : ¬ key < base + bytes.length := by omega
      simp [ha, hb, h3, List.getElem?_eq_none hlen]
    · have h3 : base ≤ key := by omega
      have h4 : key < base + bytes.length := by omega
      simp [ha, hb, h3, h4]

theorem mem_cellsFrom {base : Nat} {bytes : List Byte} {p : Host.Cell} (h : p ∈ cellsFrom base bytes) :
    base ≤ p.1 ∧ p.1 < base + bytes.length := by
  induction bytes generalizing base with
  | nil => simp [cellsFrom] at h
  | cons v rest ih =>
    rw [cellsFrom, List.mem_cons] at h
    rcases h with rfl | h
    · simp
    · have := ih h
      simp only [List.length_cons]
      omega

theorem cellsFrom_wf (base : Nat) (bytes : List Byte) : Memory.wf (cellsFrom base bytes) := by
  induction bytes generalizing base with
  | nil => simp [cellsFrom, Memory.wf]
  | cons v rest ih =>
    rw [cellsFrom, Memory.wf, List.pairwise_cons]
    refine ⟨fun p hp => ?_, ih _⟩
    have := (mem_cellsFrom hp).1
    omega

/-- Every memory operation is a splice, and a splice keeps the canonical form. -/
theorem splice_wf {m : Memory} (h : Memory.wf m) (base : Nat) (bytes : List Byte) :
    Memory.wf (splice m base bytes) := by
  have hc := cellsFrom_wf base bytes
  unfold Memory.wf at h hc ⊢
  rw [splice, List.pairwise_append, List.pairwise_append]
  refine ⟨⟨h.filter _, hc, ?_⟩, h.filter _, ?_⟩
  · intro p hp q hq
    have h1 := (List.mem_filter.mp hp).2
    have h2 := mem_cellsFrom hq
    simp at h1
    omega
  · intro p hp q hq
    have h2 := (List.mem_filter.mp hq).2
    simp at h2
    rcases List.mem_append.mp hp with hp | hp
    · have h1 := (List.mem_filter.mp hp).2
      simp at h1
      omega
    · have h1 := mem_cellsFrom hp
      omega

/-- Where the listed keys of a splice come from. -/
theorem mem_splice {m : Memory} {base : Nat} {bytes : List Byte} {p : Host.Cell} (h : p ∈ splice m base bytes) :
    p ∈ m ∨ (base ≤ p.1 ∧ p.1 < base + bytes.length) := by
  rw [splice, List.mem_append, List.mem_append] at h
  rcases h with (h | h) | h
  · exact .inl (List.mem_of_mem_filter h)
  · exact .inr (mem_cellsFrom h)
  · exact .inl (List.mem_of_mem_filter h)

theorem lookup_eq_none_of_lt {m : Memory} {key : Nat} (h : ∀ p ∈ m, key < p.1) : lookup m key = none := by
  induction m with
  | nil => rfl
  | cons p rest ih =>
    obtain ⟨k, v⟩ := p
    have hk : key < k := h (k, v) (by simp)
    rw [lookup, if_neg (by omega)]
    exact ih fun q hq => h q (by simp [hq])

/-- Canonical: two memories in canonical form that list the same byte at every key are the same list. -/
theorem eq_of_lookup_eq {m m' : Memory} (h : Memory.wf m) (h' : Memory.wf m')
    (he : ∀ key, lookup m key = lookup m' key) : m = m' := by
  induction m generalizing m' with
  | nil =>
    cases m' with
    | nil => rfl
    | cons p rest =>
      have := he p.1
      simp [lookup] at this
  | cons p rest ih =>
    obtain ⟨k, v⟩ := p
    have hp := List.pairwise_cons.mp h
    cases m' with
    | nil =>
      have := he k
      simp [lookup] at this
    | cons p' rest' =>
      obtain ⟨k', v'⟩ := p'
      have hp' := List.pairwise_cons.mp h'
      have hk : k = k' := by
        rcases Nat.lt_trichotomy k k' with hlt | heq | hgt
        · have hn : lookup ((k', v') :: rest') k = none := by
            apply lookup_eq_none_of_lt
            intro q hq
            rcases List.mem_cons.mp hq with rfl | hq
            · exact hlt
            · exact Nat.lt_trans hlt (hp'.1 q hq)
          have := he k
          simp [lookup] at this
          simp [lookup] at hn
          split at hn <;> simp_all
        · exact heq
        · have hn : lookup ((k, v) :: rest) k' = none := by
            apply lookup_eq_none_of_lt
            intro q hq
            rcases List.mem_cons.mp hq with rfl | hq
            · exact hgt
            · exact Nat.lt_trans hgt (hp.1 q hq)
          have := he k'
          simp [lookup] at hn
          simp [lookup] at this
          split at hn <;> simp_all
      subst hk
      have hv : v = v' := by
        have := he k
        simpa [lookup] using this
      subst hv
      congr 1
      apply ih hp.2 hp'.2
      intro key
      by_cases hkey : k = key
      · subst hkey
        rw [lookup_eq_none_of_lt hp.1, lookup_eq_none_of_lt hp'.1]
      · have := he key
        simpa [lookup, hkey] using this

/-- A location whose slot and index fit their fields: what makes keys of distinct locations distinct. -/
def addressable (sp : Space) (slot i : Nat) : Prop := (sp = .secret ∨ slot < 256) ∧ i < 4294967296

/-- Two locations name the same memory: `slot` does not count for SECRET (R41). -/
abbrev sameMemory (sp : Space) (slot : Nat) (sp' : Space) (slot' : Nat) : Prop := sp' = sp ∧ (sp = .secret ∨ slot' = slot)

@[simp] theorem inRange_secret (p : Config.Params) (slot i : Nat) :
    inRange p .secret slot i = true ↔ i < p.secretDepth.val := by simp [inRange]

@[simp] theorem inRange_shadow (p : Config.Params) (slot i : Nat) :
    inRange p .shadow slot i = true ↔ slot < p.nMax.val ∧ i < shadowDepth p := by simp [inRange]

@[simp] theorem inRange_cover (p : Config.Params) (slot i : Nat) :
    inRange p .cover slot i = true ↔ slot < p.nMax.val ∧ i < p.coverDepth.val := by simp [inRange]

theorem addressable_of_inRange {p : Config.Params} {sp : Space} {slot i : Nat} (h : inRange p sp slot i = true) :
    addressable sp slot i := by
  have h1 := p.nMax.isLt
  have h2 := p.secretDepth.isLt
  have h3 := p.coverDepth.isLt
  have h4 : shadowDepth p = (p.secretDepth.val + 1) / 2 := rfl
  cases sp <;> simp at h <;> simp [addressable] <;> omega

/-- Distinct locations have distinct keys (R76). -/
theorem cellKey_inj {sp sp' : Space} {slot slot' i i' : Nat} (h : addressable sp slot i)
    (h' : addressable sp' slot' i') (he : cellKey sp slot i = cellKey sp' slot' i') :
    sameMemory sp slot sp' slot' ∧ i = i' := by
  cases sp <;> cases sp' <;> simp [addressable, cellKey, sameMemory] at * <;> omega

theorem cellKey_congr {sp sp' : Space} {slot slot' : Nat} (h : sameMemory sp slot sp' slot') (i : Nat) :
    cellKey sp' slot' i = cellKey sp slot i := by
  obtain ⟨rfl, h⟩ := h
  rcases h with rfl | rfl
  · rfl
  · rfl

theorem cellKey_add (sp : Space) (slot i d : Nat) : cellKey sp slot (i + d) = cellKey sp slot i + d := by
  cases sp <;> simp only [cellKey] <;> omega

/-- What a store of a run does to every byte (R63). -/
theorem byteAt_storeFrom (s : State) {sp sp' : Space} {slot slot' i i' : Nat} (bytes : List Byte)
    (hi : ∀ d, d < bytes.length → addressable sp slot (i + d)) (h' : addressable sp' slot' i') :
    (sameMemory sp slot sp' slot' ∧ i ≤ i' ∧ i' < i + bytes.length →
      (s.storeFrom sp slot i bytes).byteAt sp' slot' i' = bytes.getD (i' - i) 0#8) ∧
    (¬ (sameMemory sp slot sp' slot' ∧ i ≤ i' ∧ i' < i + bytes.length) →
      (s.storeFrom sp slot i bytes).byteAt sp' slot' i' = s.byteAt sp' slot' i') := by
  constructor
  · rintro ⟨hm, hlo, hhi⟩
    obtain ⟨d, rfl⟩ := Nat.exists_eq_add_of_le hlo
    have hd : d < bytes.length := by omega
    have hk : cellKey sp' slot' (i + d) = cellKey sp slot i + d := by rw [cellKey_congr hm, cellKey_add]
    rw [State.byteAt, State.storeFrom_mem, hk, lookup_splice, if_pos (by omega)]
    have e : cellKey sp slot i + d - cellKey sp slot i = d := by omega
    have e2 : i + d - i = d := by omega
    rw [e, e2, List.getElem?_eq_getElem hd]
    simp [hd]
  · intro hn
    have hk : ¬ (cellKey sp slot i ≤ cellKey sp' slot' i' ∧
        cellKey sp' slot' i' < cellKey sp slot i + bytes.length) := by
      rintro ⟨hlo, hhi⟩
      obtain ⟨d, hd⟩ := Nat.exists_eq_add_of_le hlo
      have hdl : d < bytes.length := by omega
      rw [← cellKey_add] at hd
      obtain ⟨hm, rfl⟩ := cellKey_inj (hi d hdl) h' hd.symm
      exact hn ⟨hm, by omega, by omega⟩
    rw [State.byteAt, State.storeFrom_mem, lookup_splice, if_neg hk, State.storeFrom_epoch]
    rfl

/-- What a fill does to every byte of the address map (R65). -/
theorem byteAt_fill (s : State) {sp sp' : Space} {slot slot' i' : Nat} (bytes : List Byte)
    (hs : sp = .secret ∨ slot < 256) (hl : bytes.length ≤ 4294967296) (h' : addressable sp' slot' i') :
    (sameMemory sp slot sp' slot' ∧ i' < bytes.length →
      (s.fill sp slot bytes).byteAt sp' slot' i' = bytes.getD i' 0#8) ∧
    (¬ (sameMemory sp slot sp' slot' ∧ i' < bytes.length) →
      (s.fill sp slot bytes).byteAt sp' slot' i' = s.byteAt sp' slot' i') := by
  have h := byteAt_storeFrom s (slot := slot) (i := 0) bytes (fun d hd => ⟨hs, by omega⟩) h'
  rw [Nat.zero_add, Nat.sub_zero] at h
  simpa only [Nat.zero_le, true_and, State.fill] using h

end Sys2Proof.Machine
end

