-- ==== Sys2Proof/Laws/Ops.lean ====
section
/-! SUPPORT. One lemma for each shared operation that ends, checks or guards a command: it says once everything the
operation can do (60_exceptions.md R262, R264, R265), and when each list of checks passes or reports which subcode
(42_share_encoder.md R171, R172; 43_share_decoder.md R201; 44_embedding.md R232). -/

namespace Sys2Proof.Machine

/-! ## Ending a command -/

@[simp] theorem State.conclude_ok (s t : State) : s.conclude (.ok t) = .next t.succeed := rfl

@[simp] theorem State.conclude_error (s : State) (trap : Trap) : s.conclude (.error trap) = .next (s.raise trap) := rfl

/-- Every end of a command is a commit or a raise. -/
theorem State.conclude_cases {s t : State} {result : Except Trap State} (h : s.conclude result = .next t) :
    (∃ u, result = .ok u ∧ t = u.succeed) ∨ ∃ trap, result = .error trap ∧ t = s.raise trap := by
  cases result with
  | ok u => exact .inl ⟨u, rfl, by simpa using h.symm⟩
  | error trap => exact .inr ⟨trap, rfl, by simpa using h.symm⟩

/-- A command always ends in a next state. -/
theorem State.conclude_next (s : State) (result : Except Trap State) : ∃ t, s.conclude result = .next t := by
  cases result <;> simp

theorem State.raise_validation (s : State) (v : Subcode) : s.raise (.validation v) = s.validationError v.code := rfl

theorem State.raise_divisionByZero (s : State) (info : Nat) :
    s.raise (.divisionByZero info) = s.divisionByZero info := rfl

theorem State.raise_cheatingDetected (s : State) (info : Nat) :
    s.raise (.cheatingDetected info) = s.cheatingDetected info := rfl

@[simp] theorem orRaise_some {α : Type} (t : Trap) (v : α) : orRaise t (some v) = .ok v := rfl

@[simp] theorem orRaise_none {α : Type} (t : Trap) : orRaise t (none : Option α) = .error t := rfl

/-! ## Lists of checks -/

@[simp] theorem firstFailure_nil : firstFailure [] = none := rfl

theorem firstFailure_cons (fails : Bool) (v : Subcode) (rest : List (Bool × Subcode)) :
    firstFailure ((fails, v) :: rest) = if fails then some v else firstFailure rest := rfl

/-- The checks pass exactly when none of them fails. -/
theorem firstFailure_eq_none {cs : List (Bool × Subcode)} : firstFailure cs = none ↔ ∀ c ∈ cs, c.1 = false := by
  induction cs with
  | nil => simp
  | cons c rest ih =>
    obtain ⟨fails, v⟩ := c
    cases fails <;> simp [firstFailure_cons, ih]

/-- Checks that all carry one subcode report it exactly when one of them fails. -/
theorem firstFailure_eq_some {cs : List (Bool × Subcode)} {v : Subcode} (hv : ∀ c ∈ cs, c.2 = v)
    (h : ∃ c ∈ cs, c.1 = true) : firstFailure cs = some v := by
  induction cs with
  | nil => simp at h
  | cons c rest ih =>
    obtain ⟨fails, u⟩ := c
    have hu : u = v := hv (fails, u) (by simp)
    cases fails with
    | true => simp [firstFailure_cons, hu]
    | false =>
      rw [firstFailure_cons, if_neg (by simp)]
      refine ih (fun c hc => hv c (by simp [hc])) ?_
      obtain ⟨c, hc, hf⟩ := h
      rcases List.mem_cons.mp hc with rfl | hc
      · simp at hf
      · exact ⟨c, hc, hf⟩

theorem firstFailure_append (cs ds : List (Bool × Subcode)) :
    firstFailure (cs ++ ds) = (firstFailure cs).or (firstFailure ds) := by
  induction cs with
  | nil => simp
  | cons c rest ih =>
    obtain ⟨fails, v⟩ := c
    cases fails <;> simp [firstFailure_cons, ih]

theorem validate_pass {α : Type} {cs : List (Bool × Subcode)} (h : firstFailure cs = none)
    (k : Unit → Except Trap α) : (validate cs >>= k) = k () := by
  simp only [validate, h]
  rfl

theorem validate_fail {α : Type} {cs : List (Bool × Subcode)} {v : Subcode} (h : firstFailure cs = some v)
    (k : Unit → Except Trap α) : (validate cs >>= k) = .error (.validation v) := by
  simp only [validate, h]
  rfl

/-- What a guarded computation can answer. -/
theorem validate_bind_ok {α : Type} {cs : List (Bool × Subcode)} {k : Unit → Except Trap α} {u : α}
    (h : (validate cs >>= k) = .ok u) : firstFailure cs = none ∧ k () = .ok u := by
  cases hf : firstFailure cs with
  | none => exact ⟨rfl, by rwa [validate_pass hf] at h⟩
  | some v =>
    rw [validate_fail hf] at h
    cases h

/-- What a computation that may raise can answer. -/
theorem orRaise_bind_ok {α β : Type} {trap : Trap} {o : Option α} {k : α → Except Trap β} {u : β}
    (h : (orRaise trap o >>= k) = .ok u) : ∃ v, o = some v ∧ k v = .ok u := by
  cases o with
  | none => cases h
  | some v => exact ⟨v, rfl, h⟩

/-! ## The derived quantities as the numbers the claims use -/

theorem State.numBlocks_eq (s : State) : s.numBlocks = s.blocks := rfl

/-- A plane of `NB` blocks has `NB * BS` pixels, and half of `BS` times `K - 1` is one shadow byte (R5). -/
theorem State.npix_eq {s : State} (h : s.divOk) : s.npix.toNat = s.blocks * (2 * s.k.toNat - 2) :=
  (Nat.div_mul_cancel (Nat.dvd_of_mod_eq_zero h)).symm

theorem State.shadowLen_eq {s : State} (hk : s.kOk) (hd : s.divOk) : s.shadowLen = s.shadowBytes := by
  have h := State.npix_eq hd
  have hk1 : 2 * s.k.toNat - 2 = 2 * (s.k.toNat - 1) := by omega
  have hpos : 0 < s.k.toNat - 1 := by have := hk.1; omega
  rw [State.shadowLen, State.numBlocks_eq, State.shadowBytes, h, hk1, ← Nat.mul_assoc, Nat.mul_div_cancel _ hpos]
  omega

theorem State.shadowBytes_eq {s : State} (h : s.schemeOk) : s.shadowBytes = 2 * s.blocks :=
  (State.shadowLen_eq h.1 h.2.2).symm

theorem State.groupWidth_eq {s : State} (hk : s.kOk) : s.groupWidth = s.bitsPerPixel := by
  obtain ⟨h3, h8⟩ := hk
  rw [State.groupWidth, State.bitsPerPixel]
  by_cases h : s.k.toNat < 5
  · have : s.k.toNat = 3 ∨ s.k.toNat = 4 := by omega
    rcases this with h | h <;> simp [h]
  · have h1 : s.k.toNat ≠ 3 := by omega
    have h2 : s.k.toNat ≠ 4 := by omega
    simp [h, h1, h2]

theorem State.groupsPerByte_eq {s : State} (hk : s.kOk) : s.groupsPerByte = s.pixelsPerByte := by
  rw [State.groupsPerByte, State.groupWidth_eq hk, State.bitsPerPixel, State.pixelsPerByte]
  split <;> rfl

theorem State.coverUsed_eq {s : State} (h : s.schemeOk) : s.coverUsed = s.shadowBytes * s.pixelsPerByte := by
  rw [State.coverUsed, State.shadowLen_eq h.1 h.2.2, State.groupsPerByte_eq h.1]

/-- The plane and the shadows fit their memories once `check_scheme()` has passed (20_memory.md R65). -/
theorem State.shadowBytes_le {s : State} (h : s.schemeOk) : s.shadowBytes ≤ shadowDepth s.params := by
  have h1 := State.shadowBytes_eq h
  have h2 := State.npix_eq h.2.2
  have h3 : s.npix.toNat ≤ s.params.secretDepth.val := h.2.1
  have h4 : s.blocks * 4 ≤ s.blocks * (2 * s.k.toNat - 2) := Nat.mul_le_mul_left _ (by have := h.1.1; omega)
  rw [shadowDepth]
  omega

/-! ## When the checks of the share commands pass, and what they report -/

/-- `check_scheme()` (R171): what it reports, and that it passes exactly when its conditions hold. -/
theorem State.schemeChecks_spec (s : State) :
    (¬ s.kOk → firstFailure s.schemeChecks = some .vK) ∧
    (s.kOk → ¬ s.sizeOk → firstFailure s.schemeChecks = some .vSize) ∧
    (s.kOk → s.sizeOk → ¬ s.divOk → firstFailure s.schemeChecks = some .vDiv) ∧
    (firstFailure s.schemeChecks = none ↔ s.schemeOk) := by
  unfold State.schemeOk
  simp only [State.schemeChecks, firstFailure_cons, firstFailure_nil, Bool.or_eq_true, decide_eq_true_eq]
  unfold State.kOk State.sizeOk State.divOk
  refine ⟨?_, ?_, ?_, ?_⟩ <;> split_ifs <;> simp_all <;> omega

/-- `check_participants()` (R172). -/
theorem State.participantChecks_spec (s : State) :
    (¬ s.participantsOk → firstFailure s.participantChecks = some .vNcov) ∧
    (firstFailure s.participantChecks = none ↔ s.participantsOk) := by
  unfold State.participantsOk
  simp only [State.participantChecks, firstFailure_cons, firstFailure_nil, Bool.or_eq_true, decide_eq_true_eq]
  refine ⟨?_, ?_⟩ <;> split_ifs <;> simp_all; omega

/-- The slots selected are loaded ones: the second part of `check_selection()` (R201). -/
theorem State.selChecks_spec (s : State) :
    let cs := (List.range s.k.toNat).map fun i => (decide (s.n.toNat ≤ s.selAt i), Subcode.vSel)
    (¬ s.selLoaded → firstFailure cs = some .vSel) ∧ (firstFailure cs = none ↔ s.selLoaded) := by
  intro cs
  constructor
  · intro h
    simp only [State.selLoaded, not_forall, Nat.not_lt] at h
    obtain ⟨i, hi, hn⟩ := h
    refine firstFailure_eq_some (fun c hc => ?_) ⟨(true, .vSel), ?_, rfl⟩
    · obtain ⟨i, -, rfl⟩ := List.mem_map.mp hc
      rfl
    · exact List.mem_map.mpr ⟨i, List.mem_range.mpr hi, by simp [hn]⟩
  · rw [firstFailure_eq_none]
    simp [cs, State.selLoaded]

/-- The dimensions of the selected covers agree: the last part of `check_selection()` (R201). -/
theorem State.dimChecks_spec (s : State) :
    let cs := (List.range' 1 (s.k.toNat - 1)).map fun i =>
      (decide ((s.slotRegs (s.selAt i)).cw ≠ (s.slotRegs (s.selAt 0)).cw) ||
        decide ((s.slotRegs (s.selAt i)).ch ≠ (s.slotRegs (s.selAt 0)).ch), Subcode.vDim)
    (¬ s.dimsAgree → firstFailure cs = some .vDim) ∧ (firstFailure cs = none ↔ s.dimsAgree) := by
  intro cs
  constructor
  · intro h
    simp only [State.dimsAgree, not_forall] at h
    obtain ⟨i, hi, hn⟩ := h
    have hi0 : i ≠ 0 := by
      rintro rfl
      exact hn ⟨rfl, rfl⟩
    refine firstFailure_eq_some (fun c hc => ?_) ⟨(true, .vDim), ?_, rfl⟩
    · obtain ⟨i, -, rfl⟩ := List.mem_map.mp hc
      rfl
    · refine List.mem_map.mpr ⟨i, List.mem_range'_1.mpr (by omega), ?_⟩
      rw [not_and_or] at hn
      simpa using hn
  · rw [firstFailure_eq_none]
    simp only [cs, List.mem_map, List.mem_range'_1, forall_exists_index, and_imp, State.dimsAgree]
    constructor
    · intro h i hi
      by_cases hi0 : i = 0
      · subst hi0
        exact ⟨rfl, rfl⟩
      · have := h _ i (by omega) (by omega) rfl
        simpa using this
    · rintro h _ i h1 h2 rfl
      have := h i (by omega)
      simp [this.1, this.2]

/-- `check_selection()` (R201): what it reports, in its order, and that it passes exactly when its conditions hold. -/
theorem State.selectionChecks_spec (s : State) :
    (¬ s.participantsOk → firstFailure s.selectionChecks = some .vNcov) ∧
    (s.participantsOk → ¬ s.selLoaded → firstFailure s.selectionChecks = some .vSel) ∧
    (s.participantsOk → s.selLoaded → ¬ s.dimsAgree → firstFailure s.selectionChecks = some .vDim) ∧
    (firstFailure s.selectionChecks = none ↔ s.selectionOk) := by
  have hp := s.participantChecks_spec
  have hs := s.selChecks_spec
  have hd := s.dimChecks_spec
  simp only [] at hs hd
  unfold State.selectionOk
  rw [State.selectionChecks, firstFailure_append, firstFailure_append]
  refine ⟨fun h => by rw [hp.1 h]; rfl, fun h h2 => by rw [hp.2.mpr h, hs.1 h2]; rfl,
    fun h h2 h3 => by rw [hp.2.mpr h, hs.2.mpr h2, hd.1 h3]; rfl, ?_⟩
  rw [Option.or_eq_none_iff, Option.or_eq_none_iff, hp.2, hs.2, hd.2, and_assoc]

/-- `check_capacity(slot)` fails exactly when the cover is too large for its memory or too small (R232). -/
theorem State.capacityCheck_spec {s : State} (h : s.schemeOk) (slot : Nat) :
    (s.capacityCheck slot).2 = .vCap ∧ ((s.capacityCheck slot).1 = false ↔ s.capacityOk slot) := by
  refine ⟨rfl, ?_⟩
  rw [State.capacityCheck, Bool.or_eq_false_iff, decide_eq_false_iff_not, decide_eq_false_iff_not, Nat.not_lt,
    Nat.not_lt, State.coverUsed_eq h]
  rfl

/-- The capacity of several slots, checked in turn (R182, R208). -/
theorem State.capacityChecks_spec {s : State} (h : s.schemeOk) (slots : List Nat) :
    ((∃ slot ∈ slots, ¬ s.capacityOk slot) → firstFailure (slots.map s.capacityCheck) = some .vCap) ∧
    (firstFailure (slots.map s.capacityCheck) = none ↔ ∀ slot ∈ slots, s.capacityOk slot) := by
  constructor
  · rintro ⟨slot, hm, hn⟩
    refine firstFailure_eq_some (fun c hc => ?_) ⟨s.capacityCheck slot, List.mem_map_of_mem hm, ?_⟩
    · obtain ⟨slot, -, rfl⟩ := List.mem_map.mp hc
      rfl
    · rwa [← Bool.not_eq_false, (State.capacityCheck_spec h slot).2]
  · rw [firstFailure_eq_none]
    simp [(State.capacityCheck_spec h _).2]

/-- `BLK < NB` (R180, R203). -/
theorem State.blockChecks_spec (s : State) :
    (s.blocks ≤ s.blk.toNat → firstFailure s.blockChecks = some .vBlk) ∧
    (firstFailure s.blockChecks = none ↔ s.blk.toNat < s.blocks) := by
  simp only [State.blockChecks, firstFailure_cons, firstFailure_nil, decide_eq_true_eq]
  rw [State.numBlocks_eq]
  split_ifs with h <;> simp [h]; omega

/-- The slot argument of `EMBED` and `EXTRACT` (R236). -/
theorem State.slotArgChecks_spec (s : State) (slot : Nat) :
    (s.params.nMax.val ≤ slot → firstFailure (s.slotArgChecks slot) = some .vArg) ∧
    (firstFailure (s.slotArgChecks slot) = none ↔ slot < s.params.nMax.val) := by
  simp only [State.slotArgChecks, firstFailure_cons, firstFailure_nil, decide_eq_true_eq]
  split_ifs <;> simp_all

/-- The bank argument (R148). -/
theorem bankChecks_spec (b : Nat) :
    (1 < b → firstFailure (bankChecks b) = some .vArg) ∧ (firstFailure (bankChecks b) = none ↔ b ≤ 1) := by
  simp only [bankChecks, firstFailure_cons, firstFailure_nil, decide_eq_true_eq]
  split_ifs <;> simp_all

/-- `NPTS = K` and `1 <= K <= 8` (R154). -/
theorem State.pointChecks_spec (s : State) :
    (s.k.toNat < 1 ∨ 8 < s.k.toNat ∨ s.npts ≠ s.k → firstFailure s.pointChecks = some .vNpts) ∧
    (firstFailure s.pointChecks = none ↔ 1 ≤ s.k.toNat ∧ s.k.toNat ≤ 8 ∧ s.npts = s.k) := by
  simp only [State.pointChecks, firstFailure_cons, firstFailure_nil, Bool.or_eq_true, decide_eq_true_eq]
  constructor
  · intro h
    rw [if_pos]
    tauto
  · split_ifs with h
    · refine iff_of_false (fun hc => by cases hc) ?_
      rintro ⟨h1, h2, h3⟩
      rcases h with (h | h) | h
      · omega
      · omega
      · exact h h3
    · simp only [true_iff]
      rw [not_or, not_or] at h
      exact ⟨by omega, by omega, by simpa using h.2⟩

end Sys2Proof.Machine
end

