-- ==== Sys2Proof/Laws/Field.lean ====
section
/-! SUPPORT. What the field functions compute: their values as numbers, and their images in `ZMod 251`, where the field
laws of Mathlib apply (40_field.md R110 to R119). -/

namespace Sys2Proof.Machine

/-- A field element as an element of Mathlib's integers modulo 251. -/
def feZ (v : FE) : ZMod 251 := (v.val : ZMod 251)

theorem feZ_injective : Function.Injective feZ := by
  intro a b h
  have h' := (ZMod.natCast_eq_natCast_iff' a.val b.val 251).mp h
  rw [Nat.mod_eq_of_lt a.isLt, Nat.mod_eq_of_lt b.isLt] at h'
  exact Fin.ext h'

theorem feZ_inj {a b : FE} : feZ a = feZ b ↔ a = b := feZ_injective.eq_iff

/-- Every residue is the image of a field element. -/
theorem feZ_surjective : Function.Surjective feZ := by
  intro z
  refine ⟨⟨z.val, ZMod.val_lt z⟩, ?_⟩
  simp [feZ]

@[simp] theorem feZ_zero : feZ 0 = 0 := by simp [feZ]

@[simp] theorem feZ_one : feZ 1 = 1 := by simp [feZ]

theorem feZ_eq_zero {a : FE} : feZ a = 0 ↔ a = 0 := by rw [← feZ_zero, feZ_inj]

/-- The value of `normInt v` is the Euclidean remainder of `v` (R110). -/
theorem normInt_val (v : Int) : ((normInt v).val : Int) = v % 251 := by
  simp only [normInt]
  omega

@[simp] theorem feZ_normInt (v : Int) : feZ (normInt v) = (v : ZMod 251) := by
  have h : ((normInt v).val : Int) = v % 251 := normInt_val v
  have h2 : feZ (normInt v) = (((normInt v).val : Int) : ZMod 251) := by simp [feZ]
  rw [h2, h]
  exact (ZMod.intCast_mod v 251)

/-- A field element normalised is itself. -/
theorem normInt_val_self (a : FE) : normInt (a.val : Int) = a := by
  apply feZ_injective
  rw [feZ_normInt]
  simp [feZ]

theorem normByte_val (v : Byte) : (normByte v).val = v.toNat % 251 := by
  have h := normInt_val (v.toNat : Int)
  simp only [normByte]
  omega

/-- A field element written to memory and read back is itself (20_memory.md R68). -/
@[simp] theorem normByte_feByte (a : FE) : normByte (feByte a) = a := by
  apply Fin.ext
  have h : a.val < 251 := a.isLt
  rw [normByte_val, feByte, BitVec.toNat_ofNat]
  omega

theorem feByte_toNat (a : FE) : (feByte a).toNat = a.val := by
  have h : a.val < 251 := a.isLt
  rw [feByte, BitVec.toNat_ofNat]
  omega

@[simp] theorem feZ_fadd (a b : FE) : feZ (fadd a b) = feZ a + feZ b := by
  rw [fadd, feZ_normInt]; simp [feZ]

@[simp] theorem feZ_fsub (a b : FE) : feZ (fsub a b) = feZ a - feZ b := by
  rw [fsub, feZ_normInt]; simp [feZ]

@[simp] theorem feZ_fmul (a b : FE) : feZ (fmul a b) = feZ a * feZ b := by
  rw [fmul, feZ_normInt]; simp [feZ]

/-- `fadd` as a number (R114). -/
theorem fadd_val (a b : FE) : (fadd a b).val = (a.val + b.val) % 251 := by
  have h := normInt_val ((a.val : Int) + (b.val : Int))
  simp only [fadd]
  omega

/-- `fsub` as a number (R115). -/
theorem fsub_val (a b : FE) : (fsub a b).val = if b.val ≤ a.val then a.val - b.val else a.val + 251 - b.val := by
  have h := normInt_val ((a.val : Int) - (b.val : Int))
  have ha := a.isLt
  have hb := b.isLt
  simp only [fsub]
  split <;> omega

/-- `fmul` as a number (R116). -/
theorem fmul_val (a b : FE) : (fmul a b).val = (a.val * b.val) % 251 := by
  have h := normInt_val ((a.val : Int) * (b.val : Int))
  rw [fmul]
  have h2 : ((a.val : Int) * (b.val : Int)) = ((a.val * b.val : Nat) : Int) := by push_cast; rfl
  rw [h2] at h ⊢
  omega

theorem feq_iff (a b : FE) : feq a b = true ↔ a = b := by
  simp [feq, Fin.ext_iff]

/-- The entries of the inverse ROM multiply to 1 (R113): one check for each of the 250 nonzero elements. -/
theorem inverse_mul : ∀ a : FE, a ≠ 0 → fmul a (inverse a) = 1 := by
  set_option maxRecDepth 4000 in decide

theorem feZ_inverse {a : FE} (h : a ≠ 0) : feZ a * feZ (inverse a) = 1 := by
  rw [← feZ_fmul, inverse_mul a h, feZ_one]

/-- What `fdiv` can do: raise exactly on a zero divisor, or answer the one quotient (R117). -/
theorem fdiv_eq_some {a b q : FE} : fdiv a b = some q ↔ b ≠ 0 ∧ feZ q * feZ b = feZ a := by
  unfold fdiv
  by_cases hb : b = 0
  · simp [hb]
  · have hi := feZ_inverse hb
    simp only [hb, if_false, Option.some.injEq, ne_eq, not_false_eq_true, true_and]
    constructor
    · rintro rfl
      rw [feZ_fmul, mul_assoc, mul_comm (feZ (inverse b)), hi, mul_one]
    · intro h
      apply feZ_injective
      rw [feZ_fmul, ← h, mul_assoc, hi, mul_one]

theorem fdiv_eq_none {a b : FE} : fdiv a b = none ↔ b = 0 := by
  unfold fdiv
  by_cases hb : b = 0 <;> simp [hb]

/-- Square and multiply is the power (R118). -/
theorem feZ_powBits (bits : Nat) (a : FE) (e : Nat) (h : e < 2 ^ bits) : feZ (powBits bits a e) = feZ a ^ e := by
  induction bits generalizing a e with
  | zero =>
    have : e = 0 := by simpa using h
    simp [powBits, this]
  | succ bits ih =>
    have h2 : e / 2 < 2 ^ bits := by rw [Nat.pow_succ] at h; omega
    have hsq : feZ (powBits bits (fmul a a) (e / 2)) = feZ a ^ (2 * (e / 2)) := by
      rw [ih _ _ h2, feZ_fmul, ← pow_two, ← pow_mul]
    rw [powBits]
    split
    · rename_i ho
      rw [feZ_fmul, hsq, ← pow_succ']
      congr 1
      omega
    · rename_i he
      rw [hsq]
      congr 1
      omega

@[simp] theorem feZ_fpow (a : FE) (e : Word) : feZ (fpow a e) = feZ a ^ e.toNat :=
  feZ_powBits 32 a e.toNat e.isLt

end Sys2Proof.Machine
end

