-- ==== Sys2Proof/Laws/Poly.lean ====
section
/-! SUPPORT. What the polynomial algorithms compute: evaluation (41_polynomial.md R141, R142), the Lagrange basis value
at 0 and when it raises (R143), interpolation and when it raises (R144 to R146), and the cheating search
(43_share_decoder.md R204). -/

namespace Sys2Proof.Machine

open Finset

/-- 251 is prime (R111), as the fact Mathlib's field laws ask for. -/
theorem prime251 : Fact (Nat.Prime 251) := ⟨by norm_num⟩

/-! ## Evaluation -/

@[simp] theorem eval_nil (x : FE) : eval [] x = 0 := rfl

/-- The Horner recurrence, at the end of the list. -/
theorem eval_concat (cs : List FE) (c x : FE) : eval (cs ++ [c]) x = fadd (fmul (eval cs x) x) c := by
  simp [eval]

/-- A coefficient list as a polynomial of Mathlib, highest-degree term first (R140). -/
noncomputable def polyOf (cs : List FE) : Polynomial (ZMod 251) :=
  cs.foldl (fun p c => p * Polynomial.X + Polynomial.C (feZ c)) 0

theorem polyOf_concat (cs : List FE) (c : FE) :
    polyOf (cs ++ [c]) = polyOf cs * Polynomial.X + Polynomial.C (feZ c) := by
  simp [polyOf]

/-- Evaluation is evaluation of the polynomial. -/
theorem feZ_eval (cs : List FE) (x : FE) : feZ (eval cs x) = (polyOf cs).eval (feZ x) := by
  induction cs using List.reverseRecOn with
  | nil => simp [polyOf]
  | append_singleton cs c ih => simp [eval_concat, polyOf_concat, ih]

/-- The degree is below the length (R140). -/
theorem polyOf_degree_lt (cs : List FE) : (polyOf cs).degree < cs.length := by
  induction cs using List.reverseRecOn with
  | nil => simp [polyOf]
  | append_singleton cs c ih =>
    have := prime251
    rw [polyOf_concat]
    refine lt_of_le_of_lt (Polynomial.degree_add_le _ _) (max_lt ?_ ?_)
    · rw [Polynomial.degree_mul, Polynomial.degree_X, List.length_append, List.length_singleton]
      by_cases h0 : polyOf cs = 0
      · simp [h0]
      · rw [Polynomial.degree_eq_natDegree h0] at ih ⊢
        have : (polyOf cs).natDegree < cs.length := by exact_mod_cast ih
        exact_mod_cast Nat.add_lt_add_right this 1
    · refine lt_of_le_of_lt Polynomial.degree_C_le ?_
      simp only [List.length_append, List.length_singleton]
      exact_mod_cast Nat.succ_pos cs.length

/-- Evaluation is the power sum of R141. -/
theorem feZ_eval_sum (cs : List FE) (x : FE) :
    feZ (eval cs x) = ∑ i ∈ range cs.length, feZ (elem cs i) * feZ x ^ (cs.length - 1 - i) := by
  induction cs using List.reverseRecOn with
  | nil => simp
  | append_singleton cs c ih =>
    rw [eval_concat, feZ_fadd, feZ_fmul, ih, List.length_append, List.length_singleton, sum_range_succ]
    congr 1
    · rw [sum_mul]
      refine sum_congr rfl fun i hi => ?_
      have hi' : i < cs.length := mem_range.mp hi
      have he : elem (cs ++ [c]) i = elem cs i := by simp [elem, List.getElem?_append_left hi']
      have hp : cs.length + 1 - 1 - i = (cs.length - 1 - i) + 1 := by omega
      rw [he, hp, pow_succ, mul_assoc]
    · simp [elem]

/-! ## The Lagrange basis value at 0 -/

theorem lag0_succ (xs : List FE) (i top : Nat) :
    lag0 xs i (top + 1) =
      (lag0 xs i top).bind fun acc => if top = i then some acc else (lagFactor xs i top).map (fmul acc) := by
  rw [lag0, List.range_succ, List.foldlM_append]
  simp [lag0]

theorem fsub_eq_zero {a b : FE} : fsub a b = 0 ↔ a = b := by
  rw [← feZ_eq_zero, feZ_fsub, sub_eq_zero, feZ_inj]

/-- What the basis value can be: nothing when another of the first `top` abscissae equals the `i`-th, and else the
one value that, times the differences, is the product of the negated abscissae (R143). -/
theorem lag0_spec (xs : List FE) (i top : Nat) :
    ((∃ j < top, j ≠ i ∧ elem xs j = elem xs i) → lag0 xs i top = none) ∧
    ((∀ j < top, j ≠ i → elem xs j ≠ elem xs i) →
      ∃ l, lag0 xs i top = some l ∧
        feZ l * ∏ j ∈ (range top).erase i, (feZ (elem xs i) - feZ (elem xs j)) =
          ∏ j ∈ (range top).erase i, -feZ (elem xs j)) := by
  induction top with
  | zero => exact ⟨by simp, fun _ => ⟨1, by simp [lag0]⟩⟩
  | succ top ih =>
    rw [lag0_succ]
    constructor
    · rintro ⟨j, hj, hji, he⟩
      by_cases hjt : j = top
      · subst hjt
        have hf : lagFactor xs i j = none := by
          rw [lagFactor, fdiv_eq_none, fsub_eq_zero, he]
        cases lag0 xs i j <;> simp [hji, hf]
      · rw [ih.1 ⟨j, by omega, hji, he⟩]
        rfl
    · intro h
      obtain ⟨l, hl, hp⟩ := ih.2 fun j hj => h j (by omega)
      rw [hl, Option.bind_some]
      by_cases hti : top = i
      · subst hti
        refine ⟨l, by simp, ?_⟩
        have e : (range (top + 1)).erase top = (range top).erase top := by
          rw [range_add_one, erase_insert (by simp), erase_eq_of_notMem (by simp)]
        rw [e, hp]
      · have hne : elem xs top ≠ elem xs i := h top (by omega) hti
        have e : (range (top + 1)).erase i = insert top ((range top).erase i) := by
          rw [range_add_one, erase_insert_of_ne hti]
        have hmem : top ∉ (range top).erase i := by simp
        rw [if_neg hti]
        cases hq : lagFactor xs i top with
        | none =>
          rw [lagFactor, fdiv_eq_none, fsub_eq_zero] at hq
          exact absurd hq.symm hne
        | some q =>
          rw [lagFactor, fdiv_eq_some] at hq
          refine ⟨fmul l q, rfl, ?_⟩
          have hq2 : feZ q * (feZ (elem xs i) - feZ (elem xs top)) = -feZ (elem xs top) := by
            simpa using hq.2
          rw [e, prod_insert hmem, prod_insert hmem, feZ_fmul, ← hp, ← hq2]
          ring

/-- The basis value is the value at 0 of Mathlib's Lagrange basis. -/
theorem lag0_eq_basis {xs : List FE} {i top : Nat} (h : ∀ j < top, j ≠ i → elem xs j ≠ elem xs i) :
    haveI := prime251
    ∃ l, lag0 xs i top = some l ∧
      feZ l = (Lagrange.basis (range top) (fun j => feZ (elem xs j)) i).eval 0 := by
  have := prime251
  obtain ⟨l, hl, hp⟩ := (lag0_spec xs i top).2 h
  refine ⟨l, hl, ?_⟩
  have hne : ∏ j ∈ (range top).erase i, (feZ (elem xs i) - feZ (elem xs j)) ≠ 0 := by
    rw [prod_ne_zero_iff]
    intro j hj
    rw [mem_erase, mem_range] at hj
    rw [sub_ne_zero, Ne, feZ_inj]
    exact fun e => h j hj.2 hj.1 e.symm
  apply mul_right_cancel₀ hne
  rw [hp, Lagrange.basis, Polynomial.eval_prod, ← prod_mul_distrib]
  refine prod_congr rfl fun j hj => ?_
  rw [mem_erase, mem_range] at hj
  have hsub : feZ (elem xs i) - feZ (elem xs j) ≠ 0 := by
    rw [sub_ne_zero, Ne, feZ_inj]
    exact fun e => h j hj.2 hj.1 e.symm
  simp only [Lagrange.basisDivisor, Polynomial.eval_mul, Polynomial.eval_C, Polynomial.eval_sub, Polynomial.eval_X]
  field_simp
  ring

/-! ## One pass of the interpolation -/

/-- The first `n` terms of the sum of one pass. -/
def lagSumUpTo (xs w : List FE) (top n : Nat) : Option FE :=
  (List.range n).foldlM (fun acc i => (lag0 xs i top).map (fun l => fadd acc (fmul (elem w i) l))) 0

theorem lagSumUpTo_succ (xs w : List FE) (top n : Nat) :
    lagSumUpTo xs w top (n + 1) =
      (lagSumUpTo xs w top n).bind fun acc => (lag0 xs n top).map fun l => fadd acc (fmul (elem w n) l) := by
  rw [lagSumUpTo, List.range_succ, List.foldlM_append]
  simp [lagSumUpTo]

/-- The first `top` abscissae are pairwise distinct. -/
def distinctBelow (xs : List FE) (top : Nat) : Prop := ∀ i < top, ∀ j < top, j ≠ i → elem xs j ≠ elem xs i

theorem lagSumUpTo_eq {xs : List FE} (w : List FE) {top : Nat} (h : distinctBelow xs top) (n : Nat) (hn : n ≤ top) :
    haveI := prime251
    ∃ v, lagSumUpTo xs w top n = some v ∧
      feZ v = ∑ i ∈ range n, feZ (elem w i) * (Lagrange.basis (range top) (fun j => feZ (elem xs j)) i).eval 0 := by
  have := prime251
  induction n with
  | zero => exact ⟨0, rfl, by simp⟩
  | succ n ih =>
    obtain ⟨v, hv, hs⟩ := ih (by omega)
    obtain ⟨l, hl, hb⟩ := lag0_eq_basis (h n (by omega))
    refine ⟨fadd v (fmul (elem w n) l), ?_, ?_⟩
    · rw [lagSumUpTo_succ, hv, Option.bind_some, hl]
      rfl
    · rw [feZ_fadd, feZ_fmul, hs, hb, sum_range_succ]

theorem feZ_injOn {xs : List FE} {top : Nat} (h : distinctBelow xs top) :
    Set.InjOn (fun j => feZ (elem xs j)) (range top : Finset Nat) := by
  intro i hi j hj he
  by_contra hij
  have hi' : i < top := by simpa using hi
  have hj' : j < top := by simpa using hj
  exact h j hj' i hi' hij (feZ_injective he)

/-- One pass extracts the value at 0 of the polynomial through its points (R144). -/
theorem lagSum_eq {xs w : List FE} {top : Nat} (h : distinctBelow xs top) {p : Polynomial (ZMod 251)}
    (hd : p.degree < top) (hw : ∀ i < top, feZ (elem w i) = p.eval (feZ (elem xs i))) :
    ∃ v, lagSum xs w top = some v ∧ feZ v = p.eval 0 := by
  have := prime251
  obtain ⟨v, hv, hs⟩ := lagSumUpTo_eq w h top (Nat.le_refl _)
  refine ⟨v, hv, ?_⟩
  have hp := Lagrange.eq_interpolate (f := p) (feZ_injOn h) (by simpa using hd)
  rw [hp, Lagrange.interpolate_apply, Polynomial.eval_finsetSum, hs]
  refine sum_congr rfl fun i hi => ?_
  rw [Polynomial.eval_mul, Polynomial.eval_C, hw i (mem_range.mp hi)]

/-- One pass raises when two of its abscissae are equal (R146). -/
theorem lagSum_eq_none {xs w : List FE} {top : Nat} (h : ¬ distinctBelow xs top) : lagSum xs w top = none := by
  simp only [distinctBelow, not_forall, not_not] at h
  obtain ⟨i, hi, j, hj, hji, he⟩ := h
  have hl : lag0 xs i top = none := (lag0_spec xs i top).1 ⟨j, hj, hji, he⟩
  have key : ∀ n, i < n → lagSumUpTo xs w top n = none := by
    intro n hn
    induction n with
    | zero => omega
    | succ n ih =>
      rw [lagSumUpTo_succ]
      by_cases hin : i = n
      · subst hin
        cases lagSumUpTo xs w top i <;> simp [hl]
      · rw [ih (by omega)]
        rfl
  exact key top hi

theorem deflate_succ (xs w : List FE) (c : FE) (top : Nat) :
    deflate xs w c (top + 1) =
      (deflate xs w c top).bind fun l => (fdiv (fsub (elem w top) c) (elem xs top)).map fun q => l ++ [q] := by
  rw [deflate, List.range_succ, List.mapM_append]
  cases h : List.mapM (fun i => fdiv (fsub (elem w i) c) (elem xs i)) (List.range top) with
  | none => simp [deflate, h]
  | some l =>
    cases h2 : fdiv (fsub (elem w top) c) (elem xs top) <;> simp [deflate, h, h2]

/-- What deflation can do: raise on a zero abscissa, or divide every ordinate (R144). -/
theorem deflate_spec (xs w : List FE) (c : FE) (top : Nat) :
    ((∃ i < top, elem xs i = 0) → deflate xs w c top = none) ∧
    ((∀ i < top, elem xs i ≠ 0) →
      ∃ l, deflate xs w c top = some l ∧ l.length = top ∧
        ∀ i < top, feZ (elem l i) * feZ (elem xs i) = feZ (elem w i) - feZ c) := by
  induction top with
  | zero => exact ⟨by simp, fun _ => ⟨[], by simp [deflate]⟩⟩
  | succ top ih =>
    rw [deflate_succ]
    constructor
    · rintro ⟨i, hi, h0⟩
      by_cases hit : i = top
      · subst hit
        have hf : fdiv (fsub (elem w i) c) (elem xs i) = none := fdiv_eq_none.mpr h0
        cases deflate xs w c i <;> simp [hf]
      · rw [ih.1 ⟨i, by omega, h0⟩]
        rfl
    · intro h
      obtain ⟨l, hl, hlen, hv⟩ := ih.2 fun i hi => h i (by omega)
      cases hq : fdiv (fsub (elem w top) c) (elem xs top) with
      | none => exact absurd (fdiv_eq_none.mp hq) (h top (by omega))
      | some q =>
        refine ⟨l ++ [q], by rw [hl]; rfl, by simp [hlen], ?_⟩
        intro i hi
        by_cases hit : i = top
        · subst hit
          have e : elem (l ++ [q]) i = q := by simp [elem, ← hlen]
          rw [e, (fdiv_eq_some.mp hq).2, feZ_fsub]
        · have hil : i < l.length := by omega
          have e : elem (l ++ [q]) i = elem l i := by simp [elem, List.getElem?_append_left hil]
          rw [e, hv i (by omega)]

/-! ## Interpolation -/

theorem distinctBelow_mono {xs : List FE} {top top' : Nat} (h : distinctBelow xs top) (hle : top' ≤ top) :
    distinctBelow xs top' := fun i hi j hj => h i (by omega) j (by omega)

/-- The passes from `top` points on give back the polynomial whose values the ordinates are, whether they start on
given ordinates or on ordinates still to be deflated by the last value extracted (R144, R145). -/
theorem interpPasses_eq {xs : List FE} (cs : List FE) :
    ∀ w : List FE, distinctBelow xs cs.length → (∀ i, i + 1 < cs.length → elem xs i ≠ 0) →
      ((∀ i < cs.length, elem w i = eval cs (elem xs i)) → interpPasses xs cs.length w none = some cs) ∧
      ((∀ i < cs.length, elem xs i ≠ 0) → ∀ c,
        (∀ i < cs.length, elem w i = eval (cs ++ [c]) (elem xs i)) →
          interpPasses xs cs.length w (some c) = some cs) := by
  induction cs using List.reverseRecOn with
  | nil => exact fun w _ _ => ⟨fun _ => rfl, fun _ _ _ => rfl⟩
  | append_singleton cs c ih =>
    intro w hdist hnz
    have hlen : (cs ++ [c]).length = cs.length + 1 := by simp
    rw [hlen] at hdist hnz ⊢
    -- one pass on ordinates `w'` that are values of `cs ++ [c]`, and the passes after it
    have pass : ∀ w' : List FE, (∀ i < cs.length + 1, elem w' i = eval (cs ++ [c]) (elem xs i)) →
        ((lagSum xs w' (cs.length + 1)).bind fun v =>
          (interpPasses xs cs.length w' (some v)).map fun higher => higher ++ [v]) = some (cs ++ [c]) := by
      intro w' hw'
      have hd : (polyOf (cs ++ [c])).degree < (cs.length + 1 : Nat) := by
        have := polyOf_degree_lt (cs ++ [c])
        rwa [hlen] at this
      obtain ⟨v, hv, hvz⟩ := lagSum_eq (w := w') hdist hd (fun i hi => by rw [hw' i hi, feZ_eval])
      have hvc : v = c := by
        apply feZ_injective
        rw [hvz, polyOf_concat]
        simp
      subst hvc
      rw [hv, Option.bind_some]
      rw [(ih w' (distinctBelow_mono hdist (by omega)) (fun i hi => hnz i (by omega))).2
        (fun i hi => hnz i (by omega)) v (fun i hi => hw' i (by omega))]
      rfl
    constructor
    · intro hw
      rw [interpPasses, Option.bind_some]
      exact pass w hw
    · intro hx d hw
      obtain ⟨l, hl, -, hlv⟩ := (deflate_spec xs w d (cs.length + 1)).2 hx
      rw [interpPasses, hl, Option.bind_some]
      apply pass
      intro i hi
      have := prime251
      apply feZ_injective
      have hxi : feZ (elem xs i) ≠ 0 := by rw [Ne, feZ_eq_zero]; exact hx i hi
      apply mul_right_cancel₀ hxi
      rw [hlv i hi, hw i (by simpa using hi), eval_concat, feZ_fadd, feZ_fmul]
      ring

/-- Interpolating the values of a polynomial gives it back (R145, the round trip). -/
theorem interp_eval {xs ys cs : List FE} (hdist : distinctBelow xs cs.length)
    (hnz : ∀ i, i + 1 < cs.length → elem xs i ≠ 0) (hy : ∀ i < cs.length, elem ys i = eval cs (elem xs i)) :
    interp cs.length xs ys = some cs :=
  (interpPasses_eq cs ys hdist hnz).1 hy

/-- A polynomial of degree below `k`, as a coefficient list of length `k`. -/
theorem exists_list_of_degree_lt (k : Nat) :
    ∀ p : Polynomial (ZMod 251), p.degree < k → ∃ cs : List FE, cs.length = k ∧ polyOf cs = p := by
  have := prime251
  induction k with
  | zero =>
    intro p hp
    refine ⟨[], rfl, ?_⟩
    have : p = 0 := by
      rw [← Polynomial.degree_eq_bot]
      simpa using hp
    simp [polyOf, this]
  | succ k ih =>
    intro p hp
    have hdiv : p.divX.degree < k := by
      by_cases h0 : p.divX = 0
      · rw [h0, Polynomial.degree_zero]
        exact WithBot.bot_lt_coe _
      · have hp0 : p ≠ 0 := by
          rintro rfl
          simp at h0
        have h1 : p.natDegree < k + 1 := by
          rw [Polynomial.degree_eq_natDegree hp0] at hp
          exact_mod_cast hp
        have h2 : p.divX.natDegree = p.natDegree - 1 := Polynomial.natDegree_divX_eq_natDegree_tsub_one
        have h3 : p.natDegree ≠ 0 := by
          intro hz
          apply h0
          rw [Polynomial.eq_C_of_natDegree_eq_zero hz]
          simp
        rw [Polynomial.degree_eq_natDegree h0, h2]
        have : p.natDegree - 1 < k := by omega
        exact_mod_cast this
    obtain ⟨cs, hlen, hcs⟩ := ih _ hdiv
    obtain ⟨c, hc⟩ := feZ_surjective (p.coeff 0)
    refine ⟨cs ++ [c], by simp [hlen], ?_⟩
    rw [polyOf_concat, hcs, hc, Polynomial.divX_mul_X_add]

/-- Through points with distinct abscissae there is a polynomial (R145). -/
theorem exists_through {xs : List FE} (ys : List FE) {k : Nat} (hdist : distinctBelow xs k) :
    ∃ cs : List FE, cs.length = k ∧ ∀ i < k, eval cs (elem xs i) = elem ys i := by
  have := prime251
  obtain ⟨cs, hlen, hcs⟩ := exists_list_of_degree_lt k
    (Lagrange.interpolate (range k) (fun j => feZ (elem xs j)) (fun j => feZ (elem ys j)))
    (by simpa using Lagrange.degree_interpolate_lt (fun j => feZ (elem ys j)) (feZ_injOn hdist))
  refine ⟨cs, hlen, fun i hi => ?_⟩
  apply feZ_injective
  rw [feZ_eval, hcs]
  exact Lagrange.eval_interpolate_at_node _ (feZ_injOn hdist) (mem_range.mpr hi)

/-- What interpolation can do when it does not raise (R145): it answers the one list of length `k` whose polynomial
passes through the points. -/
theorem interp_unique {xs ys : List FE} {k : Nat} (hdist : distinctBelow xs k)
    (hnz : ∀ i, i + 1 < k → elem xs i ≠ 0) :
    ∃ cs, interp k xs ys = some cs ∧ cs.length = k ∧ (∀ i < k, eval cs (elem xs i) = elem ys i) ∧
      ∀ ds : List FE, ds.length = k → (∀ i < k, eval ds (elem xs i) = elem ys i) → ds = cs := by
  obtain ⟨cs, hlen, hcs⟩ := exists_through ys hdist
  subst hlen
  have hi := interp_eval hdist hnz fun i hi => (hcs i hi).symm
  refine ⟨cs, hi, rfl, hcs, fun ds hdl hds => ?_⟩
  have hi2 : interp ds.length xs ys = some ds :=
    interp_eval (hdl ▸ hdist) (fun i h => hnz i (by omega)) fun i h => (hds i (by omega)).symm
  rw [hdl, hi] at hi2
  exact (Option.some.inj hi2).symm

/-- When interpolation raises (R146): two equal abscissae, or a zero one that is not the last. -/
theorem interp_eq_none {xs ys : List FE} {k : Nat}
    (h : ¬ distinctBelow xs k ∨ ∃ i, i + 1 < k ∧ elem xs i = 0) : interp k xs ys = none := by
  cases k with
  | zero =>
    exfalso
    rcases h with h | ⟨i, hi, -⟩
    · exact h fun i hi => absurd hi (by omega)
    · omega
  | succ k =>
    rw [interp, interpPasses, Option.bind_some]
    by_cases hd : distinctBelow xs (k + 1)
    · obtain ⟨i, hi, h0⟩ := h.resolve_left (not_not.mpr hd)
      cases k with
      | zero => omega
      | succ k =>
        cases lagSum xs ys (k + 1 + 1) with
        | none => rfl
        | some v =>
          rw [Option.bind_some, interpPasses, (deflate_spec xs ys v (k + 1)).1 ⟨i, by omega, h0⟩]
          rfl
    · rw [lagSum_eq_none hd]
      rfl

/-! ## The cheating search -/

theorem blindsBoth_iff (a0 a1 b0 b1 r : FE) :
    blindsBoth a0 a1 b0 b1 r = true ↔ fadd (fmul r a0) b0 = 0 ∧ fadd (fmul r a1) b1 = 0 := by
  simp [blindsBoth, feq_iff]

/-- What the search can do: answer the least blinding value that satisfies both equations, or find that there is none
(R204). -/
theorem cheatSearch_spec (a0 a1 b0 b1 : FE) :
    (cheatSearch a0 a1 b0 b1 = none ↔ ∀ r : FE, ¬ (fadd (fmul r a0) b0 = 0 ∧ fadd (fmul r a1) b1 = 0)) ∧
    ∀ r, cheatSearch a0 a1 b0 b1 = some r ↔
      (fadd (fmul r a0) b0 = 0 ∧ fadd (fmul r a1) b1 = 0) ∧
        ∀ r' : FE, r'.val < r.val → ¬ (fadd (fmul r' a0) b0 = 0 ∧ fadd (fmul r' a1) b1 = 0) := by
  have hval : ∀ r : FE, normInt (r.val : Int) = r := normInt_val_self
  have hnat : ∀ m : Nat, m < 251 → (normInt (m : Int)).val = m := by
    intro m hm
    have := normInt_val (m : Int)
    omega
  constructor
  · rw [cheatSearch, List.find?_eq_none]
    constructor
    · intro h r hr
      apply h r _ ((blindsBoth_iff ..).mpr hr)
      rw [List.mem_map]
      exact ⟨r.val, List.mem_range.mpr r.isLt, hval r⟩
    · intro h r _ hb
      exact h r ((blindsBoth_iff ..).mp hb)
  · intro r
    rw [cheatSearch, List.find?_map, Option.map_eq_some_iff]
    constructor
    · rintro ⟨m, hm, rfl⟩
      rw [List.find?_range_eq_some] at hm
      obtain ⟨hb, hlt, hmin⟩ := hm
      have hlt' : m < 251 := List.mem_range.mp hlt
      refine ⟨(blindsBoth_iff ..).mp hb, fun r' hr' hc => ?_⟩
      rw [hnat m hlt'] at hr'
      have := hmin r'.val hr'
      simp only [Function.comp, hval, Bool.not_eq_true'] at this
      rw [(blindsBoth_iff ..).mpr hc] at this
      simp at this
    · rintro ⟨hb, hmin⟩
      refine ⟨r.val, ?_, hval r⟩
      rw [List.find?_range_eq_some]
      refine ⟨?_, List.mem_range.mpr r.isLt, fun m hm => ?_⟩
      · simp only [Function.comp, hval]
        exact (blindsBoth_iff ..).mpr hb
      · have hm' : m < 251 := by omega
        simp only [Function.comp, Bool.not_eq_true']
        rw [← Bool.not_eq_true]
        intro hc
        exact hmin (normInt (m : Int)) (by rw [hnat m hm']; exact hm) ((blindsBoth_iff ..).mp hc)

end Sys2Proof.Machine
end

