-- ==== Sys2Proof/Laws/Units.lean ====
section
/-! SUPPORT. What the units compute, once for each shared operation: loading a bank (10_state.md R40), the draw port
(R45), the shadows the encoder writes (42_share_encoder.md R176, R177), packing and unpacking (44_embedding.md R233,
R234), and decoding blocks in turn (43_share_decoder.md R207). -/

namespace Sys2Proof.Machine

/-! ## Values -/

/-- Evaluation is the power sum of R141, as a number. -/
theorem eval_val (cs : List FE) (x : FE) : (eval cs x).val = powerSum cs x.val := by
  have h : feZ (eval cs x) = ((powerSum cs x.val : Nat) : ZMod 251) := by
    rw [feZ_eval_sum, powerSum, ZMod.natCast_mod, ← List.sum_toFinset _ List.nodup_range, Nat.cast_sum]
    rw [show (List.range cs.length).toFinset = Finset.range cs.length by ext; simp]
    simp [feZ]
  have h2 := (ZMod.natCast_eq_natCast_iff' _ _ _).mp h
  have h3 : powerSum cs x.val < 251 := Nat.mod_lt _ (by omega)
  have h4 := (eval cs x).isLt
  rwa [Nat.mod_eq_of_lt h4, Nat.mod_eq_of_lt h3] at h2

theorem powerSum_eq_iff {cs : List FE} {x y : FE} : powerSum cs x.val = y.val ↔ eval cs x = y := by
  rw [← eval_val]
  exact Fin.ext_iff.symm

theorem normInt_nat_val {m : Nat} (h : m < 251) : (normInt (m : Int)).val = m := by
  have := normInt_val (m : Int)
  omega

theorem elem_ofFn {n : Nat} (f : Nat → FE) {i : Nat} (h : i < n) :
    elem (Vector.ofFn fun j : Fin n => f j.val).toList i = f i := by
  simp [elem, List.getD, h]

theorem elem_append_left {xs ys : List FE} {i : Nat} (h : i < xs.length) : elem (xs ++ ys) i = elem xs i := by
  simp [elem, List.getElem?_append_left h]

theorem elem_append_right {xs ys : List FE} {i : Nat} (h : xs.length ≤ i) :
    elem (xs ++ ys) i = elem ys (i - xs.length) := by
  simp [elem, List.getElem?_append_right h]

theorem elem_take {xs : List FE} {n i : Nat} (h : i < n) : elem (xs.take n) i = elem xs i := by
  simp [elem, h]

theorem elem_of_length_le {xs : List FE} {i : Nat} (h : xs.length ≤ i) : elem xs i = 0 := by
  simp [elem, List.getElem?_eq_none h]

theorem elem_map_range {n : Nat} (f : Nat → FE) {i : Nat} (h : i < n) : elem ((List.range n).map f) i = f i := by
  simp [elem, h]

theorem elem_map_range' {a n : Nat} (f : Nat → FE) {i : Nat} (h : i < n) :
    elem ((List.range' a n).map f) i = f (a + i) := by
  simp [elem, h]

theorem elem_ext {xs ys : List FE} (hl : xs.length = ys.length) (h : ∀ i < xs.length, elem xs i = elem ys i) :
    xs = ys := by
  apply List.ext_getElem hl
  intro i h1 h2
  have := h i h1
  simpa [elem, h1, h2] using this

/-! ## Banks -/

/-- Loading a bank with a polynomial of length 1 to 8 makes it hold that polynomial (R40). -/
theorem Bank.load_holds {cs : List FE} (h : cs.length ≤ 8) : (Bank.load cs.length cs).holds cs := by
  constructor
  · rw [Bank.load, BitVec.toNat_ofNat, Nat.mod_eq_of_lt (by omega)]
  · intro i hi
    rw [Bank.load, elem_ofFn (fun j => if j < cs.length then elem cs j else 0) hi]
    split
    · rfl
    · rw [elem_of_length_le (by omega)]

/-- A bank loaded with a length of 1 to 8 is as R40 says. -/
theorem Bank.load_wf {len : Nat} (h1 : 1 ≤ len) (h8 : len ≤ 8) (cs : List FE) : (Bank.load len cs).wf := by
  have hl : (Bank.load len cs).len.toNat = len := by
    rw [Bank.load, BitVec.toNat_ofNat, Nat.mod_eq_of_lt (by omega)]
  refine ⟨by omega, by omega, fun i hi hle => ?_⟩
  rw [hl] at hle
  rw [Bank.load, elem_ofFn (fun j => if j < len then elem cs j else 0) hi, if_neg (by omega)]

/-! ## The draw port -/

theorem DrawPort.drawMany_length (n : Nat) (p : DrawPort) : (DrawPort.drawMany n p).1.length = n := by
  induction n generalizing p with
  | zero => rfl
  | succ n ih => simp [DrawPort.drawMany, ih]

/-- Every draw is in `[1, 250]` (R45). -/
theorem DrawPort.draw_range (p : DrawPort) : 1 ≤ p.draw.1.val ∧ p.draw.1.val ≤ 250 := by
  rw [DrawPort.draw]
  split
  · rename_i v rest h
    have hv : isDraw v = true := by
      have := List.head?_dropWhile_not (fun v => !isDraw v) p.queued
      rw [h] at this
      simpa using this
    simp only [isDraw, Bool.and_eq_true, decide_eq_true_eq] at hv
    rw [normByte_val]
    omega
  · have h := (Config.freeDraw p.taken).isLt
    have := normInt_val (((Config.freeDraw p.taken).val + 1 : Nat) : Int)
    simp only []
    omega

theorem DrawPort.drawMany_range (n : Nat) (p : DrawPort) :
    ∀ r ∈ (DrawPort.drawMany n p).1, 1 ≤ r.val ∧ r.val ≤ 250 := by
  induction n generalizing p with
  | zero => simp [DrawPort.drawMany]
  | succ n ih =>
    intro r hr
    rw [DrawPort.drawMany] at hr
    rcases List.mem_cons.mp hr with rfl | hr
    · exact p.draw_range
    · exact ih _ r hr

/-! ## Storing a run of bytes at locations that exist -/

/-- What a fill of bytes that exist does to every byte that exists (R63, R65). -/
theorem byteAt_fill_inRange (s : State) {p : Config.Params} {sp sp' : Space} {slot slot' i' : Nat} (bytes : List Byte)
    (hb : ∀ i < bytes.length, inRange p sp slot i = true) (h' : inRange p sp' slot' i' = true) :
    (s.fill sp slot bytes).byteAt sp' slot' i' =
      if sameMemory sp slot sp' slot' ∧ i' < bytes.length then bytes.getD i' 0#8 else s.byteAt sp' slot' i' := by
  have ha := addressable_of_inRange h'
  by_cases hl : bytes.length = 0
  · have hnil : bytes = [] := List.length_eq_zero_iff.mp hl
    subst hnil
    rw [if_neg (by simp)]
    have hlook := lookup_splice s.mem (cellKey sp slot 0) [] (cellKey sp' slot' i')
    rw [if_neg (by simp)] at hlook
    rw [State.byteAt, State.fill_mem, State.fill_epoch, hlook]
    rfl
  · have hlast := addressable_of_inRange (hb (bytes.length - 1) (by omega))
    obtain ⟨hs, hlt⟩ := hlast
    have h := byteAt_fill s bytes hs (by omega) ha
    split
    · rename_i hc
      exact h.1 hc
    · rename_i hc
      exact h.2 hc

/-- A fill of bytes that exist lists only locations that exist (R63). -/
theorem State.memInRange_fill {s : State} (h : s.memInRange) {sp : Space} {slot : Nat} {bytes : List Byte}
    (hb : ∀ i < bytes.length, inRange s.params sp slot i = true) : (s.fill sp slot bytes).memInRange := by
  intro p hp
  rw [State.fill_mem] at hp
  rcases mem_splice hp with hp | ⟨hlo, hhi⟩
  · exact h p hp
  · obtain ⟨d, hd⟩ := Nat.exists_eq_add_of_le hlo
    refine ⟨sp, slot, d, hb d (by omega), ?_⟩
    rw [hd, ← cellKey_add, Nat.zero_add]

/-! ## The encoder -/

theorem shadowOf_length (polys : List (List FE × List FE)) (j : Nat) : (shadowOf polys j).length = 2 * polys.length := by
  induction polys with
  | nil => rfl
  | cons p rest ih =>
    simp only [shadowOf, List.flatMap_cons, List.length_append, List.length_cons, List.length_nil] at ih ⊢
    omega

/-- Bytes `2b` and `2b + 1` of a shadow are the values of the two polynomials of block `b` (R176). -/
theorem shadowOf_getD {polys : List (List FE × List FE)} {b : Nat} (h : b < polys.length) (j : Nat) :
    (shadowOf polys j).getD (2 * b) 0#8 = feByte (eval polys[b].1 (normInt (j : Int))) ∧
    (shadowOf polys j).getD (2 * b + 1) 0#8 = feByte (eval polys[b].2 (normInt (j : Int))) := by
  induction polys generalizing b with
  | nil => simp at h
  | cons p rest ih =>
    cases b with
    | zero => simp [shadowOf]
    | succ b =>
      have := ih (b := b) (by simpa using h)
      have e : 2 * (b + 1) = 2 * b + 1 + 1 := by omega
      have e2 : 2 * b + 1 + 1 + 1 = (2 * b + 1) + 1 + 1 := by omega
      simp only [shadowOf, List.flatMap_cons, List.cons_append, List.nil_append, e, List.getD_cons_succ,
        List.getElem_cons_succ] at this ⊢
      exact this

/-- What writing the shadows does: the memory alone changes, bytes `0` to `2 * NB - 1` of the shadows of the slots below
`n` are those of the participants, and every other byte is as before (R177). -/
theorem State.writeShadows_spec (s : State) (polys : List (List FE × List FE)) (n : Nat)
    (hn : n ≤ s.params.nMax.val) (hl : 2 * polys.length ≤ shadowDepth s.params) :
    s.writeShadows polys n = { s with mem := (s.writeShadows polys n).mem } ∧
    (s.mem.wf → (s.writeShadows polys n).mem.wf) ∧
    (s.memInRange → (s.writeShadows polys n).memInRange) ∧
    ∀ sp slot i, inRange s.params sp slot i = true → (s.writeShadows polys n).byteAt sp slot i =
      if sp = .shadow ∧ slot < n ∧ i < 2 * polys.length then (shadowOf polys (slot + 1)).getD i 0#8
      else s.byteAt sp slot i := by
  induction n with
  | zero => exact ⟨rfl, id, id, by simp [State.writeShadows]⟩
  | succ n ih =>
    obtain ⟨h1, h2, h3, h4⟩ := ih (by omega)
    have hp : (s.writeShadows polys n).params = s.params := by rw [h1]
    have e : s.writeShadows polys (n + 1) = (s.writeShadows polys n).fill .shadow n (shadowOf polys (n + 1)) := by
      simp [State.writeShadows, List.range_succ]
    have hb : ∀ i < (shadowOf polys (n + 1)).length, inRange s.params .shadow n i = true := by
      intro i hi
      rw [shadowOf_length] at hi
      rw [inRange_shadow]
      omega
    rw [e]
    refine ⟨?_, fun hw => splice_wf (h2 hw) _ _, fun hr => State.memInRange_fill (h3 hr) (by rwa [hp]), ?_⟩
    · rw [h1]
      rfl
    · intro sp slot i hr
      rw [byteAt_fill_inRange _ _ hb hr, h4 sp slot i hr, shadowOf_length]
      by_cases hsp : sp = .shadow
      · subst hsp
        by_cases hs : slot = n
        · subst hs
          by_cases hi : i < 2 * polys.length <;> simp [hi]
        · have : slot < n + 1 ↔ slot < n := by omega
          simp [hs, this]
      · have : ¬ sameMemory .shadow n sp slot := fun h => hsp h.1
        simp [hsp]

/-! ## The embedding unit -/

theorem toNat_or_of_and_eq_zero {x y : Byte} (h : x &&& y = 0#8) : (x ||| y).toNat = x.toNat + y.toNat := by
  rw [← BitVec.add_eq_or_of_and_eq_zero _ _ h, BitVec.toNat_add_of_and_eq_zero h]

/-- The group width is 4 or 2 (R230). -/
theorem State.groupWidth_cases (s : State) :
    (s.groupWidth = 4 ∧ s.groupsPerByte = 2 ∧ s.groupMask = 15#8) ∨
      (s.groupWidth = 2 ∧ s.groupsPerByte = 4 ∧ s.groupMask = 3#8) := by
  unfold State.groupsPerByte State.groupMask State.groupWidth
  split
  · exact .inl ⟨rfl, rfl, rfl⟩
  · exact .inr ⟨rfl, rfl, rfl⟩

theorem toNat_and_mask (x : Byte) {w : Nat} (hw : w ≤ 8) : (x &&& BitVec.ofNat 8 (2 ^ w - 1)).toNat = x.toNat % 2 ^ w := by
  have h : 2 ^ w - 1 < 256 := by
    have : 2 ^ w ≤ 2 ^ 8 := Nat.pow_le_pow_right (by omega) hw
    have : 0 < 2 ^ w := Nat.two_pow_pos w
    omega
  rw [BitVec.toNat_and, BitVec.toNat_ofNat, Nat.mod_eq_of_lt h, Nat.and_two_pow_sub_one_eq_mod]

/-- A group of a shadow byte as a number (R233). -/
theorem State.groupOf_toNat (s : State) (v : Byte) (t : Nat) :
    (s.groupOf v t).toNat = v.toNat / 2 ^ (8 - s.groupWidth * (t + 1)) % 2 ^ s.groupWidth := by
  have hw : s.groupWidth ≤ 8 := by rcases s.groupWidth_cases with h | h <;> omega
  rw [State.groupOf, State.groupMask, toNat_and_mask _ hw, BitVec.toNat_ushiftRight, Nat.shiftRight_eq_div_pow]

theorem keep_high_four : ∀ c : Byte, (c &&& (0xFF#8 - 15#8)).toNat = c.toNat / 2 ^ 4 * 2 ^ 4 := by decide

theorem keep_high_two : ∀ c : Byte, (c &&& (0xFF#8 - 3#8)).toNat = c.toNat / 2 ^ 2 * 2 ^ 2 := by decide

/-- A packed cover byte as a number: the bits from `W` up kept, those below replaced (R233). -/
theorem State.packedByte_toNat (s : State) (slot idx : Nat) :
    (s.packedByte slot idx).toNat =
      (s.byteAt .cover slot idx).toNat / 2 ^ s.groupWidth * 2 ^ s.groupWidth +
        (s.byteAt .shadow slot (idx / s.groupsPerByte)).toNat /
          2 ^ (8 - s.groupWidth * (idx % s.groupsPerByte + 1)) % 2 ^ s.groupWidth := by
  have hz : ∀ c g m : Byte, m &&& (0xFF#8 - m) = 0#8 → (c &&& (0xFF#8 - m)) &&& (g &&& m) = 0#8 := by
    intro c g m hm
    have e : (c &&& (0xFF#8 - m)) &&& (g &&& m) = (c &&& g) &&& (m &&& (0xFF#8 - m)) := by ac_rfl
    rw [e, hm, BitVec.and_zero]
  rw [State.packedByte, toNat_or_of_and_eq_zero, State.groupOf_toNat]
  · rcases s.groupWidth_cases with ⟨hw, -, hm⟩ | ⟨hw, -, hm⟩
    · rw [hm, hw, keep_high_four]
    · rw [hm, hw, keep_high_two]
  · refine hz _ _ _ ?_
    rcases s.groupWidth_cases with ⟨-, -, hm⟩ | ⟨-, -, hm⟩ <;> rw [hm] <;> rfl

/-- What packing does: the cover bytes in use are the packed ones, every other byte is as before (R233). -/
theorem State.pack_spec {s : State} {slot : Nat} (hs : slot < s.params.nMax.val)
    (hc : s.coverUsed ≤ s.params.coverDepth.val) :
    (s.pack slot = { s with mem := (s.pack slot).mem }) ∧ (s.memInRange → (s.pack slot).memInRange) ∧
    ∀ sp slot' i, inRange s.params sp slot' i = true → (s.pack slot).byteAt sp slot' i =
      if sp = .cover ∧ slot' = slot ∧ i < s.coverUsed then s.packedByte slot i else s.byteAt sp slot' i := by
  have hb : ∀ i < ((List.range s.coverUsed).map (s.packedByte slot)).length, inRange s.params .cover slot i = true := by
    intro i hi
    rw [List.length_map, List.length_range] at hi
    rw [inRange_cover]
    omega
  refine ⟨rfl, fun h => State.memInRange_fill h hb, fun sp slot' i hr => ?_⟩
  rw [State.pack, byteAt_fill_inRange _ _ hb hr]
  by_cases hsp : sp = .cover
  · subst hsp
    by_cases hs2 : slot' = slot
    · subst hs2
      by_cases hi : i < s.coverUsed <;> simp [hi]
    · simp [hs2]
  · simp [hsp]

/-- What extraction into a shadow memory does (R234, R237). -/
theorem State.fillShadow_spec {s : State} {slot : Nat} (hs : slot < s.params.nMax.val) (bytes : List Byte)
    (hl : bytes.length ≤ shadowDepth s.params) :
    (s.memInRange → (s.fill .shadow slot bytes).memInRange) ∧
    ∀ sp slot' i, inRange s.params sp slot' i = true → (s.fill .shadow slot bytes).byteAt sp slot' i =
      if sp = .shadow ∧ slot' = slot ∧ i < bytes.length then bytes.getD i 0#8 else s.byteAt sp slot' i := by
  have hb : ∀ i < bytes.length, inRange s.params .shadow slot i = true := by
    intro i hi
    rw [inRange_shadow]
    omega
  refine ⟨fun h => State.memInRange_fill h hb, fun sp slot' i hr => ?_⟩
  rw [byteAt_fill_inRange _ _ hb hr]
  by_cases hsp : sp = .shadow
  · subst hsp
    by_cases hs2 : slot' = slot <;> by_cases hi : i < bytes.length <;> simp [hs2, hi]
  · simp [hsp]

/-- What filling the secret plane does (R207). -/
theorem State.fillSecret_spec {s : State} (bytes : List Byte) (hl : bytes.length ≤ s.params.secretDepth.val) :
    (s.memInRange → (s.fill .secret 0 bytes).memInRange) ∧
    ∀ sp slot' i, inRange s.params sp slot' i = true → (s.fill .secret 0 bytes).byteAt sp slot' i =
      if sp = .secret ∧ i < bytes.length then bytes.getD i 0#8 else s.byteAt sp slot' i := by
  have hb : ∀ i < bytes.length, inRange s.params .secret 0 i = true := by
    intro i hi
    rw [inRange_secret]
    omega
  refine ⟨fun h => State.memInRange_fill h hb, fun sp slot' i hr => ?_⟩
  rw [byteAt_fill_inRange _ _ hb hr]
  by_cases hsp : sp = .secret <;> by_cases hi : i < bytes.length <;> simp [hsp, hi]

theorem shift_four : ∀ x : Byte, x <<< 4 = (x <<< 4) &&& (0xFF#8 - 15#8) ∧ (x <<< 4).toNat = x.toNat * 16 % 256 := by
  decide

theorem shift_two : ∀ x : Byte, x <<< 2 = (x <<< 2) &&& (0xFF#8 - 3#8) ∧ (x <<< 2).toNat = x.toNat * 4 % 256 := by
  decide

/-- One step of unpacking, as a number (R234). -/
theorem append_group_four (x y : Byte) : ((x <<< 4) ||| (y &&& 15#8)).toNat = x.toNat * 16 % 256 + y.toNat % 16 := by
  have h : (x <<< 4) &&& (y &&& 15#8) = 0#8 := by
    have e : ((x <<< 4) &&& (0xFF#8 - 15#8)) &&& (y &&& 15#8) = ((x <<< 4) &&& y) &&& ((0xFF#8 - 15#8) &&& 15#8) := by
      ac_rfl
    rw [(shift_four x).1, e]
    simp
  rw [toNat_or_of_and_eq_zero h, (shift_four x).2]
  congr 1
  exact toNat_and_mask y (w := 4) (by omega)

theorem append_group_two (x y : Byte) : ((x <<< 2) ||| (y &&& 3#8)).toNat = x.toNat * 4 % 256 + y.toNat % 4 := by
  have h : (x <<< 2) &&& (y &&& 3#8) = 0#8 := by
    have e : ((x <<< 2) &&& (0xFF#8 - 3#8)) &&& (y &&& 3#8) = ((x <<< 2) &&& y) &&& ((0xFF#8 - 3#8) &&& 3#8) := by
      ac_rfl
    rw [(shift_two x).1, e]
    simp
  rw [toNat_or_of_and_eq_zero h, (shift_two x).2]
  congr 1
  exact toNat_and_mask y (w := 2) (by omega)

/-- An unpacked byte is the byte its cover pixels carry (R234). -/
theorem State.unpackByte_toNat {s : State} (hk : s.kOk) (slot q : Nat) :
    (s.unpackByte slot q).toNat = s.carriedByte slot q := by
  have hw := State.groupWidth_eq hk
  have hg := State.groupsPerByte_eq hk
  rw [State.carriedByte, ← hw, ← hg, State.unpackByte]
  rcases s.groupWidth_cases with ⟨h1, h2, h3⟩ | ⟨h1, h2, h3⟩
  · rw [h1, h2, h3]
    simp only [List.range, List.range.loop, List.foldl, List.map, List.sum_cons, List.sum_nil, append_group_four]
    simp only [BitVec.toNat_ofNat]
    omega
  · rw [h1, h2, h3]
    simp only [List.range, List.range.loop, List.foldl, List.map, List.sum_cons, List.sum_nil, append_group_two]
    simp only [BitVec.toNat_ofNat]
    omega

end Sys2Proof.Machine
end

