-- ==== Sys2Proof/Laws/Decoder.lean ====
section
/-! SUPPORT. What the decoder computes, once for each shared operation: the interpolation of one block
(43_share_decoder.md R202, R210), the cheating check (R204), decoding blocks in turn (R207), committing a plane (R207,
R209) and storing the extracted shadows (R208). -/

namespace Sys2Proof.Machine

/-! ## Interpolating one block -/

theorem interpPasses_length (xs : List FE) (top : Nat) (w : List FE) (last : Option FE) (cs : List FE)
    (h : interpPasses xs top w last = some cs) : cs.length = top := by
  induction top generalizing w last cs with
  | zero =>
    have h0 : interpPasses xs 0 w last = some [] := by cases last <;> rfl
    rw [h0] at h
    rw [← Option.some.inj h]
    rfl
  | succ top ih =>
    rw [interpPasses.eq_def] at h
    obtain ⟨w', -, h⟩ := Option.bind_eq_some_iff.mp h
    obtain ⟨c, -, h⟩ := Option.bind_eq_some_iff.mp h
    obtain ⟨higher, hh, rfl⟩ := Option.map_eq_some_iff.mp h
    simp [ih _ _ _ hh]

/-- Interpolation answers a list of length `k` (R144). -/
theorem interp_length {k : Nat} {xs ys cs : List FE} (h : interp k xs ys = some cs) : cs.length = k :=
  interpPasses_length xs k ys none cs h

/-- The abscissae that the claims accept are those that interpolation accepts (R145). -/
theorem abscissaeOk_iff {k : Nat} {xs : List FE} {x : Nat → Nat} (h : ∀ i < k, (elem xs i).val = x i) :
    abscissaeOk k x ↔ distinctBelow xs k ∧ ∀ i, i + 1 < k → elem xs i ≠ 0 := by
  have hv : ∀ i j, i < k → j < k → (x j ≠ x i ↔ elem xs j ≠ elem xs i) := by
    intro i j hi hj
    rw [← h i hi, ← h j hj, Ne, Ne, Fin.ext_iff]
  constructor
  · rintro ⟨hd, hn⟩
    refine ⟨fun i hi j hj hji => (hv i j hi hj).mp (hd i hi j hj hji), fun i hi h0 => hn i hi ?_⟩
    rw [← h i (by omega), h0]
    rfl
  · rintro ⟨hd, hn⟩
    refine ⟨fun i hi j hj hji => (hv i j hi hj).mpr (hd i hi j hj hji), fun i hi h0 => hn i hi ?_⟩
    rw [← h i (by omega)] at h0
    exact Fin.ext h0

/-- The abscissa of share `i` (R202). -/
theorem State.shareXs_elem (s : State) {i : Nat} (h : i < s.k.toNat) : (elem s.shareXs i).val = s.shareId i := by
  rw [State.shareXs, elem_map_range _ h, normByte_val, State.shareId]

/-- The ordinate of share `i` (R202). -/
theorem shareYs_elem (shadows : List (List Byte)) (q : Nat) {i : Nat} (h : i < shadows.length) :
    (elem (shareYs shadows q) i).val = ((shadows.getD i []).getD q 0#8).toNat % 251 := by
  simp [shareYs, elem, h, normByte_val]

/-- Shares given byte by byte as numbers. -/
def sharesAre (s : State) (shadows : List (List Byte)) (share : Nat → Nat → Nat) : Prop :=
  shadows.length = s.k.toNat ∧
    ∀ i < s.k.toNat, ∀ q < s.shadowLen, ((shadows.getD i []).getD q 0#8).toNat = share i q

theorem State.storedShadows_are (s : State) : sharesAre s s.storedShadows s.storedByte := by
  refine ⟨by simp [State.storedShadows], fun i hi q hq => ?_⟩
  simp [State.storedShadows, hi, hq, State.storedByte]

theorem State.carriedShadows_are {s : State} (hk : s.kOk) :
    sharesAre s s.carriedShadows fun i q => s.carriedByte (s.selAt i) q := by
  refine ⟨by simp [State.carriedShadows], fun i hi q hq => ?_⟩
  simp [State.carriedShadows, State.unpack, hi, hq, State.unpackByte_toNat hk]

/-- One polynomial of a block: the one that passes through the shares is the one interpolated (R145, R202). -/
theorem State.interp_share {s : State} {shadows : List (List Byte)} {share : Nat → Nat → Nat} {q : Nat}
    (ha : abscissaeOk s.k.toNat s.shareId) (hs : sharesAre s shadows share) (hq : q < s.shadowLen) {f : List FE}
    (hf : s.passes f fun i => share i q) : interp s.k.toNat s.shareXs (shareYs shadows q) = some f := by
  obtain ⟨hlen, hv⟩ := hf
  obtain ⟨hd, hn⟩ := (abscissaeOk_iff fun i hi => s.shareXs_elem hi).mp ha
  rw [← hlen] at hd hn ⊢
  refine interp_eval hd hn fun i hi => ?_
  rw [hlen] at hi
  apply Fin.ext
  rw [shareYs_elem _ _ (by rw [hs.1]; exact hi), hs.2 i hi q hq, eval_val, s.shareXs_elem hi, hv i hi]

/-- Whatever is interpolated passes through the shares (R145, R202). -/
theorem State.passes_of_interp {s : State} {shadows : List (List Byte)} {share : Nat → Nat → Nat} {q : Nat}
    (ha : abscissaeOk s.k.toNat s.shareId) (hs : sharesAre s shadows share) (hq : q < s.shadowLen) :
    ∃ f, interp s.k.toNat s.shareXs (shareYs shadows q) = some f ∧ s.passes f fun i => share i q := by
  obtain ⟨hd, hn⟩ := (abscissaeOk_iff fun i hi => s.shareXs_elem hi).mp ha
  obtain ⟨f, hf, hlen, hv, -⟩ := interp_unique (ys := shareYs shadows q) hd hn
  refine ⟨f, hf, hlen, fun i hi => ?_⟩
  rw [← s.shareXs_elem hi, ← eval_val, hv i hi, shareYs_elem _ _ (by rw [hs.1]; exact hi), hs.2 i hi q hq]

/-- A block whose shares are those of `f` and `g` interpolates to them (R203). -/
theorem State.interpBlock_eq_some {s : State} {shadows : List (List Byte)} {share : Nat → Nat → Nat} {b : Nat}
    (ha : abscissaeOk s.k.toNat s.shareId) (hs : sharesAre s shadows share) (hb : b < s.blocks) {f g : List FE}
    (h : s.blockIs share b f g) : s.interpBlock shadows b = some (f, g) := by
  have hl : s.shadowLen = 2 * s.blocks := rfl
  rw [State.interpBlock, State.interp_share ha hs (by omega) h.1, Option.bind_some,
    State.interp_share ha hs (by omega) h.2]
  rfl

/-- Identifiers that interpolation does not accept raise, whatever the shares are (R146). -/
theorem State.interpBlock_eq_none {s : State} (ha : ¬ abscissaeOk s.k.toNat s.shareId) (shadows : List (List Byte))
    (b : Nat) : s.interpBlock shadows b = none := by
  rw [abscissaeOk_iff fun i hi => s.shareXs_elem hi, not_and_or] at ha
  have h : interp s.k.toNat s.shareXs (shareYs shadows (2 * b)) = none := by
    refine interp_eq_none ?_
    rcases ha with ha | ha
    · exact .inl ha
    · simp only [not_forall, not_not] at ha
      obtain ⟨i, hi, h0⟩ := ha
      exact .inr ⟨i, hi, h0⟩
  rw [State.interpBlock, h]
  rfl

theorem State.interpBlock_length {s : State} {shadows : List (List Byte)} {b : Nat} {fg : List FE × List FE}
    (h : s.interpBlock shadows b = some fg) : fg.1.length = s.k.toNat ∧ fg.2.length = s.k.toNat := by
  obtain ⟨f, hf, h⟩ := Option.bind_eq_some_iff.mp h
  obtain ⟨g, hg, rfl⟩ := Option.map_eq_some_iff.mp h
  exact ⟨interp_length hf, interp_length hg⟩

/-! ## The cheating check -/

theorem fadd_fmul_eq_zero (r a b : FE) : fadd (fmul r a) b = 0 ↔ (r.val * a.val + b.val) % 251 = 0 := by
  rw [← Fin.val_eq_zero_iff, fadd_val, fmul_val, Nat.mod_add_mod]

/-- `cheat(f, g)`: the least blinding value, or nothing when there is none (R204). -/
theorem cheat_spec (f g : List FE) :
    (cheat f g = none ↔ ∀ r < 251, ¬ blinds f g r) ∧
    ∀ r, cheat f g = some r ↔ blinds f g r.val ∧ ∀ r' < r.val, ¬ blinds f g r' := by
  have hb : ∀ r : FE, (fadd (fmul r (elem f 0)) (elem g 0) = 0 ∧ fadd (fmul r (elem f 1)) (elem g 1) = 0) ↔
      blinds f g r.val := by
    intro r
    rw [fadd_fmul_eq_zero, fadd_fmul_eq_zero]
    rfl
  have h := cheatSearch_spec (elem f 0) (elem f 1) (elem g 0) (elem g 1)
  constructor
  · rw [cheat, h.1]
    constructor
    · intro hn r hr
      have := hn ⟨r, hr⟩
      rwa [hb] at this
    · intro hn r
      rw [hb]
      exact hn r.val r.isLt
  · intro r
    rw [cheat, h.2 r, hb]
    refine and_congr_right fun _ => ⟨fun hn r' hr' => ?_, fun hn r' hr' => ?_⟩
    · have := hn ⟨r', Nat.lt_trans hr' r.isLt⟩ hr'
      rwa [hb] at this
    · rw [hb]
      exact hn r'.val hr'

/-- When some blinding value fits, the check passes with one (R204). -/
theorem cheat_isSome {f g : List FE} (h : ∃ r < 251, blinds f g r) : ∃ r, cheat f g = some r := by
  cases hc : cheat f g with
  | some r => exact ⟨r, rfl⟩
  | none =>
    obtain ⟨r, hr, hb⟩ := h
    exact absurd hb ((cheat_spec f g).1.mp hc r hr)

/-! ## Decoding blocks in turn -/

theorem State.decodeBlock_ok {s : State} {shadows : List (List Byte)} {b : Nat} {f g : List FE}
    (hi : s.interpBlock shadows b = some (f, g)) (h : ∃ r < 251, blinds f g r) :
    s.decodeBlock shadows b = .ok (reassemble f g) := by
  obtain ⟨r, hr⟩ := cheat_isSome h
  rw [State.decodeBlock, hi, orRaise_some]
  change (orRaise (.cheatingDetected b) (cheat f g) >>= fun _ => .ok (reassemble f g)) = _
  rw [hr, orRaise_some]
  rfl

theorem State.decodeBlock_forged {s : State} {shadows : List (List Byte)} {b : Nat} {f g : List FE}
    (hi : s.interpBlock shadows b = some (f, g)) (h : ∀ r < 251, ¬ blinds f g r) :
    s.decodeBlock shadows b = .error (.cheatingDetected b) := by
  rw [State.decodeBlock, hi, orRaise_some]
  change (orRaise (.cheatingDetected b) (cheat f g) >>= fun _ => .ok (reassemble f g)) = _
  rw [(cheat_spec f g).1.mpr h, orRaise_none]
  rfl

theorem State.decodeBlock_badIds {s : State} {shadows : List (List Byte)} {b : Nat}
    (hi : s.interpBlock shadows b = none) : s.decodeBlock shadows b = .error (.divisionByZero b) := by
  rw [State.decodeBlock, hi, orRaise_none]
  rfl

/-- What one decoded block can be: the reassembly of what was interpolated, `2K - 2` pixels (R206). -/
theorem State.decodeBlock_length {s : State} {shadows : List (List Byte)} {b : Nat} {out : List FE}
    (h : s.decodeBlock shadows b = .ok out) : out.length = s.k.toNat + (s.k.toNat - 2) := by
  obtain ⟨fg, hi, h⟩ := orRaise_bind_ok h
  obtain ⟨r, -, h⟩ := orRaise_bind_ok h
  obtain ⟨hf, hg⟩ := State.interpBlock_length hi
  cases h
  simp [reassemble, hf, hg]

/-- Blocks that all decode give their pixels one after the other (R207). -/
theorem State.decodeBlocks_ok {s : State} {shadows : List (List Byte)} {out : Nat → List FE} (n b : Nat)
    (h : ∀ i < n, s.decodeBlock shadows (b + i) = .ok (out (b + i))) :
    s.decodeBlocks shadows n b = .ok ((List.range' b n).flatMap out) := by
  induction n generalizing b with
  | zero => rfl
  | succ n ih =>
    have h0 := h 0 (by omega)
    rw [Nat.add_zero] at h0
    have hr := ih (b + 1) fun i hi => by
      have := h (i + 1) (by omega)
      rwa [show b + (i + 1) = b + 1 + i by omega] at this
    rw [State.decodeBlocks, h0, hr]
    rfl

/-- The first block that raises ends the decoding (R207). -/
theorem State.decodeBlocks_error {s : State} {shadows : List (List Byte)} {trap : Trap} {m : Nat} (n b : Nat)
    (hm : m < n) (h : ∀ i < m, ∃ out, s.decodeBlock shadows (b + i) = .ok out)
    (he : s.decodeBlock shadows (b + m) = .error trap) : s.decodeBlocks shadows n b = .error trap := by
  induction n generalizing b m with
  | zero => omega
  | succ n ih =>
    cases m with
    | zero =>
      rw [Nat.add_zero] at he
      rw [State.decodeBlocks, he]
      rfl
    | succ m =>
      obtain ⟨out, h0⟩ := h 0 (by omega)
      rw [Nat.add_zero] at h0
      have hr := ih (m := m) (b + 1) (by omega)
        (fun i hi => by
          have := h (i + 1) (by omega)
          rwa [show b + (i + 1) = b + 1 + i by omega] at this)
        (by rwa [show b + (m + 1) = b + 1 + m by omega] at he)
      rw [State.decodeBlocks, h0, hr]
      rfl

/-- A decoded plane has the pixels of its blocks (R207). -/
theorem State.decodeBlocks_length {s : State} {shadows : List (List Byte)} (n b : Nat) {plane : List FE}
    (h : s.decodeBlocks shadows n b = .ok plane) : plane.length = n * (s.k.toNat + (s.k.toNat - 2)) := by
  induction n generalizing b plane with
  | zero =>
    cases h
    simp
  | succ n ih =>
    rw [State.decodeBlocks] at h
    cases h1 : s.decodeBlock shadows b with
    | error e => rw [h1] at h; cases h
    | ok out =>
      rw [h1] at h
      cases h2 : s.decodeBlocks shadows n (b + 1) with
      | error e =>
        change (s.decodeBlocks shadows n (b + 1) >>= fun rest => Except.ok (out ++ rest)) = _ at h
        rw [h2] at h
        cases h
      | ok rest =>
        change (s.decodeBlocks shadows n (b + 1) >>= fun rest => Except.ok (out ++ rest)) = _ at h
        rw [h2] at h
        cases h
        rw [List.length_append, State.decodeBlock_length h1, ih _ h2]
        ring

/-- Entry `u` of chunk `b` of equally long chunks laid end to end. -/
theorem getD_flatMap_range {α : Type} (d : α) (out : Nat → List α) {len n b u : Nat} (hl : ∀ i < n, (out i).length = len)
    (hb : b < n) (hu : u < len) : ((List.range' 0 n).flatMap out).getD (b * len + u) d = (out b).getD u d := by
  induction n with
  | zero => omega
  | succ n ih =>
    have hlen : ∀ m ≤ n, ((List.range' 0 m).flatMap out).length = m * len := by
      intro m hm
      induction m with
      | zero => simp
      | succ m ihm =>
        rw [← List.range_eq_range', List.range_succ, List.flatMap_append, List.length_append,
          List.range_eq_range', ihm (by omega), List.flatMap_cons, List.flatMap_nil, List.append_nil, hl m (by omega)]
        ring
    rw [← List.range_eq_range', List.range_succ, List.flatMap_append, List.range_eq_range', List.flatMap_cons,
      List.flatMap_nil, List.append_nil]
    by_cases hbn : b = n
    · subst hbn
      rw [List.getD_append_right _ _ _ _ (by rw [hlen b (by omega)]; omega), hlen b (by omega)]
      congr 1
      omega
    · rw [List.getD_append _ _ _ _ ?_]
      · exact ih (fun i hi => hl i (by omega)) (by omega)
      · rw [hlen n (by omega)]
        have : (b + 1) * len ≤ n * len := Nat.mul_le_mul_right _ (by omega)
        rw [Nat.add_mul, Nat.one_mul] at this
        omega

/-! ## Reassembly -/

theorem reassemble_length {f g : List FE} {k : Nat} (hf : f.length = k) (hg : g.length = k) :
    (reassemble f g).length = k + (k - 2) := by
  simp [reassemble, hf, hg]

/-- Pixel `u` of a reassembled block (R206). -/
theorem elem_reassemble {f g : List FE} {k u : Nat} (hf : f.length = k) :
    elem (reassemble f g) u = reassembled k f g u := by
  rw [reassembled]
  split
  · rename_i h
    rw [reassemble, elem_append_left (by omega)]
  · rename_i h
    rw [reassemble, elem_append_right (by omega), hf, elem, elem, List.getD_eq_getElem?_getD,
      List.getD_eq_getElem?_getD, List.getElem?_drop]
    congr 2
    omega

/-- What committing a plane of `NPIX` pixels does (R207, R209). -/
theorem State.commitPlane_spec {s : State} {plane : List FE} (hl : plane.length ≤ s.params.secretDepth.val) :
    s.commitPlane plane = { s with
      mem := (s.commitPlane plane).mem
      outw := (s.slotRegs (s.selAt 0)).cw
      outh := (s.slotRegs (s.selAt 0)).ch } ∧
    (s.mem.wf → (s.commitPlane plane).mem.wf) ∧ (s.memInRange → (s.commitPlane plane).memInRange) ∧
    ∀ sp slot i, inRange s.params sp slot i = true → (s.commitPlane plane).byteAt sp slot i =
      if sp = .secret ∧ i < plane.length then feByte (elem plane i) else s.byteAt sp slot i := by
  obtain ⟨h1, h2⟩ := State.fillSecret_spec (s := s) (plane.map feByte) (by rwa [List.length_map])
  refine ⟨rfl, fun hw => splice_wf hw _ _, h1, fun sp slot i hr => ?_⟩
  refine (h2 sp slot i hr).trans ?_
  rw [List.length_map]
  split
  · rename_i hc
    simp [elem, hc.2]
  · rfl

/-! ## Storing shadows -/

/-- What storing the extracted shadows does (R208): the memory alone changes, the shadow of each selected slot is what
`bytes` gives for the slot, every other byte is as before. -/
theorem State.storeShadows_spec {s0 : State} (bytes : Nat → List Byte) {len : Nat} (hlen : ∀ slot, (bytes slot).length = len)
    (hl : len ≤ shadowDepth s0.params) (n i : Nat) (hs : ∀ j < n, s0.selAt (i + j) < s0.params.nMax.val) :
    ∀ s : State, s = { s0 with mem := s.mem } →
    let t := State.storeShadows s ((List.range' i n).map fun j => bytes (s0.selAt j)) i
    t = { s with mem := t.mem } ∧ (s.mem.wf → t.mem.wf) ∧ (s.memInRange → t.memInRange) ∧
      ∀ sp slot a, inRange s.params sp slot a = true → t.byteAt sp slot a =
        if sp = .shadow ∧ (∃ j < n, slot = s0.selAt (i + j)) ∧ a < len then (bytes slot).getD a 0#8
        else s.byteAt sp slot a := by
  induction n generalizing i with
  | zero =>
    intro s _
    refine ⟨rfl, id, id, fun sp slot a _ => ?_⟩
    rw [if_neg]
    · rfl
    · rintro ⟨-, ⟨j, hj, -⟩, -⟩
      omega
  | succ n ih =>
    intro s hs0
    have hsel : s.selAt i = s0.selAt i := by rw [hs0]; rfl
    have hpar : s.params = s0.params := by rw [hs0]
    have hslot : s0.selAt i < s.params.nMax.val := by rw [hpar]; exact hs 0 (by omega)
    have hfill := State.fillShadow_spec (s := s) hslot (bytes (s0.selAt i)) (by rw [hlen, hpar]; exact hl)
    have hrec := ih (i + 1) (fun j hj => by
        have := hs (j + 1) (by omega)
        rwa [show i + (j + 1) = i + 1 + j by omega] at this)
      (s.fill .shadow (s0.selAt i) (bytes (s0.selAt i))) (by conv_lhs => rw [hs0]
                                                             rfl)
    simp only [List.range'_succ, List.map_cons, State.storeShadows, hsel] at hrec ⊢
    obtain ⟨h1, h2, h3, h4⟩ := hrec
    refine ⟨by rw [h1]; rfl, fun hw => h2 (splice_wf hw _ _), fun hm => h3 (hfill.1 hm), fun sp slot a hr => ?_⟩
    rw [h4 sp slot a hr, hfill.2 sp slot a hr, hlen]
    by_cases hsp : sp = .shadow
    · by_cases ha : a < len
      · by_cases hj : ∃ j < n, slot = s0.selAt (i + 1 + j)
        · rw [if_pos ⟨hsp, hj, ha⟩, if_pos]
          obtain ⟨j, hj, he⟩ := hj
          exact ⟨hsp, ⟨j + 1, by omega, by rw [he]; congr 1; omega⟩, ha⟩
        · rw [if_neg (fun h => hj h.2.1)]
          by_cases h0 : slot = s0.selAt i
          · rw [if_pos ⟨hsp, h0, ha⟩, if_pos ⟨hsp, ⟨0, by omega, h0⟩, ha⟩, h0]
          · rw [if_neg (fun h => h0 h.2.1), if_neg]
            rintro ⟨-, ⟨j, hj', he⟩, -⟩
            cases j with
            | zero => exact h0 he
            | succ j => exact hj ⟨j, by omega, by rw [he]; congr 1; omega⟩
      · rw [if_neg (fun h => ha h.2.2), if_neg (fun h => ha h.2.2), if_neg (fun h => ha h.2.2)]
    · rw [if_neg (fun h => hsp h.1), if_neg (fun h => hsp h.1), if_neg (fun h => hsp h.1)]

end Sys2Proof.Machine
end

