-- ==== Sys2Proof/Laws/Encoder.lean ====
section
/-! SUPPORT. What the encoder and the embedding unit do to the state, once for each shared operation: the polynomials
of a block (42_share_encoder.md R173 to R179), encoding the plane (R181), embedding one slot (44_embedding.md R236) and
embedding the slots in turn (R182). -/

namespace Sys2Proof.Machine

/-- The polynomials of one block (R174, R175, R179): their lengths, the pixels they carry, and the two leading values of
`g`, which the blinding value ties to those of `f`. -/
theorem State.buildBlock_spec {s : State} (hk : s.kOk) (i : Nat) (r : FE) :
    (s.buildBlock i r).1.length = s.k.toNat ∧ (s.buildBlock i r).2.length = s.k.toNat ∧
    (∀ t < s.k.toNat, elem (s.buildBlock i r).1 t = if t < 2 then remapZero (s.pixel i t) else s.pixel i t) ∧
    (∀ t < 2, elem (s.buildBlock i r).2 t = fsub 0 (fmul r (remapZero (s.pixel i t)))) ∧
    ∀ t < s.k.toNat, 2 ≤ t → elem (s.buildBlock i r).2 t = s.pixel i (s.k.toNat + t - 2) := by
  have h3 := hk.1
  refine ⟨?_, ?_, ?_, ?_, ?_⟩
  · simp only [State.buildBlock, List.length_cons, List.length_map, List.length_range']
    omega
  · simp only [State.buildBlock, List.length_cons, List.length_map, List.length_range']
    omega
  · intro t ht
    rcases t with _ | _ | t
    · rfl
    · rfl
    · have h := elem_map_range' (a := 2) (n := s.k.toNat - 2) (s.pixel i) (i := t) (by omega)
      rw [if_neg (by omega), Nat.add_comm t 1, Nat.add_comm (1 + t) 1, ← Nat.add_assoc]
      rw [← h]
      simp [State.buildBlock, elem, Nat.add_comm 2 t]
  · intro t ht
    interval_cases t <;> rfl
  · intro t ht h2
    obtain ⟨d, rfl⟩ := Nat.exists_eq_add_of_le h2
    have h := elem_map_range' (a := s.k.toNat) (n := s.k.toNat - 2) (s.pixel i) (i := d) (by omega)
    rw [show s.k.toNat + (2 + d) - 2 = s.k.toNat + d by omega, ← h]
    simp [State.buildBlock, elem, Nat.add_comm 2 d]

/-- The leading values of `g` make the blinding equations hold (R175). -/
theorem blinding_holds (r a : FE) : (r.val * a.val + (fsub 0 (fmul r a)).val) % 251 = 0 := by
  have h : fadd (fmul r a) (fsub 0 (fmul r a)) = 0 := by
    rw [← feZ_eq_zero]
    simp
  have hv := congrArg Fin.val h
  rw [fadd_val, fmul_val, Nat.mod_add_mod] at hv
  exact hv

theorem State.buildBlocks_length (s : State) (rs : List FE) (h : rs.length = s.numBlocks) :
    (s.buildBlocks rs).length = s.numBlocks := by
  simp [State.buildBlocks, h]

/-- What encoding the plane does (R176, R181): the draws are taken, the shadows of the participants are written, and
nothing else changes. -/
theorem State.encodeAll_spec {s : State} (h : s.schemeOk) (hp : s.participantsOk) :
    s.encodeAll =
      { s with mem := s.encodeAll.mem, drawPort := (DrawPort.drawMany s.blocks s.drawPort).2 } ∧
    (s.mem.wf → s.encodeAll.mem.wf) ∧ (s.memInRange → s.encodeAll.memInRange) ∧
    ∀ sp slot i, inRange s.params sp slot i = true → s.encodeAll.byteAt sp slot i =
      if sp = .shadow ∧ slot < s.n.toNat ∧ i < 2 * s.blocks then
        (shadowOf (s.buildBlocks (DrawPort.drawMany s.blocks s.drawPort).1) (slot + 1)).getD i 0#8
      else s.byteAt sp slot i := by
  have hlen : (s.buildBlocks (DrawPort.drawMany s.blocks s.drawPort).1).length = s.blocks :=
    s.buildBlocks_length _ (DrawPort.drawMany_length _ _)
  have hle := State.shadowBytes_le h
  rw [State.shadowBytes_eq h] at hle
  obtain ⟨h1, h2, h3, h4⟩ := State.writeShadows_spec
    (s.withDrawPort (DrawPort.drawMany s.blocks s.drawPort).2)
    (s.buildBlocks (DrawPort.drawMany s.blocks s.drawPort).1) s.n.toNat hp.2 (by rw [hlen]; exact hle)
  refine ⟨h1, h2, h3, fun sp slot i hr => ?_⟩
  have := h4 sp slot i hr
  rwa [hlen] at this

/-- The two shadow bytes of a block after encoding, as the values of its polynomials (R176). -/
theorem State.encodeAll_shadow {s : State} (h : s.schemeOk) (hp : s.participantsOk) {slot b : Nat}
    (hs : slot < s.n.toNat) (hb : b < s.blocks) :
    let fg := s.buildBlock b (elem (DrawPort.drawMany s.blocks s.drawPort).1 b)
    (s.encodeAll.byteAt .shadow slot (2 * b)).toNat = powerSum fg.1 (slot + 1) ∧
      (s.encodeAll.byteAt .shadow slot (2 * b + 1)).toNat = powerSum fg.2 (slot + 1) := by
  intro fg
  have hbytes := (State.encodeAll_spec h hp).2.2.2
  have hle := State.shadowBytes_le h
  rw [State.shadowBytes_eq h] at hle
  have hmax := s.params.nMax.isLt
  have hn := hp.2
  have hin : ∀ i < 2 * s.blocks, inRange s.params .shadow slot i = true := by
    intro i hi
    rw [inRange_shadow]
    omega
  have hr : (DrawPort.drawMany s.blocks s.drawPort).1.length = s.blocks := DrawPort.drawMany_length _ _
  have hlen := s.buildBlocks_length (DrawPort.drawMany s.blocks s.drawPort).1 hr
  have hel : (s.buildBlocks (DrawPort.drawMany s.blocks s.drawPort).1)[b]'(by rw [hlen]; exact hb) = fg := by
    simp [State.buildBlocks, fg, elem, hr, hb]
  obtain ⟨g1, g2⟩ := shadowOf_getD (polys := s.buildBlocks (DrawPort.drawMany s.blocks s.drawPort).1) (b := b)
    (by rw [hlen]; exact hb) (slot + 1)
  have hx : (normInt ((slot + 1 : Nat) : Int)).val = slot + 1 := normInt_nat_val (by omega)
  constructor
  · rw [hbytes _ _ _ (hin _ (by omega)), if_pos ⟨rfl, hs, by omega⟩, g1, hel, feByte_toNat, eval_val, hx]
  · rw [hbytes _ _ _ (hin _ (by omega)), if_pos ⟨rfl, hs, by omega⟩, g2, hel, feByte_toNat, eval_val, hx]

/-! ## Embedding -/

theorem State.coverUsed_le {s : State} (h : s.schemeOk) {slot : Nat} (hc : s.capacityOk slot) :
    s.coverUsed ≤ s.params.coverDepth.val := by
  rw [State.coverUsed_eq h]
  exact Nat.le_trans hc.2 hc.1

/-- What embedding one slot does (R233, R236). -/
theorem State.embedSlot_spec {s : State} {slot : Nat} (hs : slot < s.params.nMax.val)
    (hc : s.coverUsed ≤ s.params.coverDepth.val) :
    s.embedSlot slot = { s with
      mem := (s.embedSlot slot).mem
      slots := s.slots.modify slot fun t => { t with cid := BitVec.ofNat 8 (slot + 1) } } ∧
    (s.mem.wf → (s.embedSlot slot).mem.wf) ∧ (s.memInRange → (s.embedSlot slot).memInRange) ∧
    ∀ sp slot' i, inRange s.params sp slot' i = true → (s.embedSlot slot).byteAt sp slot' i =
      if sp = .cover ∧ slot' = slot ∧ i < s.coverUsed then s.packedByte slot i else s.byteAt sp slot' i := by
  obtain ⟨-, h2, h3⟩ := State.pack_spec hs hc
  exact ⟨rfl, fun hw => splice_wf hw _ _, h2, h3⟩

theorem State.embedSlots_succ (s : State) (n : Nat) : s.embedSlots (n + 1) = (s.embedSlots n).embedSlot n := by
  simp [State.embedSlots, List.range_succ]

/-- What embedding the slots below `n` in turn does to the registers: identifiers alone are written (R182, R236). -/
theorem State.embedSlots_registers (s : State) (n : Nat) :
    s.embedSlots n = { s with mem := (s.embedSlots n).mem, slots := (s.embedSlots n).slots } ∧
    (s.embedSlots n).slots.length = s.slots.length ∧
    ∀ slot, ((s.embedSlots n).slotRegs slot).cw = (s.slotRegs slot).cw ∧
      ((s.embedSlots n).slotRegs slot).ch = (s.slotRegs slot).ch ∧
      (slot < s.slots.length →
        ((s.embedSlots n).slotRegs slot).cid = if slot < n then BitVec.ofNat 8 (slot + 1) else (s.slotRegs slot).cid) := by
  induction n with
  | zero => exact ⟨rfl, rfl, fun slot => ⟨rfl, rfl, fun _ => rfl⟩⟩
  | succ n ih =>
    obtain ⟨h1, h2, h3⟩ := ih
    have hsl : ((s.embedSlots n).embedSlot n).slots =
        (s.embedSlots n).slots.modify n fun t => { t with cid := BitVec.ofNat 8 (n + 1) } := rfl
    rw [State.embedSlots_succ]
    refine ⟨by rw [h1]; rfl, by rw [hsl, List.length_modify, h2], fun slot => ?_⟩
    obtain ⟨hcw, hch, hcid⟩ := h3 slot
    rw [← hcw, ← hch]
    simp only [State.slotRegs, hsl, List.getD_eq_getElem?_getD, List.getElem?_modify] at hcid ⊢
    by_cases hn : n = slot
    · subst hn
      cases he : (s.embedSlots n).slots[n]? with
      | none =>
        rw [List.getElem?_eq_none_iff, h2] at he
        exact ⟨by simp, by simp, fun hl => absurd hl (by omega)⟩
      | some t => simp
    · have hlt : slot < n + 1 ↔ slot < n := by omega
      simp only [hn, if_false, hlt]
      exact ⟨by simp, by simp, fun hl => by simpa using hcid hl⟩

/-- What embedding the slots below `n` in turn does to the memories: no slot disturbs another (R70, R182). -/
theorem State.embedSlots_bytes {s : State} (n : Nat) (hn : n ≤ s.params.nMax.val)
    (hc : s.coverUsed ≤ s.params.coverDepth.val) (hl : s.shadowLen ≤ shadowDepth s.params) :
    (s.mem.wf → (s.embedSlots n).mem.wf) ∧ (s.memInRange → (s.embedSlots n).memInRange) ∧
    ∀ sp slot i, inRange s.params sp slot i = true → (s.embedSlots n).byteAt sp slot i =
      if sp = .cover ∧ slot < n ∧ i < s.coverUsed then s.packedByte slot i else s.byteAt sp slot i := by
  induction n with
  | zero => exact ⟨id, id, fun sp slot i _ => by rw [if_neg (by omega)]; rfl⟩
  | succ n ih =>
    obtain ⟨h1, h2, h3⟩ := ih (by omega)
    have hf := (s.embedSlots_registers n).1
    have hpar : (s.embedSlots n).params = s.params := by rw [hf]
    have hused : (s.embedSlots n).coverUsed = s.coverUsed := by rw [hf]; rfl
    have hg : (s.embedSlots n).groupsPerByte = s.groupsPerByte := by rw [hf]; rfl
    have hm : (s.embedSlots n).groupMask = s.groupMask := by rw [hf]; rfl
    have hw : (s.embedSlots n).groupWidth = s.groupWidth := by rw [hf]; rfl
    obtain ⟨-, g1, g2, g3⟩ := State.embedSlot_spec (s := s.embedSlots n) (slot := n) (by rw [hpar]; omega)
      (by rw [hpar, hused]; exact hc)
    rw [State.embedSlots_succ]
    refine ⟨fun h => g1 (h1 h), fun h => g2 (h2 h), fun sp slot i hr => ?_⟩
    rw [g3 sp slot i (by rw [hpar]; exact hr), hused]
    by_cases hsp : sp = .cover ∧ slot = n ∧ i < s.coverUsed
    · rw [if_pos hsp, if_pos ⟨hsp.1, by omega, hsp.2.2⟩]
      obtain ⟨rfl, rfl, hi⟩ := hsp
      have hq : i / s.groupsPerByte < s.shadowLen :=
        Nat.div_lt_of_lt_mul (by rw [Nat.mul_comm]; exact hi)
      have hin : inRange s.params .shadow slot (i / s.groupsPerByte) = true := by
        rw [inRange_shadow]
        omega
      rw [State.packedByte, State.packedByte, State.groupOf, State.groupOf, hg, hm, hw, h3 _ _ _ hr, if_neg (by omega),
        h3 _ _ _ hin, if_neg (by simp)]
    · rw [if_neg hsp, h3 sp slot i hr]
      by_cases h : sp = .cover ∧ slot < n ∧ i < s.coverUsed
      · rw [if_pos h, if_pos ⟨h.1, by omega, h.2.2⟩]
      · rw [if_neg h, if_neg]
        rintro ⟨a, b, c⟩
        by_cases hsn : slot = n
        · exact hsp ⟨a, hsn, c⟩
        · exact h ⟨a, by omega, c⟩

end Sys2Proof.Machine
end

