-- ==== Sys2Proof/Laws/Encoding.lean ====
section
/-! SUPPORT. The fields of a command word as numbers, that they make up the word, and what the opcode map answers
(30_encoding.md R90 to R93). -/

namespace Sys2Proof

theorem opField_eq (w : Word) : opField w = w.toNat % 256 := by
  simp [opField, BitVec.extractLsb'_toNat]

theorem a0Field_eq (w : Word) : a0Field w = w.toNat / 2 ^ 8 % 256 := by
  simp [a0Field, BitVec.extractLsb'_toNat, Nat.shiftRight_eq_div_pow]

theorem a1Field_eq (w : Word) : a1Field w = w.toNat / 2 ^ 16 % 256 := by
  simp [a1Field, BitVec.extractLsb'_toNat, Nat.shiftRight_eq_div_pow]

theorem rsvField_eq (w : Word) : rsvField w = w.toNat / 2 ^ 24 := by
  have h := w.isLt
  simp only [rsvField, BitVec.extractLsb'_toNat, Nat.shiftRight_eq_div_pow]
  omega

/-- The four fields make up the word (R90). -/
theorem toNat_eq_fields (w : Word) :
    w.toNat = opField w + 2 ^ 8 * a0Field w + 2 ^ 16 * a1Field w + 2 ^ 24 * rsvField w := by
  rw [opField_eq, a0Field_eq, a1Field_eq, rsvField_eq]
  omega

/-- A command word as a number (R90). -/
theorem commandWord_toNat {op a0 a1 : Nat} (ho : op < 256) (h0 : a0 < 256) (h1 : a1 < 256) :
    (commandWord op a0 a1).toNat = op + 2 ^ 8 * a0 + 2 ^ 16 * a1 := by
  have e1 : op ||| a0 <<< 8 = op + a0 <<< 8 := by
    rw [Nat.or_comm, ← Nat.shiftLeft_add_eq_or_of_lt (by omega), Nat.add_comm]
  have l1 : a0 <<< 8 = 2 ^ 8 * a0 := by rw [Nat.shiftLeft_eq, Nat.mul_comm]
  have l2 : a1 <<< 16 = 2 ^ 16 * a1 := by rw [Nat.shiftLeft_eq, Nat.mul_comm]
  have e2 : (op + a0 <<< 8) ||| a1 <<< 16 = op + a0 <<< 8 + a1 <<< 16 := by
    rw [Nat.or_comm, ← Nat.shiftLeft_add_eq_or_of_lt (by omega), Nat.add_comm]
  simp only [commandWord, BitVec.toNat_or, BitVec.toNat_shiftLeft, BitVec.toNat_ofNat]
  rw [Nat.mod_eq_of_lt (by omega : op < 2 ^ 32), Nat.mod_eq_of_lt (by omega : a0 < 2 ^ 32),
    Nat.mod_eq_of_lt (by omega : a1 < 2 ^ 32), Nat.mod_eq_of_lt (by omega : a0 <<< 8 < 2 ^ 32),
    Nat.mod_eq_of_lt (by omega : a1 <<< 16 < 2 ^ 32), e1, e2, l1, l2]

/-- The fields of a command word are what it was made of (R90). -/
theorem fields_commandWord {op a0 a1 : Nat} (ho : op < 256) (h0 : a0 < 256) (h1 : a1 < 256) :
    opField (commandWord op a0 a1) = op ∧ a0Field (commandWord op a0 a1) = a0 ∧
      a1Field (commandWord op a0 a1) = a1 ∧ rsvField (commandWord op a0 a1) = 0 := by
  rw [opField_eq, a0Field_eq, a1Field_eq, rsvField_eq, commandWord_toNat ho h0 h1]
  omega

/-- An opcode below 256, and arguments that fit, stand in every command word. -/
theorem opcodeOf_lt (i : Instr) : opcodeOf i < 256 := by
  cases i <;> simp [opcodeOf]

theorem argsOf_lt {i : Instr} (h : i.wellFormed = true) : (argsOf i).1 < 256 ∧ (argsOf i).2 < 256 := by
  cases i <;> simp_all [Instr.wellFormed, argsOf, argFits]

/-- The opcode map gives back a command from its opcode and its arguments (R93). -/
theorem opcodeRow_opcodeOf (i : Instr) :
    opcodeRow (opcodeOf i) (argsOf i).1 (argsOf i).2 = some (formatOf i, i) := by
  cases i <;> rfl

/-- What the opcode map answers is a command with that opcode, with the arguments its format uses (R93). -/
theorem opcodeRow_eq_some {op a0 a1 : Nat} {fmt : Format} {i : Instr} (h : opcodeRow op a0 a1 = some (fmt, i)) :
    opcodeOf i = op ∧ formatOf i = fmt ∧
      argsOf i = ((if fmt.usesA0 then a0 else 0), if fmt.usesA1 then a1 else 0) := by
  unfold opcodeRow at h
  split at h <;> simp at h <;> obtain ⟨rfl, rfl⟩ := h <;> simp [opcodeOf, formatOf, argsOf, Format.usesA0, Format.usesA1]

/-- What decoding can answer (R92). -/
theorem decode_eq_ok {w : Word} {i : Instr} :
    decode w = .ok i ↔ ∃ fmt, opcodeRow (opField w) (a0Field w) (a1Field w) = some (fmt, i) ∧
      (fmt.usesA0 = false → a0Field w = 0) ∧ (fmt.usesA1 = false → a1Field w = 0) ∧ rsvField w = 0 := by
  unfold decode
  cases hr : opcodeRow (opField w) (a0Field w) (a1Field w) with
  | none => simp
  | some row =>
    obtain ⟨fmt, j⟩ := row
    simp only [Option.some.injEq, Prod.mk.injEq, Bool.or_eq_true, Bool.and_eq_true, Bool.not_eq_true', bne_iff_ne]
    constructor
    · intro h
      split at h
      · cases h
      · rename_i hu
        split at h
        · cases h
        · rename_i hv
          cases h
          rw [not_or] at hu
          exact ⟨fmt, ⟨rfl, rfl⟩, fun h0 => by_contra fun hn => hu.1 ⟨h0, hn⟩, fun h0 => by_contra fun hn => hu.2 ⟨h0, hn⟩,
            by_contra hv⟩
    · rintro ⟨fmt', ⟨rfl, rfl⟩, h0, h1, h2⟩
      rw [if_neg, if_neg (not_not.mpr h2)]
      rintro (⟨hf, hn⟩ | ⟨hf, hn⟩)
      · exact hn (h0 hf)
      · exact hn (h1 hf)

/-- The fields that a format's mask keeps (R91). -/
theorem toNat_and_formatMask (w : Word) (fmt : Format) :
    (w &&& fmt.mask).toNat = opField w + (if fmt.usesA0 then 0 else 2 ^ 8 * a0Field w) +
      (if fmt.usesA1 then 0 else 2 ^ 16 * a1Field w) + 2 ^ 24 * rsvField w := by
  have split : ∀ m : Word, w &&& m = (w.extractLsb' 24 8 &&& m.extractLsb' 24 8) ++
      ((w.extractLsb' 16 8 &&& m.extractLsb' 16 8) ++ ((w.extractLsb' 8 8 &&& m.extractLsb' 8 8) ++
        (w.extractLsb' 0 8 &&& m.extractLsb' 0 8))) := by
    intro m
    apply BitVec.eq_of_getLsbD_eq
    intro i hi
    simp only [BitVec.getLsbD_append, BitVec.getLsbD_and, BitVec.getLsbD_extractLsb']
    interval_cases i <;> simp
  have num : ∀ a b c d : Byte, (a ++ (b ++ (c ++ d))).toNat =
      d.toNat + 2 ^ 8 * c.toNat + 2 ^ 16 * b.toNat + 2 ^ 24 * a.toNat := by
    intro a b c d
    have app : ∀ {n : Nat} (h : Byte) (x : BitVec n), (h ++ x).toNat = x.toNat + 2 ^ n * h.toNat := by
      intro n h x
      rw [BitVec.toNat_append, ← Nat.shiftLeft_add_eq_or_of_lt x.isLt, Nat.shiftLeft_eq]
      ring
    rw [app, app, app]
  have keep : ∀ n : Nat, n % 256 &&& 255 = n % 256 := fun n => by
    rw [Nat.and_two_pow_sub_one_eq_mod _ 8, Nat.mod_mod]
  rw [split, num]
  cases fmt <;> simp [Format.mask, Format.usesA0, Format.usesA1, opField, a0Field, a1Field, rsvField, keep]

end Sys2Proof
end

