-- ==== Sys2Proof/Laws/Exec.lean ====
section
/-! SUPPORT. Everything a command can do, said once: `committed` lists for each command the guards it passed and the
state it commits, `exec_cases` says that a command either commits that state or raises, and `exec_of_committed`
says that the guards suffice. -/

namespace Sys2Proof.Machine

/-- What a command that raises nothing commits, before `ERR <- 0`, and the guards it passed. -/
def committed (i : Instr) (s u : State) : Prop :=
  match i with
  | .nop => u = s
  | .clrerr => u = s.clearErrors
  | .fadd => u = s.withR (fadd s.a s.b)
  | .fsub => u = s.withR (fsub s.a s.b)
  | .fmul => u = s.withR (fmul s.a s.b)
  | .fdiv => ∃ q, fdiv s.a s.b = some q ∧ u = s.withR q
  | .fpow => u = s.withR (fpow s.a s.e)
  | .finv => s.a ≠ 0 ∧ u = s.withR (inverse s.a)
  | .feq => u = s.withEq (feq s.a s.b)
  | .pnew bank len => bank ≤ 1 ∧ 1 ≤ len ∧ len ≤ 8 ∧ u = s.withBank bank (Bank.load len [])
  | .peval bank => bank ≤ 1 ∧ u = s.withR (eval (s.bank bank).poly s.a)
  | .peq => u = s.withEq (s.p0.sameAs s.p1)
  | .lag0 j top => 1 ≤ top ∧ top ≤ 8 ∧ j < top ∧ ∃ l, lag0 (s.xs 8) j top = some l ∧ u = s.withR l
  | .pinterp bank => bank ≤ 1 ∧ 1 ≤ s.k.toNat ∧ s.k.toNat ≤ 8 ∧ s.npts = s.k ∧
      ∃ cs, interp s.k.toNat (s.xs s.k.toNat) (s.ys s.k.toNat) = some cs ∧
        u = s.withBank bank (Bank.load s.k.toNat cs)
  | .blkbuild => s.schemeOk ∧ s.blk.toNat < s.blocks ∧
      u = (((s.withDrawPort s.drawPort.draw.2).withP0
        (Bank.load s.k.toNat (s.buildBlock s.blk.toNat s.drawPort.draw.1).1)).withP1
        (Bank.load s.k.toNat (s.buildBlock s.blk.toNat s.drawPort.draw.1).2)).withR s.drawPort.draw.1
  | .encode => s.schemeOk ∧ s.participantsOk ∧ u = s.encodeAll
  | .distribute => s.schemeOk ∧ s.participantsOk ∧ (∀ slot < s.n.toNat, s.capacityOk slot) ∧
      u = s.encodeAll.embedSlots s.n.toNat
  | .blkinterp => s.schemeOk ∧ s.selectionOk ∧ s.blk.toNat < s.blocks ∧
      ∃ fg, s.interpBlock s.storedShadows s.blk.toNat = some fg ∧
        u = (s.withP0 (Bank.load s.k.toNat fg.1)).withP1 (Bank.load s.k.toNat fg.2)
  | .cheat => 2 ≤ s.p0.len.toNat ∧ 2 ≤ s.p1.len.toNat ∧ ∃ r, cheat s.p0.poly s.p1.poly = some r ∧ u = s.withR r
  | .decode => s.schemeOk ∧ s.selectionOk ∧
      ∃ plane, s.decodeBlocks s.storedShadows s.numBlocks 0 = .ok plane ∧ u = s.commitPlane plane
  | .recover => s.schemeOk ∧ s.selectionOk ∧ (∀ j < s.k.toNat, s.capacityOk (s.selAt j)) ∧
      ∃ plane, s.decodeBlocks s.carriedShadows s.numBlocks 0 = .ok plane ∧
        u = (s.storeShadows s.carriedShadows 0).commitPlane plane
  | .embed slot => slot < s.params.nMax.val ∧ s.schemeOk ∧ s.capacityOk slot ∧ u = s.embedSlot slot
  | .extract slot => slot < s.params.nMax.val ∧ s.schemeOk ∧ s.capacityOk slot ∧
      u = s.fill .shadow slot (s.unpack slot)

/-- Every command answers a next state, whatever the state. -/
theorem exec_answers (i : Instr) (s : State) : ∃ t, exec i s = .next t := by
  cases i <;> first | exact State.conclude_next _ _ | exact ⟨_, rfl⟩

/-! ## The guards of the commands that check several things -/

theorem State.blockGuard (s : State) :
    firstFailure (s.schemeChecks ++ s.blockChecks) = none ↔ s.schemeOk ∧ s.blk.toNat < s.blocks := by
  rw [firstFailure_append, Option.or_eq_none_iff, s.schemeChecks_spec.2.2.2, s.blockChecks_spec.2]

theorem State.encodeGuard (s : State) :
    firstFailure (s.schemeChecks ++ s.participantChecks) = none ↔ s.schemeOk ∧ s.participantsOk := by
  rw [firstFailure_append, Option.or_eq_none_iff, s.schemeChecks_spec.2.2.2, s.participantChecks_spec.2]

theorem State.distributeGuard (s : State) :
    firstFailure (s.schemeChecks ++ s.participantChecks ++ (List.range s.n.toNat).map s.capacityCheck) = none ↔
      s.schemeOk ∧ s.participantsOk ∧ ∀ slot < s.n.toNat, s.capacityOk slot := by
  rw [firstFailure_append, Option.or_eq_none_iff, s.encodeGuard, and_assoc]
  refine and_congr_right fun h => and_congr_right fun _ => ?_
  rw [(State.capacityChecks_spec h _).2]
  simp

theorem State.selectionGuard (s : State) :
    firstFailure (s.schemeChecks ++ s.selectionChecks) = none ↔ s.schemeOk ∧ s.selectionOk := by
  rw [firstFailure_append, Option.or_eq_none_iff, s.schemeChecks_spec.2.2.2, s.selectionChecks_spec.2.2.2]

theorem State.blkinterpGuard (s : State) :
    firstFailure (s.schemeChecks ++ s.selectionChecks ++ s.blockChecks) = none ↔
      s.schemeOk ∧ s.selectionOk ∧ s.blk.toNat < s.blocks := by
  rw [firstFailure_append, Option.or_eq_none_iff, s.selectionGuard, s.blockChecks_spec.2, and_assoc]

theorem State.recoverGuard (s : State) :
    firstFailure (s.schemeChecks ++ s.selectionChecks ++
        (List.range s.k.toNat).map fun i => s.capacityCheck (s.selAt i)) = none ↔
      s.schemeOk ∧ s.selectionOk ∧ ∀ j < s.k.toNat, s.capacityOk (s.selAt j) := by
  rw [firstFailure_append, Option.or_eq_none_iff, s.selectionGuard, and_assoc]
  refine and_congr_right fun h => and_congr_right fun _ => ?_
  have e : ((List.range s.k.toNat).map fun i => s.capacityCheck (s.selAt i)) =
      ((List.range s.k.toNat).map s.selAt).map s.capacityCheck := by simp
  rw [e, (State.capacityChecks_spec h _).2]
  simp

theorem State.slotGuard (s : State) (slot : Nat) :
    firstFailure (s.slotArgChecks slot ++ s.schemeChecks ++ [s.capacityCheck slot]) = none ↔
      slot < s.params.nMax.val ∧ s.schemeOk ∧ s.capacityOk slot := by
  rw [firstFailure_append, Option.or_eq_none_iff, firstFailure_append, Option.or_eq_none_iff,
    (s.slotArgChecks_spec slot).2, s.schemeChecks_spec.2.2.2, and_assoc]
  refine and_congr_right fun _ => and_congr_right fun h => ?_
  have := (State.capacityChecks_spec h [slot]).2
  simpa using this

theorem pnewGuard (b len : Nat) :
    firstFailure [(decide (1 < b) || decide (len < 1) || decide (8 < len), .vArg)] = none ↔
      b ≤ 1 ∧ 1 ≤ len ∧ len ≤ 8 := by
  rw [firstFailure_eq_none]
  simp only [List.mem_singleton, forall_eq, Bool.or_eq_false_iff, decide_eq_false_iff_not, and_assoc]
  omega

theorem lag0Guard (i top : Nat) :
    firstFailure [(decide (top < 1) || decide (8 < top) || decide (top ≤ i), .vArg)] = none ↔
      1 ≤ top ∧ top ≤ 8 ∧ i < top := by
  rw [firstFailure_eq_none]
  simp only [List.mem_singleton, forall_eq, Bool.or_eq_false_iff, decide_eq_false_iff_not, and_assoc]
  omega

theorem State.cheatGuard (s : State) :
    firstFailure [(decide (s.p0.len.toNat < 2) || decide (s.p1.len.toNat < 2), .vLen)] = none ↔
      2 ≤ s.p0.len.toNat ∧ 2 ≤ s.p1.len.toNat := by
  rw [firstFailure_eq_none]
  simp only [List.mem_singleton, forall_eq, Bool.or_eq_false_iff, decide_eq_false_iff_not]
  omega

theorem State.pinterpGuard (s : State) (b : Nat) :
    firstFailure (bankChecks b ++ s.pointChecks) = none ↔
      b ≤ 1 ∧ 1 ≤ s.k.toNat ∧ s.k.toNat ≤ 8 ∧ s.npts = s.k := by
  rw [firstFailure_append, Option.or_eq_none_iff, (bankChecks_spec b).2, s.pointChecks_spec.2]

/-! ## Every outcome of every command -/

/-- What a guarded computation of a command can end in. -/
theorem State.guarded_cases {s t : State} {cs : List (Bool × Subcode)} {k : Unit → Except Trap State}
    (h : s.conclude (validate cs >>= k) = .next t) :
    (∃ v : Subcode, t = s.raise (.validation v)) ∨ (firstFailure cs = none ∧ s.conclude (k ()) = .next t) := by
  cases hf : firstFailure cs with
  | none => exact .inr ⟨rfl, by rwa [validate_pass hf] at h⟩
  | some v =>
    rw [validate_fail hf, State.conclude_error] at h
    exact .inl ⟨v, by simpa using h.symm⟩

/-- What a commit ends in. -/
theorem State.committing_cases {s t u : State} (h : s.conclude (.ok u) = .next t) : t = u.succeed := by
  simpa using h.symm

/-- What a raise ends in. -/
theorem State.raising_eq {s t : State} {trap : Trap} (h : s.conclude (.error trap) = .next t) : t = s.raise trap := by
  simpa using h.symm

/-- What a command that ends with an operation that may raise can end in. -/
theorem State.raising_cases {α : Type} {s t : State} {trap : Trap} {o : Option α} {k : α → State}
    (h : s.conclude (orRaise trap o >>= fun v => .ok (k v)) = .next t) :
    t = s.raise trap ∨ ∃ v, o = some v ∧ t = (k v).succeed := by
  cases o with
  | none => exact .inl (State.raising_eq (s := s) h)
  | some v => exact .inr ⟨v, rfl, State.committing_cases (s := s) h⟩

/-- A decoding can only raise what R265 lists for it. -/
theorem State.decodeBlocks_trap {s : State} {shadows : List (List Byte)} {trap : Trap} (n b : Nat)
    (h : s.decodeBlocks shadows n b = .error trap) :
    ∃ i, trap = .divisionByZero i ∨ trap = .cheatingDetected i := by
  induction n generalizing b with
  | zero => cases h
  | succ n ih =>
    rw [State.decodeBlocks] at h
    cases h1 : s.decodeBlock shadows b with
    | error e =>
      rw [h1] at h
      cases h
      refine ⟨b, ?_⟩
      rw [State.decodeBlock] at h1
      cases hi : s.interpBlock shadows b with
      | none =>
        rw [hi] at h1
        cases h1
        exact .inl rfl
      | some fg =>
        rw [hi] at h1
        change (orRaise (.cheatingDetected b) (cheat fg.1 fg.2) >>= fun _ => Except.ok (reassemble fg.1 fg.2)) = _ at h1
        cases hc : cheat fg.1 fg.2 with
        | none =>
          rw [hc] at h1
          cases h1
          exact .inr rfl
        | some r =>
          rw [hc] at h1
          cases h1
    | ok out =>
      rw [h1] at h
      cases h2 : s.decodeBlocks shadows n (b + 1) with
      | error e =>
        change (s.decodeBlocks shadows n (b + 1) >>= fun rest => Except.ok (out ++ rest)) = _ at h
        rw [h2] at h
        cases h
        exact ih _ h2
      | ok rest =>
        change (s.decodeBlocks shadows n (b + 1) >>= fun rest => Except.ok (out ++ rest)) = _ at h
        rw [h2] at h
        cases h

theorem State.plane_cases {s t : State} {shadows : List (List Byte)} {n b : Nat} {k : List FE → State}
    (h : s.conclude (s.decodeBlocks shadows n b >>= fun plane => .ok (k plane)) = .next t) :
    (∃ i, t = s.raise (.divisionByZero i) ∨ t = s.raise (.cheatingDetected i)) ∨
      ∃ plane, s.decodeBlocks shadows n b = .ok plane ∧ t = (k plane).succeed := by
  cases hd : s.decodeBlocks shadows n b with
  | error trap =>
    obtain ⟨i, hi⟩ := State.decodeBlocks_trap n b hd
    rw [hd] at h
    have ht : t = s.raise trap := State.raising_eq (s := s) h
    rcases hi with rfl | rfl
    · exact .inl ⟨i, .inl ht⟩
    · exact .inl ⟨i, .inr ht⟩
  | ok plane =>
    rw [hd] at h
    exact .inr ⟨plane, rfl, State.committing_cases (s := s) h⟩

/-- Every command ends in one of two ways: it raises one of the outcomes 1 to 3 and writes nothing else, or it commits
what `committed` says and ends with outcome 0 (R67, R262). -/
theorem exec_cases {i : Instr} {s t : State} (h : exec i s = .next t) :
    (∃ trap : Trap, 1 ≤ trap.code ∧ trap.code ≤ 3 ∧ t = s.raise trap) ∨
      ∃ u, committed i s u ∧ t = u.succeed := by
  have hv : ∀ v : Subcode, t = s.raise (.validation v) →
      ∃ trap : Trap, 1 ≤ trap.code ∧ trap.code ≤ 3 ∧ t = s.raise trap :=
    fun v h => ⟨.validation v, by simp [Trap.code], by simp [Trap.code], h⟩
  have hd : ∀ n : Nat, t = s.raise (.divisionByZero n) →
      ∃ trap : Trap, 1 ≤ trap.code ∧ trap.code ≤ 3 ∧ t = s.raise trap :=
    fun n h => ⟨.divisionByZero n, by simp [Trap.code], by simp [Trap.code], h⟩
  have hc : ∀ n : Nat, t = s.raise (.cheatingDetected n) →
      ∃ trap : Trap, 1 ≤ trap.code ∧ trap.code ≤ 3 ∧ t = s.raise trap :=
    fun n h => ⟨.cheatingDetected n, by simp [Trap.code], by simp [Trap.code], h⟩
  cases i with
  | nop => exact .inr ⟨_, rfl, State.committing_cases (s := s) h⟩
  | clrerr => exact .inr ⟨_, rfl, State.committing_cases (s := s) h⟩
  | fadd => exact .inr ⟨_, rfl, State.committing_cases (s := s) h⟩
  | fsub => exact .inr ⟨_, rfl, State.committing_cases (s := s) h⟩
  | fmul => exact .inr ⟨_, rfl, State.committing_cases (s := s) h⟩
  | fdiv =>
    simp only [exec, execFdiv] at h
    cases hq : fdiv s.a s.b with
    | none =>
      rw [hq] at h
      exact .inl (hd 0 (by simpa [Except.map] using h.symm))
    | some q =>
      rw [hq] at h
      exact .inr ⟨_, ⟨q, hq, rfl⟩, by simpa [Except.map] using h.symm⟩
  | fpow => exact .inr ⟨_, rfl, State.committing_cases (s := s) h⟩
  | finv =>
    simp only [exec, execFinv] at h
    by_cases ha : s.a = 0
    · rw [if_pos ha] at h
      exact .inl (hd 0 (by simpa using h.symm))
    · rw [if_neg ha] at h
      exact .inr ⟨_, ⟨ha, rfl⟩, State.committing_cases (s := s) h⟩
  | feq => exact .inr ⟨_, rfl, State.committing_cases (s := s) h⟩
  | pnew bank len =>
    rcases State.guarded_cases h with ⟨v, h⟩ | ⟨hg, h⟩
    · exact .inl (hv v h)
    · obtain ⟨h1, h2, h3⟩ := (pnewGuard bank len).mp hg
      exact .inr ⟨_, ⟨h1, h2, h3, rfl⟩, State.committing_cases (s := s) h⟩
  | peval bank =>
    rcases State.guarded_cases h with ⟨v, h⟩ | ⟨hg, h⟩
    · exact .inl (hv v h)
    · exact .inr ⟨_, ⟨(bankChecks_spec bank).2.mp hg, rfl⟩, State.committing_cases (s := s) h⟩
  | peq => exact .inr ⟨_, rfl, State.committing_cases (s := s) h⟩
  | lag0 j top =>
    rcases State.guarded_cases h with ⟨v, h⟩ | ⟨hg, h⟩
    · exact .inl (hv v h)
    · rcases State.raising_cases h with h | ⟨l, hl, h⟩
      · exact .inl (hd 0 h)
      · obtain ⟨h1, h2, h3⟩ := (lag0Guard j top).mp hg
        exact .inr ⟨_, ⟨h1, h2, h3, l, hl, rfl⟩, h⟩
  | pinterp bank =>
    rcases State.guarded_cases h with ⟨v, h⟩ | ⟨hg, h⟩
    · exact .inl (hv v h)
    · rcases State.raising_cases h with h | ⟨l, hl, h⟩
      · exact .inl (hd 0 h)
      · obtain ⟨h1, h2, h3, h4⟩ := (s.pinterpGuard bank).mp hg
        exact .inr ⟨_, ⟨h1, h2, h3, h4, l, hl, rfl⟩, h⟩
  | blkbuild =>
    rcases State.guarded_cases h with ⟨v, h⟩ | ⟨hg, h⟩
    · exact .inl (hv v h)
    · obtain ⟨h1, h2⟩ := s.blockGuard.mp hg
      exact .inr ⟨_, ⟨h1, h2, rfl⟩, State.committing_cases (s := s) h⟩
  | encode =>
    rcases State.guarded_cases h with ⟨v, h⟩ | ⟨hg, h⟩
    · exact .inl (hv v h)
    · obtain ⟨h1, h2⟩ := s.encodeGuard.mp hg
      exact .inr ⟨_, ⟨h1, h2, rfl⟩, State.committing_cases (s := s) h⟩
  | distribute =>
    rcases State.guarded_cases h with ⟨v, h⟩ | ⟨hg, h⟩
    · exact .inl (hv v h)
    · obtain ⟨h1, h2, h3⟩ := s.distributeGuard.mp hg
      exact .inr ⟨_, ⟨h1, h2, h3, rfl⟩, State.committing_cases (s := s) h⟩
  | blkinterp =>
    rcases State.guarded_cases h with ⟨v, h⟩ | ⟨hg, h⟩
    · exact .inl (hv v h)
    · rcases State.raising_cases h with h | ⟨fg, hl, h⟩
      · exact .inl (hd _ h)
      · obtain ⟨h1, h2, h3⟩ := s.blkinterpGuard.mp hg
        exact .inr ⟨_, ⟨h1, h2, h3, fg, hl, rfl⟩, h⟩
  | cheat =>
    rcases State.guarded_cases h with ⟨v, h⟩ | ⟨hg, h⟩
    · exact .inl (hv v h)
    · rcases State.raising_cases h with h | ⟨r, hl, h⟩
      · exact .inl (hc 0 h)
      · obtain ⟨h1, h2⟩ := s.cheatGuard.mp hg
        exact .inr ⟨_, ⟨h1, h2, r, hl, rfl⟩, h⟩
  | decode =>
    rcases State.guarded_cases h with ⟨v, h⟩ | ⟨hg, h⟩
    · exact .inl (hv v h)
    · rcases State.plane_cases h with ⟨i, h | h⟩ | ⟨plane, hp, h⟩
      · exact .inl (hd i h)
      · exact .inl (hc i h)
      · obtain ⟨h1, h2⟩ := s.selectionGuard.mp hg
        exact .inr ⟨_, ⟨h1, h2, plane, hp, rfl⟩, h⟩
  | recover =>
    rcases State.guarded_cases h with ⟨v, h⟩ | ⟨hg, h⟩
    · exact .inl (hv v h)
    · rcases State.plane_cases h with ⟨i, h | h⟩ | ⟨plane, hp, h⟩
      · exact .inl (hd i h)
      · exact .inl (hc i h)
      · obtain ⟨h1, h2, h3⟩ := s.recoverGuard.mp hg
        exact .inr ⟨_, ⟨h1, h2, h3, plane, hp, rfl⟩, h⟩
  | embed slot =>
    rcases State.guarded_cases h with ⟨v, h⟩ | ⟨hg, h⟩
    · exact .inl (hv v h)
    · obtain ⟨h1, h2, h3⟩ := (s.slotGuard slot).mp hg
      exact .inr ⟨_, ⟨h1, h2, h3, rfl⟩, State.committing_cases (s := s) h⟩
  | extract slot =>
    rcases State.guarded_cases h with ⟨v, h⟩ | ⟨hg, h⟩
    · exact .inl (hv v h)
    · obtain ⟨h1, h2, h3⟩ := (s.slotGuard slot).mp hg
      exact .inr ⟨_, ⟨h1, h2, h3, rfl⟩, State.committing_cases (s := s) h⟩

/-- The guards suffice: what `committed` says is what the command does. -/
theorem exec_of_committed {i : Instr} {s u : State} (h : committed i s u) : exec i s = .next u.succeed := by
  cases i with
  | nop => cases h; rfl
  | clrerr => cases h; rfl
  | fadd => cases h; rfl
  | fsub => cases h; rfl
  | fmul => cases h; rfl
  | fdiv =>
    obtain ⟨q, hq, rfl⟩ := h
    simp [exec, execFdiv, hq, Except.map]
  | fpow => cases h; rfl
  | finv =>
    obtain ⟨ha, rfl⟩ := h
    simp [exec, execFinv, ha]
  | feq => cases h; rfl
  | pnew bank len =>
    obtain ⟨h1, h2, h3, rfl⟩ := h
    rw [exec, execPnew, validate_pass ((pnewGuard bank len).mpr ⟨h1, h2, h3⟩)]
    rfl
  | peval bank =>
    obtain ⟨h1, rfl⟩ := h
    rw [exec, execPeval, validate_pass ((bankChecks_spec bank).2.mpr h1)]
    rfl
  | peq => cases h; rfl
  | lag0 j top =>
    obtain ⟨h1, h2, h3, l, hl, rfl⟩ := h
    rw [exec, execLag0, validate_pass ((lag0Guard j top).mpr ⟨h1, h2, h3⟩), hl]
    rfl
  | pinterp bank =>
    obtain ⟨h1, h2, h3, h4, cs, hcs, rfl⟩ := h
    rw [exec, execPinterp, validate_pass ((s.pinterpGuard bank).mpr ⟨h1, h2, h3, h4⟩), hcs]
    rfl
  | blkbuild =>
    obtain ⟨h1, h2, rfl⟩ := h
    rw [exec, execBlkbuild, validate_pass (s.blockGuard.mpr ⟨h1, h2⟩)]
    rfl
  | encode =>
    obtain ⟨h1, h2, rfl⟩ := h
    rw [exec, execEncode, validate_pass (s.encodeGuard.mpr ⟨h1, h2⟩)]
    rfl
  | distribute =>
    obtain ⟨h1, h2, h3, rfl⟩ := h
    rw [exec, execDistribute, validate_pass (s.distributeGuard.mpr ⟨h1, h2, h3⟩)]
    rfl
  | blkinterp =>
    obtain ⟨h1, h2, h3, fg, hfg, rfl⟩ := h
    rw [exec, execBlkinterp, validate_pass (s.blkinterpGuard.mpr ⟨h1, h2, h3⟩), hfg]
    rfl
  | cheat =>
    obtain ⟨h1, h2, r, hr, rfl⟩ := h
    rw [exec, execCheat, validate_pass (s.cheatGuard.mpr ⟨h1, h2⟩), hr]
    rfl
  | decode =>
    obtain ⟨h1, h2, plane, hp, rfl⟩ := h
    rw [exec, execDecode, validate_pass (s.selectionGuard.mpr ⟨h1, h2⟩), hp]
    rfl
  | recover =>
    obtain ⟨h1, h2, h3, plane, hp, rfl⟩ := h
    rw [exec, execRecover, validate_pass (s.recoverGuard.mpr ⟨h1, h2, h3⟩), hp]
    rfl
  | embed slot =>
    obtain ⟨h1, h2, h3, rfl⟩ := h
    rw [exec, execEmbed, validate_pass ((s.slotGuard slot).mpr ⟨h1, h2, h3⟩)]
    rfl
  | extract slot =>
    obtain ⟨h1, h2, h3, rfl⟩ := h
    rw [exec, execExtract, validate_pass ((s.slotGuard slot).mpr ⟨h1, h2, h3⟩)]
    rfl

end Sys2Proof.Machine
end

