-- ==== Sys2Proof/Laws/PerInstr.lean ====
section
/-! SUPPORT. A statement about every command, one lemma a command: the word that encodes it carries, under the mask of
its format, the fixed bits of its row of the opcode map (30_encoding.md R91, R93). -/

namespace Sys2Proof.Laws.EncodesItsRow

/-- Under the mask of its format, the word of a command is the row's word with every used argument field zero (R93). -/
def Statement (i : Instr) : Prop :=
  i.wellFormed = true → Sys2Proof.encode i &&& (formatOf i).mask = BitVec.ofNat 32 (opcodeOf i)

/-- A command whose unused arguments are zero carries only its opcode under the mask. -/
theorem of_unused {i : Instr} (h0 : (formatOf i).usesA0 = false → (argsOf i).1 = 0)
    (h1 : (formatOf i).usesA1 = false → (argsOf i).2 = 0) : Statement i := by
  intro h
  obtain ⟨l0, l1⟩ := argsOf_lt h
  have lo := opcodeOf_lt i
  obtain ⟨e0, e1, e2, e3⟩ := fields_commandWord lo l0 l1
  apply BitVec.eq_of_toNat_eq
  rw [toNat_and_formatMask, Sys2Proof.encode, e0, e1, e2, e3, BitVec.toNat_ofNat, Nat.mod_eq_of_lt (by omega)]
  split_ifs with u0 u1 u1 <;> simp_all

theorem nop : Statement .nop :=
  of_unused (by simp [formatOf, argsOf, Format.usesA0]) (by simp [formatOf, argsOf, Format.usesA1])
theorem clrerr : Statement .clrerr :=
  of_unused (by simp [formatOf, argsOf, Format.usesA0]) (by simp [formatOf, argsOf, Format.usesA1])
theorem fadd : Statement .fadd :=
  of_unused (by simp [formatOf, argsOf, Format.usesA0]) (by simp [formatOf, argsOf, Format.usesA1])
theorem fsub : Statement .fsub :=
  of_unused (by simp [formatOf, argsOf, Format.usesA0]) (by simp [formatOf, argsOf, Format.usesA1])
theorem fmul : Statement .fmul :=
  of_unused (by simp [formatOf, argsOf, Format.usesA0]) (by simp [formatOf, argsOf, Format.usesA1])
theorem fdiv : Statement .fdiv :=
  of_unused (by simp [formatOf, argsOf, Format.usesA0]) (by simp [formatOf, argsOf, Format.usesA1])
theorem fpow : Statement .fpow :=
  of_unused (by simp [formatOf, argsOf, Format.usesA0]) (by simp [formatOf, argsOf, Format.usesA1])
theorem finv : Statement .finv :=
  of_unused (by simp [formatOf, argsOf, Format.usesA0]) (by simp [formatOf, argsOf, Format.usesA1])
theorem feq : Statement .feq :=
  of_unused (by simp [formatOf, argsOf, Format.usesA0]) (by simp [formatOf, argsOf, Format.usesA1])
theorem pnew (bank len : Nat) : Statement (.pnew bank len) :=
  of_unused (by simp [formatOf, argsOf, Format.usesA0]) (by simp [formatOf, argsOf, Format.usesA1])
theorem peval (bank : Nat) : Statement (.peval bank) :=
  of_unused (by simp [formatOf, argsOf, Format.usesA0]) (by simp [formatOf, argsOf, Format.usesA1])
theorem peq : Statement .peq :=
  of_unused (by simp [formatOf, argsOf, Format.usesA0]) (by simp [formatOf, argsOf, Format.usesA1])
theorem lag0 (i top : Nat) : Statement (.lag0 i top) :=
  of_unused (by simp [formatOf, argsOf, Format.usesA0]) (by simp [formatOf, argsOf, Format.usesA1])
theorem pinterp (bank : Nat) : Statement (.pinterp bank) :=
  of_unused (by simp [formatOf, argsOf, Format.usesA0]) (by simp [formatOf, argsOf, Format.usesA1])
theorem blkbuild : Statement .blkbuild :=
  of_unused (by simp [formatOf, argsOf, Format.usesA0]) (by simp [formatOf, argsOf, Format.usesA1])
theorem encode : Statement .encode :=
  of_unused (by simp [formatOf, argsOf, Format.usesA0]) (by simp [formatOf, argsOf, Format.usesA1])
theorem distribute : Statement .distribute :=
  of_unused (by simp [formatOf, argsOf, Format.usesA0]) (by simp [formatOf, argsOf, Format.usesA1])
theorem blkinterp : Statement .blkinterp :=
  of_unused (by simp [formatOf, argsOf, Format.usesA0]) (by simp [formatOf, argsOf, Format.usesA1])
theorem cheat : Statement .cheat :=
  of_unused (by simp [formatOf, argsOf, Format.usesA0]) (by simp [formatOf, argsOf, Format.usesA1])
theorem decode : Statement .decode :=
  of_unused (by simp [formatOf, argsOf, Format.usesA0]) (by simp [formatOf, argsOf, Format.usesA1])
theorem recover : Statement .recover :=
  of_unused (by simp [formatOf, argsOf, Format.usesA0]) (by simp [formatOf, argsOf, Format.usesA1])
theorem embed (slot : Nat) : Statement (.embed slot) :=
  of_unused (by simp [formatOf, argsOf, Format.usesA0]) (by simp [formatOf, argsOf, Format.usesA1])
theorem extract (slot : Nat) : Statement (.extract slot) :=
  of_unused (by simp [formatOf, argsOf, Format.usesA0]) (by simp [formatOf, argsOf, Format.usesA1])

end Sys2Proof.Laws.EncodesItsRow
end

