-- ==== Sys2Proof/Laws/Step.lean ====
section
/-! SUPPORT. Everything one step can be (20_memory.md R66, R69), and what a host access to a group of eight registers
is (10_state.md R23, R38 to R40, R60, R61). -/

namespace Sys2Proof.Machine

/-- A host write of any register but `CMD` (R60). -/
theorem step_write {s : State} {idx : Byte} {w : Word} {rest : List HostOp} (hp : s.pending = .write idx w :: rest)
    (hi : idx.toNat ≠ 1) : step s = .next (State.writeReg { s with pending := rest } idx.toNat w) := by
  have hc : ¬ idx.toNat = cmdIndex := hi
  simp only [step, State.request, hp, if_neg hc]

/-- A host read (R61). -/
theorem step_read {s : State} {idx : Byte} {rest : List HostOp} (hp : s.pending = .read idx :: rest) :
    step s = .next (State.hostRead { s with pending := rest } idx.toNat) := by
  simp only [step, State.request, hp]

/-- Everything a step that answers a next state can have been: idling, a reset, a read, a write of a register other than
`CMD`, an illegal command word, or a command (R25, R60, R61, R69, R92, R295, R300). -/
theorem step_cases {s t : State} (h : step s = .next t) :
    (s.pending = [] ∧ t = s) ∨
    ∃ rest, let s' : State := { s with pending := rest }
      (s.pending = .reset :: rest ∧ t = s'.resetEvent) ∨
      (∃ idx, s.pending = .read idx :: rest ∧ t = s'.hostRead idx.toNat) ∨
      (∃ idx w, s.pending = .write idx w :: rest ∧ idx.toNat ≠ 1 ∧ t = s'.writeReg idx.toNat w) ∨
      ∃ idx w, s.pending = .write idx w :: rest ∧ idx.toNat = 1 ∧
        ((∃ e, decode w = .error e ∧ t = State.raise { s' with cmd := w } (.illegalCommand w)) ∨
          ∃ i, decode w = .ok i ∧ exec i { s' with cmd := w } = .next t) := by
  cases hp : s.pending with
  | nil =>
    simp only [step, State.request, hp] at h
    exact .inl ⟨rfl, (Host.Outcome.next.inj h).symm⟩
  | cons op rest =>
    refine .inr ⟨rest, ?_⟩
    cases op with
    | reset =>
      simp only [step, State.request, hp] at h
      exact .inl ⟨rfl, (Host.Outcome.next.inj h).symm⟩
    | read idx =>
      rw [step_read hp] at h
      exact .inr (.inl ⟨idx, rfl, (Host.Outcome.next.inj h).symm⟩)
    | write idx w =>
      by_cases hi : idx.toNat = 1
      · refine .inr (.inr (.inr ⟨idx, w, rfl, hi, ?_⟩))
        have hc : idx.toNat = cmdIndex := hi
        cases hd : decode w with
        | error e =>
          simp only [step, State.request, hp, if_pos hc, State.issue, hd] at h
          exact .inl ⟨e, rfl, (Host.Outcome.next.inj h).symm⟩
        | ok i =>
          simp only [step, State.request, hp, if_pos hc, State.issue, hd] at h
          exact .inr ⟨i, rfl, h⟩
      · rw [step_write hp hi] at h
        exact .inr (.inr (.inl ⟨idx, w, rfl, hi, (Host.Outcome.next.inj h).symm⟩))

/-! ## Registers in groups of eight -/

theorem index_toNat {base : Byte} {i : Nat} (h : base.toNat + i < 256) :
    (base + BitVec.ofNat 8 i).toNat = base.toNat + i := by
  rw [BitVec.toNat_add, BitVec.toNat_ofNat]
  omega

/-- A guarded store at an index in bounds is a store. -/
theorem setIfInBounds_eq_set {α : Type} {n : Nat} (v : Vector α n) (i : Nat) (h : i < n) (x : α) :
    v.setIfInBounds i x = v.set i x h := by
  ext j hj
  simp [Vector.getElem_set, Vector.getElem_setIfInBounds]

/-- An element of a vector read through its list. -/
theorem toList_getD {α : Type} {n : Nat} (v : Vector α n) (d : α) (i : Fin n) : v.toList.getD i.val d = v.get i := by
  simp [List.getD_eq_getElem?_getD, Vector.get]

/-- An element of a register group read as `elem`. -/
theorem elem_toList {n : Nat} (v : Vector FE n) (i : Fin n) : elem v.toList i.val = v.get i := toList_getD v 0 i

section
variable (s : State) (w : Word) (i : Fin 8)

theorem writeReg_sel : s.writeReg (0x20 + i.val) w = { s with sel := s.sel.set i.val (w.setWidth 8) } := by
  rw [← setIfInBounds_eq_set _ _ i.isLt]
  fin_cases i <;> rfl

theorem writeReg_x : s.writeReg (0x30 + i.val) w = { s with x := s.x.set i.val (normWord w) } := by
  rw [← setIfInBounds_eq_set _ _ i.isLt]
  fin_cases i <;> rfl

theorem writeReg_y : s.writeReg (0x38 + i.val) w = { s with y := s.y.set i.val (normWord w) } := by
  rw [← setIfInBounds_eq_set _ _ i.isLt]
  fin_cases i <;> rfl

theorem writeReg_p0 : s.writeReg (0x40 + i.val) w = s.withP0 (s.p0.writeCoeff i.val (normWord w)) := by
  fin_cases i <;> rfl

theorem writeReg_p1 : s.writeReg (0x50 + i.val) w = s.withP1 (s.p1.writeCoeff i.val (normWord w)) := by
  fin_cases i <;> rfl

theorem readReg_sel : s.readReg (0x20 + i.val) = byteWord (s.sel.get i) := by
  rw [← toList_getD _ 0#8]
  fin_cases i <;> rfl

theorem readReg_x : s.readReg (0x30 + i.val) = feWord (s.x.get i) := by
  rw [← elem_toList]
  fin_cases i <;> rfl

theorem readReg_y : s.readReg (0x38 + i.val) = feWord (s.y.get i) := by
  rw [← elem_toList]
  fin_cases i <;> rfl

theorem readReg_p0 : s.readReg (0x40 + i.val) = feWord (s.p0.c.get i) := by
  rw [← elem_toList]
  fin_cases i <;> rfl

theorem readReg_p1 : s.readReg (0x50 + i.val) = feWord (s.p1.c.get i) := by
  rw [← elem_toList]
  fin_cases i <;> rfl

theorem feWord_toNat (v : FE) : (feWord v).toNat = v.val := by
  have := v.isLt
  rw [feWord, BitVec.toNat_ofNat]
  omega

theorem byteWord_toNat (v : Byte) : (byteWord v).toNat = v.toNat := by
  have := v.isLt
  rw [byteWord, BitVec.toNat_setWidth]
  omega

/-- A host write to a coefficient register (R40). -/
theorem Bank.writeCoeff_eq (p : Bank) (v : FE) :
    (i.val < p.len.toNat → p.writeCoeff i.val v = { p with c := p.c.set i.val v }) ∧
    (p.len.toNat ≤ i.val → p.writeCoeff i.val v = p) := by
  constructor
  · intro h
    rw [Bank.writeCoeff, if_pos h, setIfInBounds_eq_set _ _ i.isLt]
  · intro h
    rw [Bank.writeCoeff, if_neg (by omega)]

end

end Sys2Proof.Machine
end

