-- ==== Sys2Proof/Tests/Slice0.lean ====
section
/-! SUPPORT. Tests: the well-formedness smoke, words written out from the encoding table (30_encoding.md R90 to R95),
single steps with the numbers of 95_test_vectors.md, and for every statement with hypotheses a witness that meets
them. -/

namespace Sys2Proof.Tests

open Sys2Proof Sys2Proof.Machine

/-! ## Well-formedness -/

theorem test_wellFormed_largest_arguments :
    [Instr.pnew 255 255, .peval 255, .lag0 255 255, .pinterp 255, .embed 255, .extract 255].all
      Instr.wellFormed = true := by decide

theorem test_wellFormed_refuses_a_wide_argument :
    [Instr.pnew 256 1, .pnew 0 256, .peval 256, .lag0 256 1, .lag0 0 256, .pinterp 256, .embed 256,
      .extract 256].any Instr.wellFormed = false := by decide

/-! ## Words (R93; a word is `rsv a1 a0 op`, written as four bytes) -/

/-- The decoder's answer to four bytes, the first the reserved one. -/
def dec (rsv a1 a0 op : Byte) : Option Instr := decodeTableWord 32 (rsv ++ a1 ++ a0 ++ op).toNat

theorem test_decode_system_words :
    dec 0 0 0 0b00000000#8 = some .nop ∧ dec 0 0 0 0b00000001#8 = some .clrerr := by decide

theorem test_decode_field_words :
    dec 0 0 0 0b00010000#8 = some .fadd ∧ dec 0 0 0 0b00010001#8 = some .fsub ∧ dec 0 0 0 0b00010010#8 = some .fmul ∧
    dec 0 0 0 0b00010011#8 = some .fdiv ∧ dec 0 0 0 0b00010100#8 = some .fpow ∧ dec 0 0 0 0b00010101#8 = some .finv ∧
    dec 0 0 0 0b00010110#8 = some .feq := by decide

theorem test_decode_polynomial_words :
    dec 0 0b00000011#8 0 0b00100000#8 = some (.pnew 0 3) ∧ dec 0 0 0b00000010#8 0b00100001#8 = some (.peval 2) ∧
    dec 0 0 0 0b00100010#8 = some .peq ∧ dec 0 0b00000011#8 0b00000001#8 0b00100011#8 = some (.lag0 1 3) ∧
    dec 0 0 0b00000001#8 0b00100100#8 = some (.pinterp 1) := by decide

theorem test_decode_share_words :
    dec 0 0 0 0b00110000#8 = some .blkbuild ∧ dec 0 0 0 0b00110001#8 = some .encode ∧
    dec 0 0 0 0b00110010#8 = some .distribute ∧ dec 0 0 0 0b01000000#8 = some .blkinterp ∧
    dec 0 0 0 0b01000001#8 = some .cheat ∧ dec 0 0 0 0b01000010#8 = some .decode ∧
    dec 0 0 0 0b01000011#8 = some .recover := by decide

theorem test_decode_embedding_words :
    dec 0 0 0b11111010#8 0b01010000#8 = some (.embed 250) ∧ dec 0 0 0b00000001#8 0b01010001#8 = some (.extract 1) := by
  decide

theorem test_decode_refuses_illegal_words :
    [0x17, 0x110, 0x10021, 0x1000010, 0xFF, 0x33, 0x131, 0x02, 0x25, 0x44, 0x52].all
      (fun w => decodeTableWord 32 w == none) = true := by decide

theorem test_encode_words :
    encode (.pnew 0 3) = 0x00030020#32 ∧ encode (.lag0 1 3) = 0x00030123#32 ∧ encode (.peval 2) = 0x00000221#32 ∧
    encode .recover = 0x00000043#32 ∧ encode (.embed 250) = 0x0000FA50#32 := by decide

/-! ## Small states -/

/-- The smallest parameters the spec allows but for COVER: 8 slots, 14 secret bytes, 8 cover bytes. -/
def tiny : Config.Params := { nMax := 8, secretDepth := 14, coverDepth := 8 }

/-- A core with those parameters, right after power-up. -/
def s0 : State := State.resetWith tiny

/-- `s0` with one event pending. -/
def host (op : HostOp) : State := { s0 with pending := [op] }

/-- The state after an outcome; the starting state of `s0` where there is none. -/
def after : Host.Outcome State Fault Refusal → State
  | .next t => t
  | .fault r => nomatch r
  | .refused _ => s0

/-- `s0` with `A` and `B` set. -/
def ab (a b : FE) : State := { s0 with a := a, b := b }

/-- `s0` with both banks set. -/
def banks (p q : List FE) : State := { s0 with p0 := Bank.load p.length p, p1 := Bank.load q.length q }

/-- `s0` with `K` points. -/
def points (k npts : Byte) (x y : Vector FE 8) : State := { s0 with k := k, npts := npts, x := x, y := y }

/-- `s0` with the numbers of a scheme. -/
def scheme (k n : Byte) (npix : Word) : State := { s0 with k := k, n := n, npix := npix }

/-- `s` with the registers of its first slots set: identifiers 1, 2, ... and one width and height. -/
def slotted (s : State) (n : Nat) (w h : BitVec 16) : State :=
  { s with slots := (List.range n).map (fun i => { cid := BitVec.ofNat 8 (i + 1), cw := w, ch := h }) ++
      List.replicate (8 - n) Slot.zero }

/-- V-ENC-1 before `ENCODE`: the plane 10, 20, 30, 40 and the draw 7. -/
def plane : State :=
  { scheme 3#8 3#8 4#32 with drawPort := { queued := [0#8, 7#8], taken := 0 } }.fill .secret 0 [10#8, 20#8, 30#8, 40#8]

/-- V-DEC-1 before `DECODE`: the shadows of V-ENC-1 and 2 by 2 covers. -/
def shares : State :=
  ((slotted (scheme 3#8 3#8 4#32) 3 2#16 2#16 |>.fill .shadow 0 [60#8, 81#8]).fill .shadow 1 [110#8, 233#8]).fill
    .shadow 2 [180#8, 245#8]

/-- V-DEC-3: one shadow byte of V-DEC-1 changed. -/
def tampered : State := shares.storeByte .shadow 1 0 111#8

/-- The covers that carry the shadows of V-ENC-1, high bits 0. -/
def covers : State :=
  ((slotted (scheme 3#8 3#8 4#32) 3 2#16 2#16 |>.fill .cover 0 [3#8, 12#8, 5#8, 1#8]).fill .cover 1
    [6#8, 14#8, 14#8, 9#8]).fill .cover 2 [11#8, 4#8, 15#8, 5#8]

/-- Bytes `0` to `n - 1` of a memory, as numbers. -/
def bytes (s : State) (sp : Space) (slot n : Nat) : List Nat := (List.range n).map fun i => (s.byteAt sp slot i).toNat

/-- `ERR`, `ESTICKY`, `EINFO` as numbers. -/
def errors (s : State) : Nat × Nat × Nat := (s.err.toNat, s.esticky.toNat, s.einfo.toNat)

/-! ## One command each (95_test_vectors.md section 2) -/

theorem test_nop_keeps_the_record :
    errors (after (exec .nop { s0 with err := 4#3, esticky := 0x12#5, einfo := 0x131#32 })) = (0, 0x12, 0x131) := by
  decide

theorem test_clrerr_clears_the_record :
    errors (after (exec .clrerr { s0 with err := 4#3, esticky := 0x12#5, einfo := 0x131#32 })) = (0, 0, 0) := by decide

theorem test_fadd_wraps : (after (exec .fadd (ab 200 100))).r = 49 := by decide

theorem test_fsub_wraps : (after (exec .fsub (ab 3 5))).r = 249 := by decide

theorem test_fmul_reduces : (after (exec .fmul (ab 123 45))).r = 13 := by decide

theorem test_fdiv_divides : (after (exec .fdiv (ab 5 3))).r = 169 ∧ (after (exec .fdiv (ab 100 7))).r = 86 := by decide

theorem test_fdiv_by_zero :
    errors (after (exec .fdiv { ab 9 0 with r := 5 })) = (2, 4, 0) ∧ (after (exec .fdiv { ab 9 0 with r := 5 })).r = 5 := by
  decide

theorem test_fpow_takes_the_whole_exponent :
    (after (exec .fpow { ab 6 0 with e := 255#32 })).r = 246 ∧ (after (exec .fpow { ab 0 0 with e := 0#32 })).r = 1 := by
  decide

theorem test_finv_reads_the_rom : (after (exec .finv (ab 100 0))).r = 123 ∧ (after (exec .finv (ab 249 0))).r = 125 := by
  decide

theorem test_feq_compares : (after (exec .feq (ab 250 250))).flagEq = true ∧
    (after (exec .feq { ab 0 250 with flagEq := true })).flagEq = false := by decide

theorem test_pnew_clears_the_other_bank_not :
    (after (exec (.pnew 1 3) (banks [10, 20] [5]))).p1.poly = [0, 0, 0] ∧
    (after (exec (.pnew 1 3) (banks [10, 20] [5]))).p0.poly = [10, 20] := by decide

theorem test_peval_evaluates : (after (exec (.peval 0) { banks [10, 20, 30] [5] with a := 4 })).r = 19 ∧
    (after (exec (.peval 1) { banks [10] [181, 111, 40] with a := 2 })).r = 233 := by decide

theorem test_peq_compares_lengths : (after (exec .peq { banks [0, 5] [5] with flagEq := true })).flagEq = false ∧
    (after (exec .peq s0)).flagEq = true := by decide

theorem test_lag0_basis :
    (after (exec (.lag0 1 3) (points 0#8 0#8 #v[1, 2, 3, 0, 0, 0, 0, 0] (Vector.replicate 8 0)))).r = 248 ∧
    (after (exec (.lag0 0 2) (points 0#8 0#8 #v[1, 2, 3, 0, 0, 0, 0, 0] (Vector.replicate 8 0)))).r = 2 := by decide

theorem test_pinterp_order_of_points :
    (after (exec (.pinterp 1) (points 3#8 3#8 #v[4, 2, 3, 0, 0, 0, 0, 0] #v[19, 110, 180, 0, 0, 0, 0, 0]))).p1.poly =
      [10, 20, 30] := by decide

theorem test_pinterp_zero_last :
    (after (exec (.pinterp 0) (points 2#8 2#8 #v[5, 0, 0, 0, 0, 0, 0, 0] #v[17, 9, 0, 0, 0, 0, 0, 0]))).p0.poly =
      [102, 9] := by decide

theorem test_blkbuild_builds :
    (after (exec .blkbuild plane)).p0.poly = [10, 20, 30] ∧ (after (exec .blkbuild plane)).p1.poly = [181, 111, 40] ∧
    (after (exec .blkbuild plane)).r = 7 := by decide +kernel

theorem test_encode_writes_the_shadows :
    bytes (after (exec .encode plane)) .shadow 0 2 = [60, 81] ∧ bytes (after (exec .encode plane)) .shadow 1 2 = [110, 233] ∧
    bytes (after (exec .encode plane)) .shadow 2 2 = [180, 245] := by decide +kernel

/-- `K = 4`, draws 0 and 255 discarded, 100 taken: V-ENC-2. -/
theorem test_encode_remaps_and_normalises :
    let s := { scheme 4#8 5#8 6#32 with drawPort := { queued := [0#8, 255#8, 100#8], taken := 0 } }.fill .secret 0
      [0#8, 251#8, 255#8, 7#8, 200#8, 250#8]
    bytes (after (exec .encode s)) .shadow 2 2 = [55, 11] ∧ bytes (after (exec .encode s)) .shadow 4 2 = [177, 55] := by
  decide +kernel

/-- P3's first block over covers of P3's high bits. -/
theorem test_distribute_embeds :
    let s := (((slotted plane 0 0 0).fill .cover 0 [0x10#8, 0x11#8, 0x12#8, 0x13#8]).fill .cover 1
      [0x20#8, 0x21#8, 0x22#8, 0x23#8]).fill .cover 2 [0x30#8, 0x31#8, 0x32#8, 0x33#8]
    let t := after (exec .distribute { s with slots := List.replicate 8 { cid := 0#8, cw := 2#16, ch := 2#16 } })
    bytes t .cover 0 4 = [0x13, 0x1C, 0x15, 0x11] ∧ bytes t .cover 2 4 = [0x3B, 0x34, 0x3F, 0x35] ∧
      t.slots.map (fun u => u.cid.toNat) = [1, 2, 3, 0, 0, 0, 0, 0] := by decide +kernel

theorem test_blkinterp_interpolates :
    (after (exec .blkinterp tampered)).p0.poly = [9, 24, 27] ∧
    (after (exec .blkinterp tampered)).p1.poly = [181, 111, 40] := by decide +kernel

theorem test_cheat_finds_the_least :
    (after (exec .cheat (banks [0, 5, 1] [0, 10, 2]))).r = 249 ∧
    (after (exec .cheat { banks [0, 0, 1] [0, 0, 2] with r := 9 })).r = 0 := by decide +kernel

theorem test_cheat_detects : errors (after (exec .cheat (banks [9, 24, 27] [181, 111, 40]))) = (3, 8, 0) := by
  decide +kernel

theorem test_decode_reassembles :
    bytes (after (exec .decode shares)) .secret 0 4 = [10, 20, 30, 40] ∧ (after (exec .decode shares)).outw = 2#16 := by
  decide +kernel

theorem test_decode_detects : errors (after (exec .decode tampered)) = (3, 8, 0) ∧
    (after (exec .decode tampered)).mem = tampered.mem := by decide +kernel

theorem test_recover_reassembles :
    bytes (after (exec .recover covers)) .secret 0 4 = [10, 20, 30, 40] ∧
    bytes (after (exec .recover covers)) .shadow 1 2 = [110, 233] := by decide +kernel

/-- V-EMB-1. -/
theorem test_embed_four_bits :
    let s := ((slotted (scheme 3#8 0#8 4#32) 1 3#16 2#16).fill .shadow 0 [0x3C#8, 0x51#8]).fill .cover 0
      [0xFF#8, 0x00#8, 0xAB#8, 0x10#8, 0x77#8, 0x88#8]
    bytes (after (exec (.embed 0) s)) .cover 0 6 = [0xF3, 0x0C, 0xA5, 0x11, 0x77, 0x88] := by decide +kernel

/-- V-EMB-2. -/
theorem test_embed_two_bits :
    let s := ((slotted (scheme 5#8 0#8 8#32) 2 4#16 2#16).fill .shadow 1 [0xB5#8, 0x1E#8]).fill .cover 1
      [0xFF#8, 0xFF#8, 0x00#8, 0x00#8, 0x80#8, 0x81#8, 0x82#8, 0x83#8]
    bytes (after (exec (.embed 1) s)) .cover 1 8 = [0xFE, 0xFF, 0x01, 0x01, 0x80, 0x81, 0x83, 0x82] ∧
      ((after (exec (.embed 1) s)).slotRegs 1).cid = 2#8 := by decide +kernel

theorem test_extract_two_bits :
    let s := (slotted (scheme 5#8 0#8 8#32) 2 4#16 2#16).fill .cover 1
      [0xFE#8, 0xFF#8, 0x01#8, 0x01#8, 0x80#8, 0x81#8, 0x83#8, 0x82#8]
    bytes (after (exec (.extract 1) s)) .shadow 1 2 = [0xB5, 0x1E] := by decide +kernel

/-- The word -70 written to `A`; an illegal word written to `CMD`; the first instruction after reset. -/
theorem test_steps :
    (after (step (host (.write 0x08#8 0xFFFFFFBA#32)))).a = 181 ∧
    errors (after (step (host (.write 0x01#8 0x00000131#32)))) = (4, 16, 0x131) ∧
    errors (after (step (State.reset.withFetchWord 32 0x31))) = (1, 2, 1) := by decide +kernel

/-! ## Witnesses: for each statement with hypotheses, states and operands that meet them, clause by clause -/

/-- A scheme with `K = N`, the smallest threshold and two blocks, exactly enough shadow and cover room. -/
def schemeS : State := slotted (scheme 3#8 3#8 8#32) 8 4#16 2#16

/-- A scheme with `K = 8`, `N = N_MAX` and the whole SECRET memory in one block. -/
def schemeL : State := { slotted (scheme 8#8 8#8 14#32) 8 4#16 2#16 with sel := #v[7#8, 6#8, 5#8, 4#8, 3#8, 2#8, 1#8, 0#8] }

theorem schemeS_ok : schemeS.schemeOk ∧ schemeS.selectionOk ∧ schemeS.inv ∧ schemeS.blocks = 2 := by
  unfold State.schemeOk State.kOk State.sizeOk State.divOk State.selectionOk State.participantsOk State.selLoaded
    State.dimsAgree
  decide +kernel

theorem schemeL_ok : schemeL.schemeOk ∧ schemeL.selectionOk ∧ schemeL.inv ∧ schemeL.blocks = 1 := by
  unfold State.schemeOk State.kOk State.sizeOk State.divOk State.selectionOk State.participantsOk State.selLoaded
    State.dimsAgree
  decide +kernel

/-- The cover capacity is met exactly, and `COVER_DEPTH` is used whole, in each of the 8 slots. -/
theorem capacity_exact : (∀ slot < 8, schemeS.capacityOk slot) ∧ schemeS.shadowBytes * schemeS.pixelsPerByte = 8 ∧
    (∀ slot < 8, schemeL.capacityOk slot) ∧ schemeL.shadowBytes * schemeL.pixelsPerByte = 8 := by
  unfold State.capacityOk
  decide +kernel

/-- The identifiers of `schemeS`, 1 2 3, and with the first one 0 and selected last. -/
theorem shareIds_ok : abscissaeOk schemeS.k.toNat schemeS.shareId ∧ abscissaeOk schemeL.k.toNat schemeL.shareId ∧
    abscissaeOk shares.k.toNat shares.shareId ∧ abscissaeOk covers.k.toNat covers.shareId := by
  refine ⟨⟨by decide +kernel, ?_⟩, ⟨by decide +kernel, ?_⟩, ⟨by decide +kernel, ?_⟩, ⟨by decide +kernel, ?_⟩⟩ <;>
    intro i h
  · have : i < 2 := by have : schemeS.k.toNat = 3 := rfl
                       omega
    interval_cases i <;> decide +kernel
  · have : i < 7 := by have : schemeL.k.toNat = 8 := rfl
                       omega
    interval_cases i <;> decide +kernel
  · have : i < 2 := by have : shares.k.toNat = 3 := rfl
                       omega
    interval_cases i <;> decide +kernel
  · have : i < 2 := by have : covers.k.toNat = 3 := rfl
                       omega
    interval_cases i <;> decide +kernel

/-- EncodeThenDecodeGivesTheCommand, DecodedWordIsItsEncoding. -/
theorem witness_encoding : (Instr.pnew 255 255).wellFormed = true ∧ (Instr.lag0 0 0).wellFormed = true ∧
    decode 0x00FFFF20#32 = .ok (.pnew 255 255) ∧ decode 0x0000FF51#32 = .ok (.extract 255) := by decide

/-- WordSelectsOneTableRowOrIsIllegal: a word that matches a row, and one that matches none, pending. -/
theorem witness_word_selects : (∃ row ∈ opcodeMapRows, 0x00FFFF23#32 &&& row.2.1 = row.1) ∧
    (∀ row ∈ opcodeMapRows, 0x01000000#32 &&& row.2.1 ≠ row.1) ∧
    (host (.write 0x01#8 0x01000000#32)).pending = .write 0x01#8 0x01000000#32 :: [] := by
  unfold opcodeMapRows; decide

/-- IllegalWordChangesOnlyTheErrorRecord: each kind of illegal word, at the ends of its range. -/
theorem witness_illegal_words :
    (∀ op ∈ [0x02, 0x0F, 0x17, 0x1F, 0x25, 0x2F, 0x33, 0x3F, 0x44, 0x4F, 0x52, 0xFF],
      (0x02 ≤ op ∧ op ≤ 0x0F) ∨ (0x17 ≤ op ∧ op ≤ 0x1F) ∨ (0x25 ≤ op ∧ op ≤ 0x2F) ∨ (0x33 ≤ op ∧ op ≤ 0x3F) ∨
        (0x44 ≤ op ∧ op ≤ 0x4F) ∨ 0x52 ≤ op) ∧
    (0x01000010#32).toNat / 2 ^ 24 ≠ 0 ∧
    ((0x0000FF22#32).toNat % 256 ∉ [0x20, 0x21, 0x23, 0x24, 0x50, 0x51] ∧ (0x0000FF22#32).toNat / 2 ^ 8 % 256 ≠ 0) ∧
    ((0x00010051#32).toNat % 256 ∉ [0x20, 0x23] ∧ (0x00010051#32).toNat / 2 ^ 16 % 256 ≠ 0) ∧
    (host (.write 0x01#8 0x00010051#32)).pending = .write 0x01#8 0x00010051#32 :: [] := by decide

/-- StepExecutesTheCommandWord, ResetEventRestoresEveryRegister. -/
theorem witness_events : (host (.write 0x01#8 0x00000032#32)).pending = .write 0x01#8 0x00000032#32 :: [] ∧
    decode 0x00000032#32 = .ok .distribute ∧ (host (.read 0x01#8)).pending = .read 0x01#8 :: [] ∧
    (host .reset).pending = .reset :: [] := by decide

/-- An outcome that is a next state is that of `after`. -/
theorem next_after {o : Host.Outcome State Fault Refusal} (h : ∃ t, o = .next t) : o = .next (after o) := by
  obtain ⟨t, rfl⟩ := h
  rfl

/-- FailedCommandWritesOnlyTheErrorRecord, SuccessfulCommandKeepsTheErrorRecord, and the other statements about any
command that answers a next state: each with outcome 0 and with another. -/
theorem witness_exec : (∃ t, exec .fdiv s0 = .next t ∧ t.err ≠ 0#3) ∧
    (∃ t, exec .encode plane = .next t ∧ t.err = 0#3 ∧ Instr.encode ≠ .clrerr) := by
  refine ⟨⟨_, rfl, by decide⟩, ⟨_, next_after (exec_answers _ _), by decide +kernel, by decide⟩⟩

/-- DrawsNeverDecideAnOutcome: one command with two draw ports. -/
theorem witness_two_draw_ports : (∃ t, exec .blkbuild plane = .next t) ∧
    ∃ t, exec .blkbuild { plane with drawPort := { queued := [251#8, 250#8], taken := 3 } } = .next t :=
  ⟨exec_answers _ _, exec_answers _ _⟩

/-- DrawPortDeliversValidBytesInOrder. -/
theorem witness_draws : (∀ v ∈ [1#8, 250#8], 1 ≤ v.toNat ∧ v.toNat ≤ 250) ∧
    (∀ v ∈ [0#8, 251#8, 255#8], v.toNat = 0 ∨ 250 < v.toNat) := by decide

/-- EveryStepKeepsTheInvariant, EveryStepStoresOnlyAtExistingLocations: a state with memory and an event pending. -/
theorem witness_invariant : { shares with pending := [.write 0x01#8 0x42#32] }.inv ∧
    { s0 with mem := [(13, 7#8)], pending := [.write 0x1A#8 1#32] }.memInRange ∧
    (∃ t, step { shares with pending := [.write 0x01#8 0x42#32] } = .next t) ∧
    ∃ t, step { s0 with mem := [(13, 7#8)], pending := [.write 0x1A#8 1#32] } = .next t := by
  refine ⟨by decide +kernel, ?_, exec_answers .decode _, ⟨_, rfl⟩⟩
  intro p hp
  exact ⟨.secret, 0, 13, by decide, by simp at hp; simp [hp, cellKey]⟩

/-- FdivDividesOrRaises, FinvInvertsOrRaises: nonzero operands at both ends, and zero. -/
theorem witness_division : (ab 0 1).b ≠ 0 ∧ (ab 0 250).b ≠ 0 ∧ (ab 9 0).b = 0 ∧ (ab 1 0).a ≠ 0 ∧ (ab 250 0).a ≠ 0 ∧
    (ab 0 9).a = 0 := by decide

/-- FpowRaisesToThePower. -/
theorem witness_power : { ab 250 0 with e := 0xFFFFFFFF#32 }.a ≠ 0 := by decide

/-- InverseRomHoldsTheInverses: the ends of both ranges, and an inverse. -/
theorem witness_rom : (1 ≤ 1 ∧ 1 ≤ 250) ∧ (1 ≤ 250 ∧ 250 ≤ 250) ∧ (251 ≤ 251 ∧ 251 ≤ 255) ∧ (251 ≤ 255 ∧ 255 ≤ 255) ∧
    (100 * 123) % 251 = 1 := by decide

/-- PnewBuildsTheZeroPolynomial, PevalComputesThePowerSum: lengths 1 and 8, and each bad argument. -/
theorem witness_pnew : (1 ≤ 1 ∧ 1 ≤ 8) ∧ (1 ≤ 8 ∧ 8 ≤ 8) ∧
    (∀ p ∈ [(2, 3), (0, 0), (1, 9), (255, 255)], 1 < p.1 ∨ p.2 < 1 ∨ 8 < p.2) ∧ 1 < 2 := by decide

/-- Lag0ComputesTheBasisValueAtZero: distinct and equal abscissae, the last index of eight, one point, bad arguments. -/
theorem witness_lag0 :
    (∀ j < 8, j ≠ 7 → elem (points 0#8 0#8 #v[1, 2, 3, 4, 5, 6, 7, 0] (Vector.replicate 8 0)).x.toList j ≠
      elem (points 0#8 0#8 #v[1, 2, 3, 4, 5, 6, 7, 0] (Vector.replicate 8 0)).x.toList 7) ∧
    (∀ j < 1, j ≠ 0 → elem s0.x.toList j ≠ elem s0.x.toList 0) ∧
    (∃ j < 2, j ≠ 0 ∧ elem s0.x.toList j = elem s0.x.toList 0) ∧
    (∀ p ∈ [(0, 0), (0, 9), (8, 8), (2, 2), (255, 255)], p.2 < 1 ∨ 8 < p.2 ∨ p.2 ≤ p.1) := by decide

/-- The points of PinterpFindsTheUniquePolynomial at `K = 1` and at `K = 8` with the last abscissa 0. -/
theorem witness_pinterp :
    (1 ≤ (points 1#8 1#8 (Vector.replicate 8 0) (Vector.replicate 8 42)).k.toNat ∧
      (points 1#8 1#8 (Vector.replicate 8 0) (Vector.replicate 8 42)).k.toNat ≤ 8 ∧
      (points 1#8 1#8 (Vector.replicate 8 0) (Vector.replicate 8 42)).npts = 1#8 ∧
      abscissaeOk 1 (fun i => (elem (points 1#8 1#8 (Vector.replicate 8 0) (Vector.replicate 8 42)).x.toList i).val)) ∧
    ((points 8#8 8#8 #v[1, 2, 3, 4, 5, 6, 7, 0] (Vector.replicate 8 9)).k.toNat = 8 ∧
      (points 8#8 8#8 #v[1, 2, 3, 4, 5, 6, 7, 0] (Vector.replicate 8 9)).npts = 8#8 ∧
      abscissaeOk 8 (fun i => (elem (points 8#8 8#8 #v[1, 2, 3, 4, 5, 6, 7, 0] (Vector.replicate 8 9)).x.toList i).val)) := by
  refine ⟨⟨by decide, by decide, by decide, by decide, ?_⟩, by decide, by decide, by decide, ?_⟩ <;> intro i h
  · omega
  · have : i < 7 := by omega
    interval_cases i <;> decide

/-- PinterpRaisesOnBadArgumentsAndPoints: `K` 0 and 9, `NPTS` too small and too large; equal abscissae, and a zero one
that is not last. -/
theorem witness_pinterp_raises : 1 < 2 ∧
    (∀ s ∈ [scheme 0#8 0#8 0#32, { scheme 9#8 0#8 0#32 with npts := 9#8 }, { scheme 3#8 0#8 0#32 with npts := 2#8 },
        { scheme 3#8 0#8 0#32 with npts := 4#8 }], s.k.toNat < 1 ∨ 8 < s.k.toNat ∨ s.npts ≠ s.k) ∧
    (¬ abscissaeOk 3 (fun i => (elem (points 3#8 3#8 #v[1, 2, 1, 0, 0, 0, 0, 0] (Vector.replicate 8 9)).x.toList i).val)) ∧
    ¬ abscissaeOk 3 (fun i => (elem (points 3#8 3#8 #v[0, 1, 2, 0, 0, 0, 0, 0] (Vector.replicate 8 9)).x.toList i).val) := by
  refine ⟨by decide, by decide +kernel, fun h => h.1 0 (by decide) 2 (by decide) (by decide) (by decide),
    fun h => h.2 0 (by decide) (by decide)⟩

/-- BlkbuildBuildsBothPolynomials and BlkinterpInterpolatesBothPolynomials: the last block; EncodeWritesEveryShadow with
`N = K` (`schemeS`) and `N = N_MAX` (`schemeL`), DistributeIsEncodeThenEmbed, DistributeWritesShadowsAndCovers and the embedding statements in the last slot. -/
theorem witness_scheme : schemeS.schemeOk ∧ { schemeS with blk := 1#32 }.blk.toNat < schemeS.blocks ∧
    schemeS.participantsOk ∧ schemeS.n = schemeS.k ∧ schemeL.schemeOk ∧ schemeL.participantsOk ∧
    schemeL.n.toNat = schemeL.params.nMax.val ∧ (∀ slot < schemeL.n.toNat, schemeL.capacityOk slot) ∧
    7 < schemeL.params.nMax.val ∧ schemeL.capacityOk 7 :=
  ⟨schemeS_ok.1, by decide +kernel, schemeS_ok.2.1.1, rfl, schemeL_ok.1, schemeL_ok.2.1.1, rfl, capacity_exact.2.2.1, by decide,
    capacity_exact.2.2.1 7 (by decide)⟩

/-- BlkinterpInterpolatesBothPolynomials. -/
theorem witness_blkinterp : { schemeS with blk := 1#32 }.schemeOk ∧ { schemeS with blk := 1#32 }.selectionOk ∧
    { schemeS with blk := 1#32 }.blk.toNat < { schemeS with blk := 1#32 }.blocks ∧
    abscissaeOk { schemeS with blk := 1#32 }.k.toNat { schemeS with blk := 1#32 }.shareId :=
  ⟨schemeS_ok.1, schemeS_ok.2.1, by decide, shareIds_ok.1⟩

/-- CheatFindsTheLeastBlindingValue: a value late in the search, none at all, and banks of length 1. -/
theorem witness_cheat :
    (2 ≤ (banks [0, 5, 1] [0, 10, 2]).p0.len.toNat ∧ 2 ≤ (banks [0, 5, 1] [0, 10, 2]).p1.len.toNat ∧
      blinds (banks [0, 5, 1] [0, 10, 2]).p0.c.toList (banks [0, 5, 1] [0, 10, 2]).p1.c.toList 249 ∧
      ∀ r' < 249, ¬ blinds (banks [0, 5, 1] [0, 10, 2]).p0.c.toList (banks [0, 5, 1] [0, 10, 2]).p1.c.toList r') ∧
    (2 ≤ (banks [0, 0] [0, 1]).p0.len.toNat ∧ 2 ≤ (banks [0, 0] [0, 1]).p1.len.toNat ∧
      ∀ r < 251, ¬ blinds (banks [0, 0] [0, 1]).p0.c.toList (banks [0, 0] [0, 1]).p1.c.toList r) ∧
    ((banks [5] [0, 0]).p0.len.toNat < 2 ∧ (banks [0, 0] [5]).p1.len.toNat < 2) := by
  unfold blinds
  decide +kernel

/-- The shares of `shares` (V-DEC-1) and of `tampered` (V-DEC-3). -/
theorem shares_are : shares.blockIs shares.storedByte 0 [10, 20, 30] [181, 111, 40] ∧
    tampered.blockIs tampered.storedByte 0 [9, 24, 27] [181, 111, 40] ∧ blinds [10, 20, 30] [181, 111, 40] 7 ∧
    (∀ r < 251, ¬ blinds [9, 24, 27] [181, 111, 40] r) ∧
    covers.blockIs (fun i q => covers.carriedByte (covers.selAt i) q) 0 [10, 20, 30] [181, 111, 40] := by
  unfold State.blockIs State.passes blinds
  decide +kernel

theorem small_schemes_ok : (shares.schemeOk ∧ shares.selectionOk ∧ shares.blocks = 1) ∧
    (tampered.schemeOk ∧ tampered.selectionOk ∧ tampered.blocks = 1) ∧
    (covers.schemeOk ∧ covers.selectionOk ∧ covers.blocks = 1 ∧ ∀ i < 3, covers.capacityOk (covers.selAt i)) := by
  unfold State.schemeOk State.kOk State.sizeOk State.divOk State.selectionOk State.participantsOk State.selLoaded
    State.dimsAgree State.capacityOk
  decide +kernel

/-- DecodeReassemblesThePlane. -/
theorem witness_decode : shares.schemeOk ∧ shares.selectionOk ∧
    (0 < shares.blocks → abscissaeOk shares.k.toNat shares.shareId) ∧
    ∀ b < shares.blocks, shares.blockIs shares.storedByte b [10, 20, 30] [181, 111, 40] ∧
      ∃ r < 251, blinds [10, 20, 30] [181, 111, 40] r := by
  refine ⟨small_schemes_ok.1.1, small_schemes_ok.1.2.1, fun _ => shareIds_ok.2.2.1, fun b hb => ?_⟩
  rw [small_schemes_ok.1.2.2, Nat.lt_one_iff] at hb
  subst hb
  exact ⟨shares_are.1, 7, by decide, shares_are.2.2.1⟩

/-- DecodeReportsTheLowestForgedBlock. -/
theorem witness_forged : tampered.schemeOk ∧ tampered.selectionOk ∧ 0 < tampered.blocks ∧
    abscissaeOk tampered.k.toNat tampered.shareId ∧
    (∀ b' ≤ 0, tampered.blockIs tampered.storedByte b' [9, 24, 27] [181, 111, 40]) ∧
    (∀ b' < 0, ∃ r < 251, blinds [9, 24, 27] [181, 111, 40] r) ∧ ∀ r < 251, ¬ blinds [9, 24, 27] [181, 111, 40] r := by
  refine ⟨small_schemes_ok.2.1.1, small_schemes_ok.2.1.2.1, by decide +kernel, shareIds_ok.2.2.1, fun b hb => ?_,
    fun b hb => absurd hb (by omega), shares_are.2.2.2.1⟩
  rw [Nat.le_zero] at hb
  subst hb
  exact shares_are.2.1

/-- `schemeS` whose second block is forged and whose first is not: V-DEC-1 then V-DEC-3. -/
def forgedLater : State :=
  ((schemeS.fill .shadow 0 [60#8, 81#8, 60#8, 81#8]).fill .shadow 1 [110#8, 233#8, 111#8, 233#8]).fill .shadow 2
    [180#8, 245#8, 180#8, 245#8]

theorem forgedLater_blocks : forgedLater.blockIs forgedLater.storedByte 0 [10, 20, 30] [181, 111, 40] ∧
    forgedLater.blockIs forgedLater.storedByte 1 [9, 24, 27] [181, 111, 40] := by
  unfold State.blockIs State.passes
  decide +kernel

/-- DecodeReportsTheLowestForgedBlock, the forged block being the last one. -/
theorem witness_forged_last : ∃ f : Nat → List FE, forgedLater.schemeOk ∧ forgedLater.selectionOk ∧
    1 < forgedLater.blocks ∧ abscissaeOk forgedLater.k.toNat forgedLater.shareId ∧
    (∀ b' ≤ 1, forgedLater.blockIs forgedLater.storedByte b' (f b') [181, 111, 40]) ∧
    (∀ b' < 1, ∃ r < 251, blinds (f b') [181, 111, 40] r) ∧ ∀ r < 251, ¬ blinds (f 1) [181, 111, 40] r := by
  refine ⟨fun b => if b = 0 then [10, 20, 30] else [9, 24, 27], schemeS_ok.1, schemeS_ok.2.1, by decide +kernel, shareIds_ok.1,
    fun b hb => ?_, fun b hb => ?_, shares_are.2.2.2.1⟩
  · interval_cases b
    · exact forgedLater_blocks.1
    · exact forgedLater_blocks.2
  · interval_cases b
    exact ⟨7, by decide, shares_are.2.2.1⟩

/-- `covers` with three identifiers, all else equal. -/
def identified (i j k : Byte) : State :=
  { covers with slots := [{ cid := i, cw := 2#16, ch := 2#16 }, { cid := j, cw := 2#16, ch := 2#16 },
      { cid := k, cw := 2#16, ch := 2#16 }] }

theorem identified_ok : ∀ s ∈ [identified 1#8 252#8 3#8, identified 251#8 2#8 3#8],
    s.schemeOk ∧ s.selectionOk ∧ s.blk.toNat < s.blocks ∧ 0 < s.blocks ∧ ∀ i < s.k.toNat, s.capacityOk (s.selAt i) := by
  unfold State.schemeOk State.kOk State.sizeOk State.divOk State.selectionOk State.participantsOk State.selLoaded
    State.dimsAgree State.capacityOk
  decide +kernel

/-- BadIdentifiersRaiseDivisionByZero: identifiers equal modulo 251, and one that is 0 modulo 251 and not last. -/
theorem witness_bad_ids : ∀ s ∈ [identified 1#8 252#8 3#8, identified 251#8 2#8 3#8],
    (s.schemeOk ∧ s.selectionOk ∧ s.blk.toNat < s.blocks ∧ 0 < s.blocks ∧
      ∀ i < s.k.toNat, s.capacityOk (s.selAt i)) ∧ ¬ abscissaeOk s.k.toNat s.shareId := by
  intro s hs
  refine ⟨identified_ok s hs, fun h => ?_⟩
  rcases List.mem_pair.mp hs with rfl | rfl
  · exact h.1 0 (by decide +kernel) 1 (by decide +kernel) (by decide) (by decide +kernel)
  · exact h.2 0 (by decide +kernel) (by decide +kernel)

/-- RecoverIsExtractThenDecode. -/
theorem witness_recover_runs : ∃ t, exec .recover covers = .next t ∧ t.err = 0#3 :=
  ⟨_, next_after (exec_answers _ _), by decide +kernel⟩

/-- RecoverReassemblesThePlane. -/
theorem witness_recover : covers.schemeOk ∧ covers.selectionOk ∧
    (∀ i < covers.k.toNat, covers.capacityOk (covers.selAt i)) ∧
    (0 < covers.blocks → abscissaeOk covers.k.toNat covers.shareId) ∧
    ∀ b < covers.blocks, covers.blockIs (fun i q => covers.carriedByte (covers.selAt i) q) b [10, 20, 30] [181, 111, 40] ∧
      ∃ r < 251, blinds [10, 20, 30] [181, 111, 40] r := by
  refine ⟨small_schemes_ok.2.2.1, small_schemes_ok.2.2.2.1, small_schemes_ok.2.2.2.2.2, fun _ => shareIds_ok.2.2.2,
    fun b hb => ?_⟩
  rw [small_schemes_ok.2.2.2.2.1, Nat.lt_one_iff] at hb
  subst hb
  exact ⟨shares_are.2.2.2.2, 7, by decide, shares_are.2.2.1⟩

/-- `covers` with one pixel of the second cover changed, so that it carries 111 for 110 as in V-DEC-3. -/
def tamperedCovers : State := covers.storeByte .cover 1 1 15#8

theorem tamperedCovers_ok : tamperedCovers.schemeOk ∧ tamperedCovers.selectionOk ∧
    (∀ i < tamperedCovers.k.toNat, tamperedCovers.capacityOk (tamperedCovers.selAt i)) ∧ 0 < tamperedCovers.blocks ∧
    tamperedCovers.blockIs (fun i q => tamperedCovers.carriedByte (tamperedCovers.selAt i) q) 0 [9, 24, 27]
      [181, 111, 40] := by
  unfold State.schemeOk State.kOk State.sizeOk State.divOk State.selectionOk State.participantsOk State.selLoaded
    State.dimsAgree State.capacityOk State.blockIs State.passes
  decide +kernel

/-- RecoverReportsTheLowestForgedBlock, at block 0. -/
theorem witness_forged_covers : tamperedCovers.schemeOk ∧ tamperedCovers.selectionOk ∧
    (∀ i < tamperedCovers.k.toNat, tamperedCovers.capacityOk (tamperedCovers.selAt i)) ∧ 0 < tamperedCovers.blocks ∧
    abscissaeOk tamperedCovers.k.toNat tamperedCovers.shareId ∧
    (∀ b' ≤ 0, tamperedCovers.blockIs (fun i q => tamperedCovers.carriedByte (tamperedCovers.selAt i) q) b' [9, 24, 27]
      [181, 111, 40]) ∧
    (∀ b' < 0, ∃ r < 251, blinds [9, 24, 27] [181, 111, 40] r) ∧ ∀ r < 251, ¬ blinds [9, 24, 27] [181, 111, 40] r := by
  refine ⟨tamperedCovers_ok.1, tamperedCovers_ok.2.1, tamperedCovers_ok.2.2.1, tamperedCovers_ok.2.2.2.1,
    ⟨by decide +kernel, fun i h => ?_⟩, fun b hb => ?_, fun b hb => absurd hb (by omega), shares_are.2.2.2.1⟩
  · have : i < 2 := by have : tamperedCovers.k.toNat = 3 := rfl
                       omega
    interval_cases i <;> decide +kernel
  · rw [Nat.le_zero] at hb
    subst hb
    exact tamperedCovers_ok.2.2.2.2

/-- EncodeThenDecodeRestoresThePlane, DistributeThenRecoverRestoresThePlane, with eight participants in reverse. -/
theorem witness_round_trip : schemeL.inv ∧ schemeL.schemeOk ∧ schemeL.selectionOk ∧
    (∀ slot < schemeL.n.toNat, schemeL.capacityOk slot) ∧
    (∀ i < schemeL.k.toNat, ∀ j < schemeL.k.toNat, j ≠ i → schemeL.selAt j ≠ schemeL.selAt i) ∧
    ∀ i < schemeL.k.toNat, (schemeL.slotRegs (schemeL.selAt i)).cid = BitVec.ofNat 8 (schemeL.selAt i + 1) :=
  ⟨schemeL_ok.2.2.1, schemeL_ok.1, schemeL_ok.2.1, capacity_exact.2.2.1, by decide +kernel, by decide +kernel⟩

/-- SchemeChecksReportInOrder: `K` 2 and 9; one pixel more than SECRET holds; a part of a block. -/
theorem witness_scheme_checks : 7 < s0.params.nMax.val ∧ ¬ (scheme 2#8 3#8 4#32).kOk ∧ ¬ (scheme 9#8 3#8 4#32).kOk ∧
    ((scheme 3#8 3#8 15#32).kOk ∧ ¬ (scheme 3#8 3#8 15#32).sizeOk) ∧
    ((scheme 8#8 8#8 13#32).kOk ∧ (scheme 8#8 8#8 13#32).sizeOk ∧ ¬ (scheme 8#8 8#8 13#32).divOk) := by
  unfold State.kOk State.sizeOk State.divOk
  decide

/-- CoverChecksReportInOrder: `N = K - 1` and `N_MAX + 1`; a selected slot `N`; one cover of another height. -/
theorem witness_cover_checks : (scheme 3#8 2#8 4#32).schemeOk ∧ ¬ (scheme 3#8 2#8 4#32).participantsOk ∧
    (scheme 3#8 9#8 4#32).schemeOk ∧ ¬ (scheme 3#8 9#8 4#32).participantsOk ∧
    (let s := { scheme 3#8 3#8 4#32 with sel := s0.sel.set 2 3#8 };
      s.schemeOk ∧ s.participantsOk ∧ ¬ s.selLoaded) ∧
    (let s := { scheme 3#8 3#8 4#32 with
        slots := [Slot.zero, Slot.zero, { Slot.zero with ch := 1#16 }] ++ List.replicate 5 Slot.zero };
      s.schemeOk ∧ s.participantsOk ∧ s.selLoaded ∧ ¬ s.dimsAgree) := by
  unfold State.schemeOk State.kOk State.sizeOk State.divOk State.participantsOk State.selLoaded State.dimsAgree
  decide

/-- CapacityBlockAndSlotChecks: the last cover one pixel too small, or one past `COVER_DEPTH`; the first block that
does not exist; the first slot that does not. -/
theorem witness_last_checks :
    (let s := slotted (scheme 3#8 3#8 8#32) 3 7#16 1#16;
      s.schemeOk ∧ s.participantsOk ∧ s.selectionOk ∧ (∃ slot < s.n.toNat, ¬ s.capacityOk slot) ∧
        ∃ i < s.k.toNat, ¬ s.capacityOk (s.selAt i)) ∧
    (let s := slotted (scheme 3#8 3#8 8#32) 3 9#16 1#16;
      s.schemeOk ∧ s.participantsOk ∧ s.selectionOk ∧ (∃ slot < s.n.toNat, ¬ s.capacityOk slot) ∧ ¬ s.capacityOk 2) ∧
    (let s := { schemeS with blk := 2#32 };
      s.schemeOk ∧ s.selectionOk ∧ s.blocks ≤ s.blk.toNat) ∧
    s0.params.nMax.val ≤ 8 := by
  unfold State.schemeOk State.kOk State.sizeOk State.divOk State.selectionOk State.participantsOk State.selLoaded
    State.dimsAgree State.capacityOk
  decide +kernel

/-- FieldRegisterWritesNormalise, PlainRegisterWritesStoreTheWord, HostReadsReturnTheRegister,
SlotRegistersFollowTheSelectedSlot: at each index named, and at both ends of each group, the event stands pending. -/
theorem witness_host_events :
    (∀ idx ∈ [0x08#8, 0x09#8, 0x30#8, 0x37#8, 0x38#8, 0x3F#8, 0x40#8, 0x47#8, 0x50#8, 0x57#8, 0x0A#8, 0x10#8, 0x11#8,
        0x12#8, 0x13#8, 0x18#8, 0x19#8, 0x28#8, 0x20#8, 0x27#8, 0x1A#8, 0x1B#8, 0x1C#8, 0x1D#8],
      (host (.write idx 0x80000000#32)).pending = .write idx 0x80000000#32 :: [] ∧
        (host (.read idx)).pending = .read idx :: []) ∧
    (0x30#8 + BitVec.ofNat 8 (7 : Fin 8).val = 0x37#8) ∧ s0.pending = [] := by decide

/-- CoefficientWritesStopAtTheLength: below the length and at it, in either bank. -/
theorem witness_coefficients : (2 : Fin 8).val < (banks [1, 2, 3] [4]).p0.len.toNat ∧
    (banks [1, 2, 3] [4]).p0.len.toNat ≤ (3 : Fin 8).val ∧ (0 : Fin 8).val < (banks [1, 2, 3] [4]).p1.len.toNat ∧
    (banks [1, 2, 3] [4]).p1.len.toNat ≤ (1 : Fin 8).val ∧
    { banks [1, 2, 3] [4] with pending := [.write 0x42#8 5#32] }.pending =
      .write (0x40#8 + BitVec.ofNat 8 (2 : Fin 8).val) 5#32 :: [] := by decide

/-- ReadOnlyAndUnmappedIndicesIgnoreWrites: the ends of each range. -/
theorem witness_unmapped :
    (∀ i ∈ [0x06, 0x07, 0x0C, 0x0F, 0x16, 0x17, 0x1E, 0x1F, 0x29, 0x2F, 0x49, 0x4F, 0x59, 0xFF],
      i = 0x06 ∨ i = 0x07 ∨ (0x0C ≤ i ∧ i ≤ 0x0F) ∨ i = 0x16 ∨ i = 0x17 ∨ i = 0x1E ∨ i = 0x1F ∨
        (0x29 ≤ i ∧ i ≤ 0x2F) ∨ (0x49 ≤ i ∧ i ≤ 0x4F) ∨ 0x59 ≤ i) ∧
    (host (.write 0xFF#8 1#32)).pending = .write 0xFF#8 1#32 :: [] ∧
    (host (.read 0x59#8)).pending = .read 0x59#8 :: [] := by decide

/-- `s0` with the memory window on a location, and one event pending. -/
def window (msel : BitVec 16) (maddr : Word) (op : HostOp) : State :=
  { s0 with msel := msel, maddr := maddr, pending := [op] }

/-- WindowAccessesTheSelectedByte: the last byte of each memory, in the last slot. -/
theorem witness_window :
    (∀ p ∈ [(0xFF00#16, Space.secret, 13), (0x0701#16, .shadow, 6), (0x0702#16, .cover, 7)],
      let s := window p.1 (BitVec.ofNat 32 p.2.2) (.read 0x1A#8)
      s.msel.toNat % 4 = p.2.1.code ∧ inRange s.params p.2.1 (s.msel.toNat / 256) s.maddr.toNat = true ∧
        s.pending = .read 0x1A#8 :: []) ∧
    (window 0x0702#16 7#32 (.write 0x1A#8 1#32)).pending = .write 0x1A#8 1#32 :: [] := by decide

/-- WindowOutOfRangeStoresNothingAndReadsZero: no memory selected, the first byte that does not exist of each memory,
and the first slot that does not. -/
theorem witness_no_window : (window 0x0003#16 0#32 (.read 0x1A#8)).msel.toNat % 4 = 3 ∧
    ∀ p ∈ [(0x0000#16, Space.secret, 14), (0x0701#16, .shadow, 7), (0x0702#16, .cover, 8), (0x0801#16, .shadow, 0),
        (0x0802#16, .cover, 0)],
      let s := window p.1 (BitVec.ofNat 32 p.2.2) (.write 0x1A#8 1#32)
      s.msel.toNat % 4 = p.2.1.code ∧ inRange s.params p.2.1 (s.msel.toNat / 256) s.maddr.toNat = false ∧
        s.pending = .write 0x1A#8 1#32 :: [] := by decide

/-- SlotRegistersFollowTheSelectedSlot: the last slot and the first that does not exist. -/
theorem witness_slots : (window 0x0700#16 0#32 (.read 0x1C#8)).msel.toNat / 256 < s0.params.nMax.val ∧
    s0.params.nMax.val ≤ (window 0x0800#16 0#32 (.read 0x1C#8)).msel.toNat / 256 ∧
    (window 0x0800#16 0#32 (.read 0x1C#8)).pending = .read 0x1C#8 :: [] := by decide

end Sys2Proof.Tests
end

section
/-! PROOFS. The statements about the state (10_state.md): what every command keeps, that every step keeps the invariant,
what `DISTRIBUTE` writes, the draw port, and what a host access to each register does. -/

namespace Sys2Proof.Machine

/-! ## What every command keeps -/

/-- `s` with every register that some command writes taken from `u`, but for the error record and the draw port (R50). -/
def State.withResults (s u : State) : State :=
  { s with
    flagEq := u.flagEq
    r := u.r
    outw := u.outw
    outh := u.outh
    p0 := u.p0
    p1 := u.p1
    slots := u.slots
    mem := u.mem }

/-- What the commit of a command, `CLRERR` apart, keeps of the state from which it starts, once its draws are taken. -/
structure State.Keeps (s u : State) : Prop where
  registers : u = s.withResults u
  slotCount : u.slots.length = s.slots.length
  slotDims : ∀ slot, (u.slotRegs slot).cw = (s.slotRegs slot).cw ∧ (u.slotRegs slot).ch = (s.slotRegs slot).ch
  memory : s.mem.wf → u.mem.wf
  banks : s.p0.wf → s.p1.wf → u.p0.wf ∧ u.p1.wf

namespace State.Keeps

theorem refl (s : State) : s.Keeps s := ⟨rfl, rfl, fun _ => ⟨rfl, rfl⟩, id, .intro⟩

theorem trans {s u v : State} (h : s.Keeps u) (h' : u.Keeps v) : s.Keeps v where
  registers := h'.registers.trans (congrArg (·.withResults v) h.registers)
  slotCount := h'.slotCount.trans h.slotCount
  slotDims slot := ⟨(h'.slotDims slot).1.trans (h.slotDims slot).1, (h'.slotDims slot).2.trans (h.slotDims slot).2⟩
  memory := h'.memory ∘ h.memory
  banks hp hq := have ⟨hp', hq'⟩ := h.banks hp hq; h'.banks hp' hq'

/-- What each of several updates in turn keeps, all of them keep. -/
theorem foldl {α : Type} {f : State → α → State} (hf : ∀ (s : State) a, s.Keeps (f s a)) (l : List α) (s : State) :
    s.Keeps (l.foldl f s) := by
  induction l generalizing s with
  | nil => exact refl s
  | cons a l ih => exact (hf s a).trans (ih (f s a))

theorem withR (s : State) (v : FE) : s.Keeps (s.withR v) := ⟨rfl, rfl, fun _ => ⟨rfl, rfl⟩, id, .intro⟩

theorem withEq (s : State) (v : Bool) : s.Keeps (s.withEq v) := ⟨rfl, rfl, fun _ => ⟨rfl, rfl⟩, id, .intro⟩

theorem withOut (s : State) (w h : BitVec 16) : s.Keeps (s.withOut w h) :=
  ⟨rfl, rfl, fun _ => ⟨rfl, rfl⟩, id, .intro⟩

theorem withP0 (s : State) {p : Bank} (hp : p.wf) : s.Keeps (s.withP0 p) :=
  ⟨rfl, rfl, fun _ => ⟨rfl, rfl⟩, id, fun _ hq => ⟨hp, hq⟩⟩

theorem withP1 (s : State) {p : Bank} (hp : p.wf) : s.Keeps (s.withP1 p) :=
  ⟨rfl, rfl, fun _ => ⟨rfl, rfl⟩, id, fun hq _ => ⟨hq, hp⟩⟩

theorem withBank (s : State) (b : Nat) {p : Bank} (hp : p.wf) : s.Keeps (s.withBank b p) := by
  rw [State.withBank]
  split
  · exact withP0 s hp
  · exact withP1 s hp

theorem fill (s : State) (sp : Space) (slot : Nat) (bytes : List Byte) : s.Keeps (s.fill sp slot bytes) :=
  ⟨rfl, rfl, fun _ => ⟨rfl, rfl⟩, fun hm => splice_wf hm _ _, .intro⟩

/-- Writing an identifier leaves the dimensions of every cover (R44). -/
theorem withCid (s : State) (i : Nat) (v : Byte) : s.Keeps (s.withCid i v) where
  registers := rfl
  slotCount := List.length_modify ..
  slotDims slot := by
    simp only [State.slotRegs, State.withCid, State.updateSlot, List.getD_eq_getElem?_getD, List.getElem?_modify]
    by_cases hi : i = slot <;> cases s.slots[slot]? <;> simp [hi]
  memory := id
  banks := .intro

theorem embedSlot (s : State) (slot : Nat) : s.Keeps (s.embedSlot slot) := (fill ..).trans (withCid ..)

theorem encodeAll (s : State) : (s.withDrawPort (DrawPort.drawMany s.numBlocks s.drawPort).2).Keeps s.encodeAll :=
  foldl (fun t _ => fill t ..) _ _

theorem storeShadows (s : State) (shadows : List (List Byte)) (i : Nat) : s.Keeps (s.storeShadows shadows i) := by
  induction shadows generalizing s i with
  | nil => exact refl _
  | cons sh rest ih => exact (fill ..).trans (ih ..)

theorem commitPlane (s : State) (plane : List FE) : s.Keeps (s.commitPlane plane) := (fill ..).trans (withOut ..)

end State.Keeps

/-- What every commit but that of `CLRERR` keeps, once the draws of the command are taken (R45, R50). -/
theorem committed_keeps {i : Instr} {s u : State} (h : committed i s u) (hi : i ≠ .clrerr) :
    (s.withDrawPort (DrawPort.drawMany (drawsTaken i s) s.drawPort).2).Keeps u := by
  have loaded (hs : s.schemeOk) (cs : List FE) : (Bank.load s.k.toNat cs).wf :=
    Bank.load_wf (by have := hs.1.1; omega) hs.1.2 cs
  cases i with
  | nop => subst h; exact .refl _
  | clrerr => exact absurd rfl hi
  | fadd => subst h; exact .withR s _
  | fsub => subst h; exact .withR s _
  | fmul => subst h; exact .withR s _
  | fdiv => obtain ⟨_, -, rfl⟩ := h; exact .withR s _
  | fpow => subst h; exact .withR s _
  | finv => obtain ⟨-, rfl⟩ := h; exact .withR s _
  | feq => subst h; exact .withEq s _
  | pnew bank len => obtain ⟨-, h1, h8, rfl⟩ := h; exact .withBank s _ (Bank.load_wf h1 h8 _)
  | peval bank => obtain ⟨-, rfl⟩ := h; exact .withR s _
  | peq => subst h; exact .withEq s _
  | lag0 j top => obtain ⟨-, -, -, _, -, rfl⟩ := h; exact .withR s _
  | pinterp bank => obtain ⟨-, h1, h8, -, _, -, rfl⟩ := h; exact .withBank s _ (Bank.load_wf h1 h8 _)
  | blkbuild =>
    obtain ⟨hs, -, rfl⟩ := h
    exact ((State.Keeps.withP0 _ (loaded hs _)).trans (.withP1 _ (loaded hs _))).trans (.withR _ _)
  | encode => obtain ⟨-, -, rfl⟩ := h; exact .encodeAll s
  | distribute => obtain ⟨-, -, -, rfl⟩ := h; exact (State.Keeps.encodeAll s).trans (.foldl .embedSlot _ _)
  | blkinterp =>
    obtain ⟨hs, -, -, _, -, rfl⟩ := h
    exact (State.Keeps.withP0 s (loaded hs _)).trans (.withP1 _ (loaded hs _))
  | cheat => obtain ⟨-, -, _, -, rfl⟩ := h; exact .withR s _
  | decode => obtain ⟨-, -, _, -, rfl⟩ := h; exact .commitPlane s _
  | recover => obtain ⟨-, -, -, _, -, rfl⟩ := h; exact (State.Keeps.storeShadows s _ _).trans (.commitPlane _ _)
  | embed slot => obtain ⟨-, -, -, rfl⟩ := h; exact .embedSlot s slot
  | extract slot => obtain ⟨-, -, -, rfl⟩ := h; exact .fill s ..

/-- The three ways a command ends: it raises and writes the error record alone (R262), it is `CLRERR`, or it takes its
draws, writes registers of results and leaves outcome 0. -/
theorem exec_ends {i : Instr} {s t : State} (h : exec i s = .next t) :
    (∃ trap, t = s.raise trap) ∨ (i = .clrerr ∧ t = s.clearErrors.succeed) ∨
      ∃ u, (s.withDrawPort (DrawPort.drawMany (drawsTaken i s) s.drawPort).2).Keeps u ∧ t = u.succeed := by
  rcases exec_cases h with ⟨trap, -, -, rfl⟩ | ⟨u, hu, rfl⟩
  · exact .inl ⟨trap, rfl⟩
  · by_cases hi : i = .clrerr
    · subst hi
      cases hu
      exact .inr (.inl ⟨rfl, rfl⟩)
    · exact .inr (.inr ⟨u, committed_keeps hu hi, rfl⟩)

theorem State.raise_err_ne_zero (s : State) (t : Trap) : (s.raise t).err ≠ 0#3 := by
  cases t <;> simp [Trap.code]

/-! ## The invariant -/

/-- Raising keeps the invariant: the code is up to 4, and its bit of `ESTICKY` is the one set (R26, R27). -/
theorem State.raise_inv {s : State} (h : s.inv) (t : Trap) : (s.raise t).inv := by
  obtain ⟨hm, hs, hp, hq, -, h0, -, hsel⟩ := h
  refine ⟨hm, hs, hp, hq, ?_, ?_, fun _ => ?_, hsel⟩
  · cases t <;> simp [Trap.code]
  · rw [State.raise_esticky, BitVec.getLsbD_or, h0]
    cases t <;> simp [Trap.code]
  · cases t <;> simp [Trap.code]

/-- Ending with outcome 0 keeps the invariant, if `ESTICKY` bit 0 is still 0. -/
theorem State.succeed_inv {s : State} (hm : s.mem.wf) (hs : s.slots.length = s.params.nMax.val) (hp : s.p0.wf)
    (hq : s.p1.wf) (h0 : s.esticky.getLsbD 0 = false) (hsel : s.msel &&& 0x00FC#16 = 0#16) : s.succeed.inv :=
  ⟨hm, hs, hp, hq, by simp, h0, fun h => absurd rfl h, hsel⟩

/-- Every command keeps the invariant. -/
theorem exec_inv {i : Instr} {s t : State} (hi : s.inv) (h : exec i s = .next t) : t.inv := by
  rcases exec_ends h with ⟨trap, rfl⟩ | ⟨-, rfl⟩ | ⟨u, hu, rfl⟩
  · exact State.raise_inv hi trap
  · obtain ⟨hm, hs, hp, hq, -, -, -, hsel⟩ := hi
    exact State.succeed_inv hm hs hp hq (by simp) hsel
  · obtain ⟨hm, hs, hp, hq, -, h0, -, hsel⟩ := hi
    obtain ⟨hp', hq'⟩ := hu.banks hp hq
    refine State.succeed_inv (hu.memory hm) (hu.slotCount.trans ?_) hp' hq' ?_ ?_ <;> rw [hu.registers]
    · exact hs
    · exact h0
    · exact hsel

theorem Bank.zero_wf : Bank.zero.wf := by decide

/-- The reset event leaves the invariant, whatever the state before it (R300). -/
theorem State.resetEvent_inv (s : State) : s.resetEvent.inv :=
  ⟨.nil, List.length_replicate, Bank.zero_wf, Bank.zero_wf, Nat.zero_le 4, BitVec.getLsbD_zero, fun h => absurd rfl h,
    BitVec.zero_and⟩

/-- A read writes `MADDR` and the word read at most. -/
theorem State.hostRead_inv {s : State} (h : s.inv) (i : Nat) : (s.hostRead i).inv := by
  rw [State.hostRead]
  split <;> exact h

/-- A host write below the length leaves the coefficients from the length on at 0 (R40). -/
theorem Bank.writeCoeff_wf {p : Bank} (h : p.wf) (j : Nat) (v : FE) : (p.writeCoeff j v).wf := by
  rw [Bank.writeCoeff]
  split
  · next hj =>
    obtain ⟨h1, h8, hz⟩ := h
    refine ⟨h1, h8, fun i hi (hle : p.len.toNat ≤ i) => ?_⟩
    have hne : j ≠ i := by omega
    have := hz i hi hle
    simpa [elem, List.getElem?_set, Vector.toList_setIfInBounds, hne] using this
  · exact h

/-- The bits of `MSEL` that are no field are never stored (R41). -/
theorem mselOf_and (w : Word) : mselOf w &&& 0x00FC#16 = 0#16 := by
  rw [mselOf, BitVec.and_assoc]
  exact BitVec.and_zero

theorem State.windowWrite_inv {s : State} (h : s.inv) (w : Word) : (s.windowWrite w).inv := by
  obtain ⟨hm, hrest⟩ := h
  rw [State.windowWrite]
  split
  · exact ⟨splice_wf hm _ _, hrest⟩
  · exact ⟨hm, hrest⟩

theorem State.writeSlot_inv {s : State} (h : s.inv) (f : Slot → Slot) : (s.writeSlot f).inv := by
  obtain ⟨hm, hs, hrest⟩ := h
  rw [State.writeSlot]
  split
  · exact ⟨hm, (List.length_modify ..).trans hs, hrest⟩
  · exact ⟨hm, hs, hrest⟩

/-- A host write of any register but `CMD` keeps the invariant: only banks, `MSEL`, the window and the slot registers
bear on it. -/
theorem State.writeReg_inv {s : State} (h : s.inv) (i : Nat) (w : Word) : (s.writeReg i w).inv := by
  have ⟨hm, hs, hp, hq, he, h0, hb, hsel⟩ := h
  unfold State.writeReg
  split_ifs
  · exact h
  · exact h
  · exact h
  · exact ⟨hm, hs, Bank.writeCoeff_wf hp _ _, hq, he, h0, hb, hsel⟩
  · exact ⟨hm, hs, hp, Bank.writeCoeff_wf hq _ _, he, h0, hb, hsel⟩
  · split
    case h_8 => -- `MSEL`
      exact ⟨hm, hs, hp, hq, he, h0, hb, mselOf_and w⟩
    case h_10 => -- `MDATA`
      exact State.windowWrite_inv h w
    case h_11 => -- `CID`
      exact State.writeSlot_inv h _
    case h_12 => -- `CW`
      exact State.writeSlot_inv h _
    case h_13 => -- `CH`
      exact State.writeSlot_inv h _
    all_goals exact h

/-- Settles O16: each kind of step keeps the invariant, or, for a reset, establishes it. -/
theorem everyStepKeepsTheInvariant : Obligations.EveryStepKeepsTheInvariant := by
  intro s t hi h
  rcases step_cases h with ⟨-, rfl⟩ | ⟨rest, ⟨-, rfl⟩ | ⟨idx, -, rfl⟩ | ⟨idx, w, -, -, rfl⟩ | ⟨idx, w, -, -, hc⟩⟩
  · exact hi
  · exact State.resetEvent_inv _
  · exact State.hostRead_inv (s := { s with pending := rest }) hi _
  · exact State.writeReg_inv (s := { s with pending := rest }) hi _ w
  · rcases hc with ⟨_, -, rfl⟩ | ⟨i, -, hx⟩
    · exact State.raise_inv (s := { s with pending := rest, cmd := w }) hi _
    · exact exec_inv (s := { s with pending := rest, cmd := w }) hi hx

/-! ## What commands leave alone -/

/-- Settles O8: of the three ways a command ends, one raises, one is `CLRERR`, and the third keeps the error record. -/
theorem successfulCommandKeepsTheErrorRecord : Obligations.SuccessfulCommandKeepsTheErrorRecord := by
  intro i s t h h0 hi
  rcases exec_ends h with ⟨trap, rfl⟩ | ⟨hc, -⟩ | ⟨u, hu, rfl⟩
  · exact absurd h0 (s.raise_err_ne_zero trap)
  · exact absurd hc hi
  · rw [hu.registers]
    exact ⟨rfl, rfl⟩

/-- Settles O11: a raise and `CLRERR` leave the port, every other end stands after the command's draws. -/
theorem drawsAreTakenOnlyByTheEncoder : Obligations.DrawsAreTakenOnlyByTheEncoder := by
  intro i s t h
  rcases exec_ends h with ⟨trap, rfl⟩ | ⟨rfl, rfl⟩ | ⟨u, hu, rfl⟩
  · rw [if_neg (s.raise_err_ne_zero trap)]
    rfl
  · rfl
  · rw [State.succeed_err, if_pos rfl, State.succeed_drawPort, hu.registers]
    rfl

/-- Settles O13: no host register is among the registers of results. -/
theorem commandsLeaveHostRegistersAlone : Obligations.CommandsLeaveHostRegistersAlone := by
  intro i s t h
  rcases exec_ends h with ⟨trap, rfl⟩ | ⟨-, rfl⟩ | ⟨u, hu, rfl⟩
  · simp
  · simp
  · have hdims : ∀ slot, (u.succeed.slotRegs slot).cw = (s.slotRegs slot).cw ∧
        (u.succeed.slotRegs slot).ch = (s.slotRegs slot).ch := hu.slotDims
    refine ⟨?_, ?_, hdims, ?_⟩ <;> rw [hu.registers] <;> simp [State.withResults]

/-! ## Distribution -/

/-- A slot that does not exist has the registers of reset. -/
theorem State.slotRegs_of_length_le {s : State} {slot : Nat} (h : s.slots.length ≤ slot) :
    s.slotRegs slot = Slot.zero := by
  rw [State.slotRegs, List.getD_eq_getElem?_getD, List.getElem?_eq_none h, Option.getD_none]

/-- Embedding the slots below `n` leaves the identifiers of the others (R182). -/
theorem State.embedSlots_cid_of_le (s : State) {n slot : Nat} (h : n ≤ slot) :
    ((s.embedSlots n).slotRegs slot).cid = (s.slotRegs slot).cid := by
  obtain ⟨-, hlen, hslots⟩ := s.embedSlots_registers n
  rcases Nat.lt_or_ge slot s.slots.length with hlt | hge
  · rw [(hslots slot).2.2 hlt, if_neg (by omega)]
  · rw [State.slotRegs_of_length_le hge, State.slotRegs_of_length_le (hlen ▸ hge)]

section
variable {s : State} (h : s.schemeOk) (hp : s.participantsOk)
include h hp

/-- What encoding and then embedding every participant's slot does to every byte: the covers in use are packed from the
encoded state, every other byte is as encoding left it (R182). -/
theorem State.distributed_byteAt (hc : s.coverUsed ≤ s.params.coverDepth.val) {sp : Space} {slot i : Nat}
    (hr : inRange s.params sp slot i = true) :
    (s.encodeAll.embedSlots s.n.toNat).byteAt sp slot i =
      if sp = .cover ∧ slot < s.n.toNat ∧ i < s.coverUsed then s.encodeAll.packedByte slot i
      else s.encodeAll.byteAt sp slot i := by
  obtain ⟨he, -⟩ := State.encodeAll_spec h hp
  have hpar : s.encodeAll.params = s.params := by rw [he]
  have hused : s.encodeAll.coverUsed = s.coverUsed := by rw [he]; rfl
  have hlen : s.encodeAll.shadowLen = s.shadowBytes := by rw [he]; exact State.shadowLen_eq h.1 h.2.2
  have hbytes := (State.embedSlots_bytes (s := s.encodeAll) s.n.toNat (hpar ▸ hp.2) (by rw [hused, hpar]; exact hc)
    (by rw [hlen, hpar]; exact State.shadowBytes_le h)).2.2
  rw [hpar, hused] at hbytes
  exact hbytes sp slot i hr

/-- Encoding writes no cover (R177, R181). -/
theorem State.encodeAll_cover {slot i : Nat} (hr : inRange s.params .cover slot i = true) :
    s.encodeAll.byteAt .cover slot i = s.byteAt .cover slot i := by
  rw [(State.encodeAll_spec h hp).2.2.2 _ _ _ hr, if_neg (by simp)]

/-- The pixel that carries group `g` of byte `q` of a shadow, after distribution (R182, R233). -/
theorem State.distributed_cover {slot q g : Nat} (hs : slot < s.n.toNat) (hc : s.capacityOk slot)
    (hq : q < s.shadowBytes) (hg : g < s.pixelsPerByte) :
    ((s.encodeAll.embedSlots s.n.toNat).byteAt .cover slot (q * s.pixelsPerByte + g)).toNat =
      (s.byteAt .cover slot (q * s.pixelsPerByte + g)).toNat / 2 ^ s.bitsPerPixel * 2 ^ s.bitsPerPixel +
        ((s.encodeAll.embedSlots s.n.toNat).byteAt .shadow slot q).toNat /
          2 ^ (8 - s.bitsPerPixel * (g + 1)) % 2 ^ s.bitsPerPixel := by
  obtain ⟨he, -⟩ := State.encodeAll_spec h hp
  have hcap := State.coverUsed_le h hc
  have hnMax := hp.2
  have hidx : q * s.pixelsPerByte + g < s.coverUsed := by
    have : (q + 1) * s.pixelsPerByte ≤ s.shadowBytes * s.pixelsPerByte := Nat.mul_le_mul_right _ hq
    rw [State.coverUsed_eq h]
    rw [Nat.add_mul, Nat.one_mul] at this
    omega
  have hcover : inRange s.params .cover slot (q * s.pixelsPerByte + g) = true := by rw [inRange_cover]; omega
  have hshadow : inRange s.params .shadow slot q = true := by
    have := State.shadowBytes_le h
    rw [inRange_shadow]
    omega
  have hw : s.encodeAll.groupWidth = s.bitsPerPixel := by rw [he]; exact State.groupWidth_eq h.1
  have hgpb : s.encodeAll.groupsPerByte = s.pixelsPerByte := by rw [he]; exact State.groupsPerByte_eq h.1
  have hdiv : (q * s.pixelsPerByte + g) / s.pixelsPerByte = q := by
    rw [Nat.mul_comm, Nat.mul_add_div (by omega), Nat.div_eq_of_lt hg, Nat.add_zero]
  have hmod : (q * s.pixelsPerByte + g) % s.pixelsPerByte = g := by
    rw [Nat.mul_comm, Nat.mul_add_mod, Nat.mod_eq_of_lt hg]
  rw [State.distributed_byteAt h hp hcap hcover, if_pos ⟨rfl, hs, hidx⟩, State.distributed_byteAt h hp hcap hshadow,
    if_neg (by simp), State.packedByte_toNat, hw, hgpb, hdiv, hmod, State.encodeAll_cover h hp hcover]

end

/-- Settles O36: `DISTRIBUTE` is encoding and then embedding, byte by byte. -/
theorem distributeWritesShadowsAndCovers : Obligations.DistributeWritesShadowsAndCovers := by
  intro s h hp hcap drawn
  have hrun : exec .distribute s = .next (s.encodeAll.embedSlots s.n.toNat).succeed :=
    exec_of_committed ⟨h, hp, hcap, rfl⟩
  obtain ⟨he, -, -, hencoded⟩ := State.encodeAll_spec h hp
  obtain ⟨hregs, -, hslots⟩ := s.encodeAll.embedSlots_registers s.n.toNat
  have hslotRegs : ∀ slot, s.encodeAll.slotRegs slot = s.slotRegs slot := fun slot => by rw [he]; rfl
  have hpos : 0 < s.n.toNat := by
    have := h.1.1
    have := hp.1
    omega
  have hused : s.coverUsed ≤ s.params.coverDepth.val := State.coverUsed_le h (hcap 0 hpos)
  refine ⟨_, hrun, ?_, fun slot => ?_, fun slot hs b hb => ?_,
    fun slot hs q hq g hg => State.distributed_cover h hp hs (hcap slot hs) hq hg,
    fun sp slot i hr hshadow hcover => ?_⟩
  · have hall := hregs.trans (congrArg (fun e : State => { e with
      mem := (s.encodeAll.embedSlots s.n.toNat).mem
      slots := (s.encodeAll.embedSlots s.n.toNat).slots }) he)
    exact congrArg State.succeed hall
  · rw [← hslotRegs slot]
    exact ⟨(hslots slot).1, (hslots slot).2.1, s.encodeAll.embedSlots_cid_of_le⟩
  · have hr : ∀ i < 2 * s.blocks, inRange s.params .shadow slot i = true := fun i hi => by
      have := State.shadowBytes_le h
      rw [State.shadowBytes_eq h] at this
      have := hp.2
      rw [inRange_shadow]
      omega
    obtain ⟨hf, hg⟩ := State.encodeAll_shadow h hp hs hb
    rw [← hf, ← hg, State.succeed_byteAt, State.succeed_byteAt,
      State.distributed_byteAt h hp hused (hr (2 * b) (by omega)),
      State.distributed_byteAt h hp hused (hr (2 * b + 1) (by omega)), if_neg (by simp), if_neg (by simp)]
    exact ⟨rfl, rfl⟩
  · rw [← State.coverUsed_eq h] at hcover
    rw [State.shadowBytes_eq h] at hshadow
    rw [State.succeed_byteAt, State.distributed_byteAt h hp hused hr, if_neg hcover, hencoded sp slot i hr,
      if_neg hshadow]

/-! ## The draw port -/

/-- A queued byte in `[1, 250]` is the next draw (R45). -/
theorem DrawPort.draw_valid {v : Byte} (h : 1 ≤ v.toNat ∧ v.toNat ≤ 250) (rest : List Byte) (taken : Nat) :
    DrawPort.draw { queued := v :: rest, taken := taken } = (normByte v, { queued := rest, taken := taken + 1 }) := by
  have hv : isDraw v = true := by simp [isDraw, h]
  simp [DrawPort.draw, hv]

/-- A queued byte outside that range is dropped (R45). -/
theorem DrawPort.draw_discards {v : Byte} (h : v.toNat = 0 ∨ 250 < v.toNat) (rest : List Byte) (taken : Nat) :
    DrawPort.draw { queued := v :: rest, taken := taken } = DrawPort.draw { queued := rest, taken := taken } := by
  have hv : isDraw v = false := by
    rw [isDraw, Bool.and_eq_false_iff, decide_eq_false_iff_not, decide_eq_false_iff_not]
    omega
  simp [DrawPort.draw, hv]

/-- Queued draws are delivered in their order, by induction on the queue. -/
theorem DrawPort.drawMany_valid (vs rest : List Byte) (taken : Nat) (h : ∀ v ∈ vs, 1 ≤ v.toNat ∧ v.toNat ≤ 250) :
    DrawPort.drawMany vs.length { queued := vs ++ rest, taken := taken } =
      (vs.map normByte, { queued := rest, taken := taken + vs.length }) := by
  induction vs generalizing taken with
  | nil => rfl
  | cons v vs ih =>
    obtain ⟨hv, hvs⟩ := List.forall_mem_cons.mp h
    rw [List.length_cons, List.cons_append, DrawPort.drawMany, DrawPort.draw_valid hv, ih _ hvs, List.map_cons,
      Nat.add_right_comm, Nat.add_assoc]

/-- Settles O12. -/
theorem drawPortDeliversValidBytesInOrder : Obligations.DrawPortDeliversValidBytesInOrder := by
  refine ⟨fun vs rest taken h => ?_, fun v rest taken h => DrawPort.draw_discards h rest taken, DrawPort.draw_range⟩
  rw [DrawPort.drawMany_valid vs rest taken h]
  refine ⟨?_, rfl⟩
  rw [List.map_map]
  refine List.map_congr_left fun v hv => ?_
  rw [Function.comp_apply, normByte_val, Nat.mod_eq_of_lt (by have := h v hv; omega)]

/-! ## Host writes -/

/-- A write of a word to one of eight registers is that of the register's own index (R23). -/
theorem step_write_group {s : State} {base : Byte} {w : Word} {rest : List HostOp} {i : Fin 8}
    (hp : s.pending = .write (base + BitVec.ofNat 8 i.val) w :: rest) (hb : base.toNat + 8 ≤ 256)
    (h1 : 1 < base.toNat) : step s = .next (State.writeReg { s with pending := rest } (base.toNat + i.val) w) := by
  have hi := index_toNat (base := base) (i := i.val) (by omega)
  rw [step_write hp (by omega), hi]

/-- Settles O53: the value stored is `norm` of the signed word. -/
theorem fieldRegisterWritesNormalise : Obligations.FieldRegisterWritesNormalise := by
  intro s w rest
  refine ⟨normWord w, normInt_val _, fun hp => ?_, fun hp => ?_, fun i hp => ?_, fun i hp => ?_⟩
  · exact step_write hp (by decide)
  · exact step_write hp (by decide)
  · rw [step_write_group hp (by decide) (by decide)]
    exact congrArg _ (writeReg_x _ w i)
  · rw [step_write_group hp (by decide) (by decide)]
    exact congrArg _ (writeReg_y _ w i)

/-- Settles O54: below the length a coefficient write is a store, from the length on it leaves the bank. -/
theorem coefficientWritesStopAtTheLength : Obligations.CoefficientWritesStopAtTheLength := by
  intro s w rest i
  refine ⟨normWord w, normInt_val _, fun hp => ?_, fun hp => ?_⟩
  · obtain ⟨hlt, hle⟩ := Bank.writeCoeff_eq i s.p0 (normWord w)
    have hstep : step s = .next (State.withP0 { s with pending := rest } (s.p0.writeCoeff i.val (normWord w))) := by
      rw [step_write_group hp (by decide) (by decide)]
      exact congrArg _ (writeReg_p0 _ w i)
    exact ⟨fun h => by rw [hstep, hlt h]; rfl, fun h => by rw [hstep, hle h]; rfl⟩
  · obtain ⟨hlt, hle⟩ := Bank.writeCoeff_eq i s.p1 (normWord w)
    have hstep : step s = .next (State.withP1 { s with pending := rest } (s.p1.writeCoeff i.val (normWord w))) := by
      rw [step_write_group hp (by decide) (by decide)]
      exact congrArg _ (writeReg_p1 _ w i)
    exact ⟨fun h => by rw [hstep, hlt h]; rfl, fun h => by rw [hstep, hle h]; rfl⟩

/-- The bits of the word that `MSEL` stores (R41). -/
theorem mselOf_getLsbD (w : Word) {j : Nat} (hj : j < 16) :
    (mselOf w).getLsbD j = (w.getLsbD j && (decide (j < 2) || decide (8 ≤ j))) := by
  have hmask : ∀ j < 16, (0xFF03#16).getLsbD j = (decide (j < 2) || decide (8 ≤ j)) := by decide
  rw [mselOf, BitVec.getLsbD_and, hmask j hj, BitVec.getLsbD_setWidth, decide_eq_true hj, Bool.true_and]

/-- Settles O55: each register's arm of the write, and the bits of `MSEL` through its mask. -/
theorem plainRegisterWritesStoreTheWord : Obligations.PlainRegisterWritesStoreTheWord := by
  intro s w rest
  rw [← BitVec.setWidth_eq_extractLsb' (by omega)]
  refine ⟨fun hp => ?_, fun hp => ?_, fun hp => ?_, fun hp => ?_, fun hp => ?_, fun hp => ?_, fun hp => ?_,
    fun hp => ?_, fun i hp => ?_⟩
  case refine_6 => exact ⟨mselOf w, fun j hj => mselOf_getLsbD w hj, step_write hp (by decide)⟩
  case refine_9 =>
    rw [step_write_group hp (by decide) (by decide)]
    exact congrArg _ (writeReg_sel _ w i)
  all_goals exact step_write hp (by decide)

/-! ## Indices that ignore writes -/

/-- No register stands at the index (R49, R76). -/
def Unmapped (i : Nat) : Prop :=
  i = 0x06 ∨ i = 0x07 ∨ (0x0C ≤ i ∧ i ≤ 0x0F) ∨ i = 0x16 ∨ i = 0x17 ∨ i = 0x1E ∨ i = 0x1F ∨
    (0x29 ≤ i ∧ i ≤ 0x2F) ∨ (0x49 ≤ i ∧ i ≤ 0x4F) ∨ 0x59 ≤ i

/-- The register at the index is read-only (R23). -/
def ReadOnly (i : Nat) : Prop :=
  i = 0x00 ∨ i = 0x02 ∨ i = 0x03 ∨ i = 0x04 ∨ i = 0x05 ∨ i = 0x0B ∨ i = 0x14 ∨ i = 0x15 ∨ i = 0x48 ∨ i = 0x58

theorem not_inGroup {base i : Nat} (h : i < base ∨ base + 8 ≤ i) : ¬ inGroup base i = true := by
  rw [inGroup, Bool.and_eq_true, decide_eq_true_eq, decide_eq_true_eq]
  omega

/-- No such index lies in a group of eight writable registers. -/
theorem not_inGroup_of_ignored {i : Nat} (h : Unmapped i ∨ ReadOnly i) :
    ¬ inGroup 0x20 i = true ∧ ¬ inGroup 0x30 i = true ∧ ¬ inGroup 0x38 i = true ∧ ¬ inGroup 0x40 i = true ∧
      ¬ inGroup 0x50 i = true := by
  unfold Unmapped ReadOnly at h
  refine ⟨?_, ?_, ?_, ?_, ?_⟩ <;> exact not_inGroup (by omega)

/-- A write to a read-only register or to an unmapped index is ignored (R49). -/
theorem State.writeReg_ignored (s : State) {i : Nat} (h : Unmapped i ∨ ReadOnly i) (w : Word) : s.writeReg i w = s := by
  obtain ⟨h20, h30, h38, h40, h50⟩ := not_inGroup_of_ignored h
  unfold Unmapped ReadOnly at h
  unfold State.writeReg
  rw [if_neg h20, if_neg h30, if_neg h38, if_neg h40, if_neg h50]
  split
  case h_15 => rfl
  all_goals omega

/-- An unmapped index reads 0 (R49). -/
theorem State.readReg_unmapped (s : State) {i : Nat} (h : Unmapped i) : s.readReg i = 0#32 := by
  obtain ⟨h20, h30, h38, h40, h50⟩ := not_inGroup_of_ignored (.inl h)
  unfold Unmapped at h
  unfold State.readReg
  rw [if_neg h20, if_neg h30, if_neg h38, if_neg h40, if_neg h50]
  split
  case h_26 => rfl
  all_goals omega

/-- A host read of any register but `MDATA` leaves its word in `rdata` and changes nothing else (R61). -/
theorem step_read_plain {s : State} {idx : Byte} {rest : List HostOp} (hp : s.pending = .read idx :: rest)
    (hi : idx.toNat ≠ mdataIndex) :
    step s = .next { s with pending := rest, rdata := s.readReg idx.toNat } := by
  rw [step_read hp, State.hostRead, if_neg hi]
  rfl

/-- Settles O56: such an index has no arm in the register map. -/
theorem readOnlyAndUnmappedIndicesIgnoreWrites : Obligations.ReadOnlyAndUnmappedIndicesIgnoreWrites := by
  intro s idx rest i unmapped readOnly
  refine ⟨fun w hp h => ?_, fun hp h => ?_⟩
  · have hi : idx.toNat ≠ 1 := by omega
    rw [step_write hp hi, State.writeReg_ignored _ h]
  · have hi : idx.toNat ≠ 0x1A := by omega
    rw [step_read_plain hp hi, s.readReg_unmapped h]

/-! ## Host reads -/

/-- The register at an index, which is not `MDATA`, reads as a number. -/
def State.ReadsAs (s : State) (idx : Byte) (v : Nat) : Prop :=
  idx.toNat ≠ mdataIndex ∧ (s.readReg idx.toNat).toNat = v

/-- One of eight registers read through its own index (R23). -/
theorem State.readsAs_group {s : State} {base : Byte} {i : Fin 8} {w : Word} {v : Nat}
    (hb : base.toNat + 8 ≤ 256) (hm : mdataIndex < base.toNat) (h : s.readReg (base.toNat + i.val) = w)
    (hw : w.toNat = v) : s.ReadsAs (base + BitVec.ofNat 8 i.val) v := by
  have hi := index_toNat (base := base) (i := i.val) (by omega)
  rw [State.ReadsAs, hi, h]
  exact ⟨by omega, hw⟩

theorem State.flagsWord_toNat (s : State) : s.flagsWord.toNat = s.flagEq.toNat := by
  rw [State.flagsWord]
  cases s.flagEq <;> rfl

/-- Settles O57: the word read at each index, as a number. -/
theorem hostReadsReturnTheRegister : Obligations.HostReadsReturnTheRegister := by
  intro s rest i
  refine ⟨fun p hmem hp => ?_, fun hp => by simp only [step, State.request, hp]⟩
  have hread : s.ReadsAs p.1 p.2 := by
    clear hp
    revert p
    simp only [List.forall_mem_cons]
    have wide {n : Nat} (v : BitVec n) (h : n ≤ 32 := by omega) : (v.setWidth 32).toNat = v.toNat :=
      BitVec.toNat_setWidth_of_le h
    exact ⟨⟨by decide, rfl⟩, ⟨by decide, rfl⟩, ⟨by decide, wide s.err⟩, ⟨by decide, wide s.esticky⟩, ⟨by decide, rfl⟩,
      ⟨by decide, s.flagsWord_toNat⟩, ⟨by decide, feWord_toNat _⟩, ⟨by decide, feWord_toNat _⟩, ⟨by decide, rfl⟩,
      ⟨by decide, feWord_toNat _⟩, ⟨by decide, byteWord_toNat _⟩, ⟨by decide, byteWord_toNat _⟩, ⟨by decide, rfl⟩,
      ⟨by decide, rfl⟩, ⟨by decide, wide s.outw⟩, ⟨by decide, wide s.outh⟩, ⟨by decide, wide s.msel⟩, ⟨by decide, rfl⟩,
      ⟨by decide, byteWord_toNat _⟩, ⟨by decide, wide s.p0.len⟩, ⟨by decide, wide s.p1.len⟩,
      State.readsAs_group (by decide) (by decide) (readReg_sel s i) (byteWord_toNat _),
      State.readsAs_group (by decide) (by decide) (readReg_x s i) (feWord_toNat _),
      State.readsAs_group (by decide) (by decide) (readReg_y s i) (feWord_toNat _),
      State.readsAs_group (by decide) (by decide) (readReg_p0 s i) (feWord_toNat _),
      State.readsAs_group (by decide) (by decide) (readReg_p1 s i) (feWord_toNat _), by simp⟩
  obtain ⟨hi, hv⟩ := hread
  exact ⟨_, hv, step_read_plain hp hi⟩

/-! ## The memory window and the slot window -/

theorem State.windowSlot_eq (s : State) : s.windowSlot = s.msel.toNat / 256 := by
  rw [State.windowSlot, BitVec.extractLsb'_toNat, Nat.shiftRight_eq_div_pow]
  omega

theorem State.windowSpace_eq {s : State} {sp : Space} (h : s.msel.toNat % 4 = sp.code) : s.windowSpace = some sp := by
  have hs : (s.msel.extractLsb' 0 2).toNat = sp.code := by
    rw [BitVec.extractLsb'_toNat, Nat.shiftRight_zero]
    exact h
  rw [State.windowSpace, hs]
  cases sp <;> rfl

/-- The window stands on the location that `MSEL` and `MADDR` name, where it exists (R41, R42, R62). -/
theorem State.windowLoc_eq {s : State} {sp : Space} (h : s.msel.toNat % 4 = sp.code)
    (hr : inRange s.params sp (s.msel.toNat / 256) s.maddr.toNat = true) :
    s.windowLoc = some (sp, s.msel.toNat / 256, s.maddr.toNat) := by
  rw [← s.windowSlot_eq] at hr ⊢
  rw [State.windowLoc, State.windowSpace_eq h]
  exact if_pos hr

/-- What a store of one byte at a location that exists does to every byte that exists (R63). -/
theorem byteAt_storeByte (s : State) {p : Config.Params} {sp sp' : Space} {slot slot' i i' : Nat} (v : Byte)
    (h : inRange p sp slot i = true) (h' : inRange p sp' slot' i' = true) :
    (s.storeByte sp slot i v).byteAt sp' slot' i' =
      if sameMemory sp slot sp' slot' ∧ i' = i then v else s.byteAt sp' slot' i' := by
  have hrun : ∀ d, d < [v].length → addressable sp slot (i + d) := by
    intro d hd
    rw [Nat.lt_one_iff.mp hd]
    exact addressable_of_inRange h
  have hiff : i ≤ i' ∧ i' < i + [v].length ↔ i' = i := by simp only [List.length_singleton]; omega
  obtain ⟨hin, hout⟩ := byteAt_storeFrom s [v] hrun (addressable_of_inRange h')
  rw [hiff] at hin hout
  split
  · next hc =>
    rw [State.storeByte, hin hc, hc.2]
    simp
  · next hc => exact hout hc

/-- Settles O58: the window stands on the location selected, and one stored byte changes one byte. -/
theorem windowAccessesTheSelectedByte : Obligations.WindowAccessesTheSelectedByte := by
  intro s w rest sp hsp hr
  have hloc := State.windowLoc_eq hsp hr
  refine ⟨fun hp => ?_, fun hp => ?_⟩
  · have hstep : step s = .next (State.windowWrite { s with pending := rest } w) := step_write hp (by decide)
    have hwrite : State.windowWrite { s with pending := rest } w =
        (State.storeByte { s with pending := rest } sp (s.msel.toNat / 256) s.maddr.toNat (w.setWidth 8)).bumpMaddr := by
      have hloc' : State.windowLoc { s with pending := rest } = some (sp, s.msel.toNat / 256, s.maddr.toNat) := hloc
      simp only [State.windowWrite, hloc']
    refine ⟨_, hstep, ?_⟩
    rw [hwrite, ← BitVec.setWidth_eq_extractLsb' (by omega)]
    refine ⟨rfl, ?_, fun sp' slot' i' hr' hne => ?_⟩
    · rw [State.bumpMaddr_byteAt, byteAt_storeByte _ _ hr hr, if_pos ⟨⟨rfl, .inr rfl⟩, rfl⟩]
    · rw [State.bumpMaddr_byteAt, byteAt_storeByte _ _ hr hr', if_neg fun h => hne ⟨h.1.1, h.1.2, h.2⟩]
      rfl
  · have hbyte : s.windowByte = s.byteAt sp (s.msel.toNat / 256) s.maddr.toNat := by
      simp only [State.windowByte, hloc]
    rw [step_read hp, ← hbyte]
    rfl

/-- A slot that `MSEL` selects and that exists is written and read; one that does not exist is neither (R44). -/
theorem State.writeSlot_eq (s : State) (f : Slot → Slot) :
    (s.msel.toNat / 256 < s.params.nMax.val → s.writeSlot f = s.updateSlot (s.msel.toNat / 256) f) ∧
      (s.params.nMax.val ≤ s.msel.toNat / 256 → s.writeSlot f = s) := by
  rw [State.writeSlot, s.windowSlot_eq]
  exact ⟨fun h => if_pos h, fun h => if_neg (by omega)⟩

theorem State.windowSlotRegs_eq (s : State) :
    (s.msel.toNat / 256 < s.params.nMax.val → s.windowSlotRegs = s.slotRegs (s.msel.toNat / 256)) ∧
      (s.params.nMax.val ≤ s.msel.toNat / 256 → s.windowSlotRegs = Slot.zero) := by
  rw [State.windowSlotRegs, s.windowSlot_eq]
  exact ⟨fun h => if_pos h, fun h => if_neg (by omega)⟩

theorem State.readReg_cid (s : State) : s.readReg (0x1B#8).toNat = byteWord s.windowSlotRegs.cid := rfl

theorem State.readReg_cw (s : State) : s.readReg (0x1C#8).toNat = s.windowSlotRegs.cw.setWidth 32 := rfl

theorem State.readReg_ch (s : State) : s.readReg (0x1D#8).toNat = s.windowSlotRegs.ch.setWidth 32 := rfl

/-- Settles O60: the window's slot is `MSEL / 256`, and each register is an arm of the register map. -/
theorem slotRegistersFollowTheSelectedSlot : Obligations.SlotRegistersFollowTheSelectedSlot := by
  intro s w rest slot
  have hwrite := State.writeSlot_eq { s with pending := rest }
  have hread := s.windowSlotRegs_eq
  refine ⟨fun hs => ?_, fun hs => ?_⟩
  · simp only [← BitVec.setWidth_eq_extractLsb' (show 8 ≤ 32 by omega),
      ← BitVec.setWidth_eq_extractLsb' (show 16 ≤ 32 by omega)]
    refine ⟨fun hp => ?_, fun hp => ?_, fun hp => ?_, fun hp => ?_, fun hp => ?_, fun hp => ?_⟩
    · exact (step_write hp (by decide)).trans (congrArg _ ((hwrite _).1 hs))
    · exact (step_write hp (by decide)).trans (congrArg _ ((hwrite _).1 hs))
    · exact (step_write hp (by decide)).trans (congrArg _ ((hwrite _).1 hs))
    · rw [step_read_plain hp (by decide), s.readReg_cid, hread.1 hs, byteWord]
    · rw [step_read_plain hp (by decide), s.readReg_cw, hread.1 hs]
    · rw [step_read_plain hp (by decide), s.readReg_ch, hread.1 hs]
  · simp only [List.forall_mem_cons]
    refine ⟨⟨fun hp => ?_, fun hp => ?_⟩, ⟨fun hp => ?_, fun hp => ?_⟩, ⟨fun hp => ?_, fun hp => ?_⟩, by simp⟩
    · exact (step_write hp (by decide)).trans (congrArg _ ((hwrite _).2 hs))
    · rw [step_read_plain hp (by decide), s.readReg_cid, hread.2 hs]
      rfl
    · exact (step_write hp (by decide)).trans (congrArg _ ((hwrite _).2 hs))
    · rw [step_read_plain hp (by decide), s.readReg_cw, hread.2 hs]
      rfl
    · exact (step_write hp (by decide)).trans (congrArg _ ((hwrite _).2 hs))
    · rw [step_read_plain hp (by decide), s.readReg_ch, hread.2 hs]
      rfl

/-! ## Commands issued at the host port -/

/-- Settles O6: the step on a write of `CMD`, and the plain read. -/
theorem stepExecutesTheCommandWord : Obligations.StepExecutesTheCommandWord := by
  refine ⟨fun s w rest i hp hd => ?_, fun s rest hp => step_read_plain hp (by decide), rfl⟩
  have hc : (0x01#8).toNat = cmdIndex := rfl
  simp only [step, State.request, hp, if_pos hc, State.issue, hd]

end Sys2Proof.Machine
end

section
/-! PROOFS. The statements about the memories (20_memory.md): that every step stores only at locations that exist, and
that the memory window does nothing but count on where there is no byte. -/

namespace Sys2Proof.Machine

/-! ## The window where there is no byte -/

theorem State.windowSpace_eq_none {s : State} (h : s.msel.toNat % 4 = 3) : s.windowSpace = none := by
  have hs : (s.msel.extractLsb' 0 2).toNat = 3 := by
    rw [BitVec.extractLsb'_toNat, Nat.shiftRight_zero]
    exact h
  rw [State.windowSpace, hs]
  rfl

/-- The window stands on no location where `MSEL` selects no memory, or `MADDR` a byte the memory selected has not
(R41, R64). -/
theorem State.windowLoc_eq_none {s : State}
    (h : s.msel.toNat % 4 = 3 ∨ ∃ sp : Space, s.msel.toNat % 4 = sp.code ∧
      inRange s.params sp (s.msel.toNat / 256) s.maddr.toNat = false) : s.windowLoc = none := by
  rw [← s.windowSlot_eq] at h
  rcases h with h | ⟨sp, hsp, hr⟩
  · rw [State.windowLoc, State.windowSpace_eq_none h]
  · rw [State.windowLoc, State.windowSpace_eq hsp]
    exact if_neg (Bool.eq_false_iff.mp hr)

theorem State.windowWrite_of_no_loc {s : State} (h : s.windowLoc = none) (w : Word) :
    s.windowWrite w = s.bumpMaddr := by
  rw [State.windowWrite, h]

theorem State.windowByte_of_no_loc {s : State} (h : s.windowLoc = none) : s.windowByte = 0#8 := by
  rw [State.windowByte, h]

/-- Settles O59: the window stands on no location, so a write is the count of `MADDR` alone and a read is of 0. -/
theorem windowOutOfRangeStoresNothingAndReadsZero : Obligations.WindowOutOfRangeStoresNothingAndReadsZero := by
  intro s w rest h
  have hloc := State.windowLoc_eq_none h
  refine ⟨fun hp => ?_, fun hp => ?_⟩
  · exact (step_write hp (by decide)).trans
      (congrArg _ (State.windowWrite_of_no_loc (s := { s with pending := rest }) hloc w))
  · have hread : s.readReg (0x1A#8).toNat = 0#32 := congrArg byteWord (State.windowByte_of_no_loc hloc)
    rw [step_read hp, ← hread]
    rfl

/-! ## Host accesses store only at locations that exist -/

/-- Where the window stands on a location, the location exists (R62, R64). -/
theorem State.windowLoc_inRange {s : State} {sp : Space} {slot i : Nat} (h : s.windowLoc = some (sp, slot, i)) :
    inRange s.params sp slot i = true := by
  rw [State.windowLoc] at h
  split at h
  · cases h
  · split at h
    · next hr =>
      cases h
      exact hr
    · cases h

/-- A byte stored at a location that exists lists only locations that exist (R63). -/
theorem State.memInRange_storeByte {s : State} (h : s.memInRange) {sp : Space} {slot i : Nat}
    (hr : inRange s.params sp slot i = true) (v : Byte) : (s.storeByte sp slot i v).memInRange := by
  intro p hp
  rcases mem_splice hp with hp | ⟨hlo, hhi⟩
  · exact h p hp
  · rw [List.length_singleton] at hhi
    exact ⟨sp, slot, i, hr, by omega⟩

theorem State.windowWrite_memInRange {s : State} (h : s.memInRange) (w : Word) : (s.windowWrite w).memInRange := by
  rw [State.windowWrite]
  split
  · next hloc => exact State.memInRange_storeByte h (State.windowLoc_inRange hloc) _
  · exact h

theorem State.writeSlot_memInRange {s : State} (h : s.memInRange) (f : Slot → Slot) : (s.writeSlot f).memInRange := by
  rw [State.writeSlot]
  split <;> exact h

/-- A host write of any register but `CMD` stores only at locations that exist: the window alone reaches a memory. -/
theorem State.writeReg_memInRange {s : State} (h : s.memInRange) (i : Nat) (w : Word) :
    (s.writeReg i w).memInRange := by
  unfold State.writeReg
  split_ifs
  case' neg => split
  case h_10 => -- `MDATA`
    exact State.windowWrite_memInRange h w
  case h_11 => -- `CID`
    exact State.writeSlot_memInRange h _
  case h_12 => -- `CW`
    exact State.writeSlot_memInRange h _
  case h_13 => -- `CH`
    exact State.writeSlot_memInRange h _
  all_goals exact h

/-- A read writes `MADDR` and the word read at most (R61). -/
theorem State.hostRead_memInRange {s : State} (h : s.memInRange) (i : Nat) : (s.hostRead i).memInRange := by
  rw [State.hostRead]
  split <;> exact h

/-! ## Commands store only at locations that exist -/

/-- A decoded plane fits SECRET once `check_scheme()` has passed (R65, R171, R207). -/
theorem State.decodedPlane_length_le {s : State} (h : s.schemeOk) {shadows : List (List Byte)} {plane : List FE}
    (hp : s.decodeBlocks shadows s.numBlocks 0 = .ok plane) : plane.length ≤ s.params.secretDepth.val := by
  have hk := h.1.1
  calc plane.length
    _ = s.blocks * (s.k.toNat + (s.k.toNat - 2)) := State.decodeBlocks_length _ _ hp
    _ = s.blocks * (2 * s.k.toNat - 2) := by congr 1; omega
    _ = s.npix.toNat := (State.npix_eq h.2.2).symm
    _ ≤ s.params.secretDepth.val := h.2.1

/-- An unpacked shadow fits SHADOW once `check_scheme()` has passed (R65, R234). -/
theorem State.unpack_length_le {s : State} (h : s.schemeOk) (slot : Nat) :
    (s.unpack slot).length ≤ shadowDepth s.params := by
  rw [State.unpack, List.length_map, List.length_range, State.shadowLen_eq h.1 h.2.2]
  exact State.shadowBytes_le h

theorem State.withBank_memInRange {s : State} (h : s.memInRange) (b : Nat) (p : Bank) :
    (s.withBank b p).memInRange := by
  rw [State.withBank]
  split <;> exact h

theorem State.commitPlane_memInRange {s : State} (h : s.memInRange) {plane : List FE}
    (hl : plane.length ≤ s.params.secretDepth.val) : (s.commitPlane plane).memInRange := by
  obtain ⟨-, -, hr, -⟩ := State.commitPlane_spec hl
  exact hr h

/-- Embedding every participant's slot after encoding stays within the covers (R182, R232). -/
theorem State.distributed_memInRange {s : State} (hm : s.memInRange) (h : s.schemeOk) (hp : s.participantsOk)
    (hcap : ∀ slot < s.n.toNat, s.capacityOk slot) : (s.encodeAll.embedSlots s.n.toNat).memInRange := by
  obtain ⟨he, -, henc, -⟩ := State.encodeAll_spec h hp
  have hn : 0 < s.n.toNat := by
    have := h.1.1
    have := hp.1
    omega
  have hpar : s.encodeAll.params = s.params := by rw [he]
  have hused : s.encodeAll.coverUsed = s.coverUsed := by rw [he]; rfl
  have hlen : s.encodeAll.shadowLen = s.shadowBytes := by rw [he]; exact State.shadowLen_eq h.1 h.2.2
  obtain ⟨-, hemb, -⟩ := State.embedSlots_bytes (s := s.encodeAll) s.n.toNat (hpar ▸ hp.2)
    (by rw [hused, hpar]; exact State.coverUsed_le h (hcap 0 hn)) (by rw [hlen, hpar]; exact State.shadowBytes_le h)
  exact hemb (henc hm)

/-- Storing the shadows that the selected covers carry stays within the shadow memories of their slots
(R201, R208). -/
theorem State.storeCarried_memInRange {s : State} (hm : s.memInRange) (h : s.schemeOk) (hsel : s.selectionOk) :
    (s.storeShadows s.carriedShadows 0).memInRange := by
  obtain ⟨hp, hloaded, -⟩ := hsel
  have hslots : ∀ j < s.k.toNat, s.selAt (0 + j) < s.params.nMax.val := by
    intro j hj
    rw [Nat.zero_add]
    exact Nat.lt_of_lt_of_le (hloaded j hj) hp.2
  have hspec := State.storeShadows_spec (s0 := s) s.unpack (len := (s.unpack 0).length) (by simp [State.unpack])
    (State.unpack_length_le h 0) s.k.toNat 0 hslots s rfl
  rw [← List.range_eq_range'] at hspec
  obtain ⟨-, -, hr, -⟩ := hspec
  exact hr hm

/-- What a command commits lists only locations that exist: the guards it passed keep every run of bytes it writes
within its memory (R65). -/
theorem committed_memInRange {i : Instr} {s u : State} (hm : s.memInRange) (h : committed i s u) : u.memInRange := by
  cases i with
  | nop => subst h; exact hm
  | clrerr => subst h; exact hm
  | fadd => subst h; exact hm
  | fsub => subst h; exact hm
  | fmul => subst h; exact hm
  | fdiv => obtain ⟨_, -, rfl⟩ := h; exact hm
  | fpow => subst h; exact hm
  | finv => obtain ⟨-, rfl⟩ := h; exact hm
  | feq => subst h; exact hm
  | pnew bank len => obtain ⟨-, -, -, rfl⟩ := h; exact State.withBank_memInRange hm _ _
  | peval bank => obtain ⟨-, rfl⟩ := h; exact hm
  | peq => subst h; exact hm
  | lag0 j top => obtain ⟨-, -, -, _, -, rfl⟩ := h; exact hm
  | pinterp bank => obtain ⟨-, -, -, -, _, -, rfl⟩ := h; exact State.withBank_memInRange hm _ _
  | blkbuild => obtain ⟨-, -, rfl⟩ := h; exact hm
  | encode =>
    obtain ⟨hs, hp, rfl⟩ := h
    obtain ⟨-, -, hr, -⟩ := State.encodeAll_spec hs hp
    exact hr hm
  | distribute =>
    obtain ⟨hs, hp, hcap, rfl⟩ := h
    exact State.distributed_memInRange hm hs hp hcap
  | blkinterp => obtain ⟨-, -, -, _, -, rfl⟩ := h; exact hm
  | cheat => obtain ⟨-, -, _, -, rfl⟩ := h; exact hm
  | decode =>
    obtain ⟨hs, -, _, hplane, rfl⟩ := h
    exact State.commitPlane_memInRange hm (State.decodedPlane_length_le hs hplane)
  | recover =>
    obtain ⟨hs, hsel, -, _, hplane, rfl⟩ := h
    have hpar : (s.storeShadows s.carriedShadows 0).params = s.params := by
      rw [(State.Keeps.storeShadows s _ 0).registers]
      rfl
    refine State.commitPlane_memInRange (State.storeCarried_memInRange hm hs hsel) ?_
    rw [hpar]
    exact State.decodedPlane_length_le hs hplane
  | embed slot =>
    obtain ⟨hslot, hs, hcap, rfl⟩ := h
    obtain ⟨-, -, hr, -⟩ := State.embedSlot_spec hslot (State.coverUsed_le hs hcap)
    exact hr hm
  | extract slot =>
    obtain ⟨hslot, hs, -, rfl⟩ := h
    exact (State.fillShadow_spec hslot _ (State.unpack_length_le hs slot)).1 hm

/-- Every command stores only at locations that exist: it raises and stores nothing, or it commits (R65, R67). -/
theorem exec_memInRange {i : Instr} {s t : State} (hm : s.memInRange) (h : exec i s = .next t) : t.memInRange := by
  rcases exec_cases h with ⟨trap, -, -, rfl⟩ | ⟨u, hu, rfl⟩
  · exact hm
  · exact committed_memInRange (u := u) hm hu

/-- Settles O17: each kind of step stores only where there is a byte; a reset lists no byte. -/
theorem everyStepStoresOnlyAtExistingLocations : Obligations.EveryStepStoresOnlyAtExistingLocations := by
  intro s t hm h
  rcases step_cases h with ⟨-, rfl⟩ | ⟨rest, ⟨-, rfl⟩ | ⟨idx, -, rfl⟩ | ⟨idx, w, -, -, rfl⟩ | ⟨idx, w, -, -, hc⟩⟩
  · exact hm
  · exact List.forall_mem_nil _
  · exact State.hostRead_memInRange (s := { s with pending := rest }) hm _
  · exact State.writeReg_memInRange (s := { s with pending := rest }) hm _ w
  · rcases hc with ⟨_, -, rfl⟩ | ⟨i, -, hx⟩
    · exact hm
    · exact exec_memInRange (s := { s with pending := rest, cmd := w }) hm hx

end Sys2Proof.Machine
end

section
/-! PROOFS. The statements about the command word (30_encoding.md): that decoding and encoding are inverse, that the
rows of the opcode map cover the legal words without overlap, and what an illegal word does. -/

namespace Sys2Proof

open Sys2Proof.Machine

/-! ## Commands and their words -/

/-- A command is well formed exactly when its arguments fit their fields (R90, R94). -/
theorem wellFormed_iff {i : Instr} : i.wellFormed = true ↔ (argsOf i).1 < 256 ∧ (argsOf i).2 < 256 := by
  refine ⟨argsOf_lt, fun ⟨h0, h1⟩ => ?_⟩
  cases i <;> simp_all [Instr.wellFormed, argsOf, argFits]

/-- A command has a zero for each argument its format does not use (R91). -/
theorem argsOf_unused (i : Instr) :
    ((formatOf i).usesA0 = false → (argsOf i).1 = 0) ∧ ((formatOf i).usesA1 = false → (argsOf i).2 = 0) := by
  obtain ⟨-, -, hargs⟩ := opcodeRow_eq_some (opcodeRow_opcodeOf i)
  constructor <;> intro hu
  · simpa [hu] using congrArg Prod.fst hargs
  · simpa [hu] using congrArg Prod.snd hargs

theorem opField_lt (w : Word) : opField w < 256 := (w.extractLsb' 0 8).isLt
theorem a0Field_lt (w : Word) : a0Field w < 256 := (w.extractLsb' 8 8).isLt
theorem a1Field_lt (w : Word) : a1Field w < 256 := (w.extractLsb' 16 8).isLt

/-- A word with no reserved bit is the command word of its fields (R90). -/
theorem commandWord_fields {w : Word} (h : rsvField w = 0) : commandWord (opField w) (a0Field w) (a1Field w) = w := by
  apply BitVec.eq_of_toNat_eq
  rw [commandWord_toNat (opField_lt w) (a0Field_lt w) (a1Field_lt w), toNat_eq_fields w, h, Nat.mul_zero, Nat.add_zero]

/-- The fields of a word that decodes are the opcode and the arguments of its command (R90 to R93). -/
theorem fields_of_decode {w : Word} {i : Instr} (h : decode w = .ok i) :
    opField w = opcodeOf i ∧ a0Field w = (argsOf i).1 ∧ a1Field w = (argsOf i).2 ∧ rsvField w = 0 := by
  obtain ⟨fmt, hrow, h0, h1, hrsv⟩ := decode_eq_ok.mp h
  obtain ⟨hop, -, hargs⟩ := opcodeRow_eq_some hrow
  rw [hargs]
  refine ⟨hop.symm, ?_, ?_, hrsv⟩
  · cases hu : fmt.usesA0 <;> simp [h0, hu]
  · cases hu : fmt.usesA1 <;> simp [h1, hu]

/-- Settles O1: the fields of the command's word select its own row, and the fields its format does not use are zero. -/
theorem encodeThenDecodeGivesTheCommand : Obligations.EncodeThenDecodeGivesTheCommand := by
  intro i hi
  obtain ⟨h0, h1⟩ := argsOf_lt hi
  obtain ⟨hop, ha0, ha1, hrsv⟩ := fields_commandWord (opcodeOf_lt i) h0 h1
  obtain ⟨hu0, hu1⟩ := argsOf_unused i
  rw [decode_eq_ok, encode, hop, ha0, ha1]
  exact ⟨formatOf i, opcodeRow_opcodeOf i, hu0, hu1, hrsv⟩

/-- Settles O2: the word is the command word of its own fields, which are those of the command. -/
theorem decodedWordIsItsEncoding : Obligations.DecodedWordIsItsEncoding := by
  intro w i h
  obtain ⟨hop, ha0, ha1, hrsv⟩ := fields_of_decode h
  refine ⟨wellFormed_iff.mpr ⟨ha0 ▸ a0Field_lt w, ha1 ▸ a1Field_lt w⟩, ?_⟩
  rw [encode, ← hop, ← ha0, ← ha1, commandWord_fields hrsv]

/-! ## The rows of the opcode map -/

/-- A row of the map holds its opcode, the mask of its format and the command of that opcode (R91, R93). -/
theorem opcodeMapRows_spec {row : Word × Word × (Nat → Nat → Instr)} (h : row ∈ opcodeMapRows) :
    row.1.toNat < 256 ∧ ∃ fmt : Format, row.2.1 = fmt.mask ∧
      ∀ a0 a1, opcodeRow row.1.toNat a0 a1 = some (fmt, row.2.2 a0 a1) := by
  simp only [opcodeMapRows, List.cons_append, List.nil_append] at h
  fin_cases h <;> refine ⟨by decide, _, ?_, fun _ _ => rfl⟩ <;> rfl

/-- Every command has a row with its opcode and the mask of its format (R93). -/
theorem exists_opcodeMapRow (i : Instr) :
    ∃ row ∈ opcodeMapRows, row.1 = BitVec.ofNat 32 (opcodeOf i) ∧ row.2.1 = (formatOf i).mask := by
  have hmem : (BitVec.ofNat 32 (opcodeOf i), (formatOf i).mask) ∈ opcodeMapRows.map fun row => (row.1, row.2.1) := by
    cases i <;> simp only [opcodeOf, formatOf] <;> decide
  obtain ⟨row, hrow, heq⟩ := List.mem_map.mp hmem
  exact ⟨row, hrow, congrArg Prod.fst heq, congrArg Prod.snd heq⟩

/-- A word matches a row when its opcode is the row's and every fixed bit is zero (R91, R92). -/
theorem and_mask_eq_iff {w m : Word} {fmt : Format} (hm : m.toNat < 256) :
    w &&& fmt.mask = m ↔ opField w = m.toNat ∧ (fmt.usesA0 = false → a0Field w = 0) ∧
      (fmt.usesA1 = false → a1Field w = 0) ∧ rsvField w = 0 := by
  have hop := opField_lt w
  rw [← BitVec.toNat_inj, toNat_and_formatMask]
  cases fmt <;> simp [Format.usesA0, Format.usesA1] <;> omega

/-- A word that matches a row decodes to the row's command, and its opcode is the row's (R92, R93). -/
theorem decode_of_matches {w : Word} {row : Word × Word × (Nat → Nat → Instr)} (hrow : row ∈ opcodeMapRows)
    (hw : w &&& row.2.1 = row.1) :
    decode w = .ok (row.2.2 (a0Field w) (a1Field w)) ∧ opField w = row.1.toNat := by
  obtain ⟨hlt, fmt, hmask, hcmd⟩ := opcodeMapRows_spec hrow
  rw [hmask, and_mask_eq_iff hlt] at hw
  obtain ⟨hop, hfixed⟩ := hw
  exact ⟨decode_eq_ok.mpr ⟨fmt, hop ▸ hcmd _ _, hfixed⟩, hop⟩

/-- A word that decodes matches the row of its command (R92, R93). -/
theorem exists_matching_row {w : Word} {i : Instr} (h : decode w = .ok i) :
    ∃ row ∈ opcodeMapRows, w &&& row.2.1 = row.1 := by
  obtain ⟨fmt, hcmd, hfixed⟩ := decode_eq_ok.mp h
  obtain ⟨hop, hfmt, -⟩ := opcodeRow_eq_some hcmd
  obtain ⟨row, hrow, hrowOp, hmask⟩ := exists_opcodeMapRow i
  obtain ⟨hlt, -⟩ := opcodeMapRows_spec hrow
  have hnum : row.1.toNat = opcodeOf i := by
    rw [hrowOp, BitVec.toNat_ofNat, Nat.mod_eq_of_lt (by have := opcodeOf_lt i; omega)]
  refine ⟨row, hrow, ?_⟩
  rw [hmask, hfmt, and_mask_eq_iff hlt, hnum]
  exact ⟨hop.symm, hfixed⟩

/-! ## Illegal words -/

/-- Decoding rejects a word that is the word of no command (R92). -/
theorem exists_decode_error {w : Word} (h : ∀ i, decode w ≠ .ok i) : ∃ e, decode w = .error e := by
  cases hd : decode w with
  | error e => exact ⟨e, rfl⟩
  | ok i => exact absurd hd (h i)

/-- A word that is no command, written to `CMD`, raises `IllegalCommand` with the word, and nothing else happens
(R92, R95). -/
theorem step_illegal {s : State} {w : Word} {rest : List HostOp} (hp : s.pending = .write 0x01#8 w :: rest)
    (hd : ∃ e, decode w = .error e) :
    step s = .next { s with
      pending := rest, cmd := w, err := 4#3, esticky := s.esticky ||| 16#5, einfo := w } := by
  obtain ⟨e, he⟩ := hd
  have hc : (0x01#8).toNat = cmdIndex := rfl
  simp only [step, State.request, hp, if_pos hc, State.issue, he]
  rfl

/-- Settles O3: rows have different opcodes, and the row of a command's opcode is matched by each word that decodes to
the command. -/
theorem wordSelectsOneTableRowOrIsIllegal : Obligations.WordSelectsOneTableRowOrIsIllegal := by
  constructor
  · intro w row hrow hw
    obtain ⟨hd, hop⟩ := decode_of_matches hrow hw
    rw [← a0Field_eq, ← a1Field_eq]
    refine ⟨hd, fun row' hrow' hw' => BitVec.eq_of_toNat_eq ?_⟩
    obtain ⟨-, hop'⟩ := decode_of_matches hrow' hw'
    exact hop'.symm.trans hop
  · intro w hw
    have herr : ∃ e, decode w = .error e := by
      refine exists_decode_error fun i hi => ?_
      obtain ⟨row, hrow, hmatch⟩ := exists_matching_row hi
      exact hw row hrow hmatch
    exact ⟨herr, fun s rest hp => step_illegal hp herr⟩

/-- The commands that have an argument `a0` are those of six opcodes (R93). -/
theorem opcodeOf_mem_of_arg0 {i : Instr} (h : (argsOf i).1 ≠ 0) :
    opcodeOf i ∈ [0x20, 0x21, 0x23, 0x24, 0x50, 0x51] := by
  cases i <;> simp_all [argsOf, opcodeOf]

/-- The commands that have an argument `a1` are those of two opcodes (R93). -/
theorem opcodeOf_mem_of_arg1 {i : Instr} (h : (argsOf i).2 ≠ 0) : opcodeOf i ∈ [0x20, 0x23] := by
  cases i <;> simp_all [argsOf, opcodeOf]

/-- No command has an opcode of the gaps of the opcode map (R93, R95). -/
theorem opcodeOf_not_unused (i : Instr) :
    ¬ ((0x02 ≤ opcodeOf i ∧ opcodeOf i ≤ 0x0F) ∨ (0x17 ≤ opcodeOf i ∧ opcodeOf i ≤ 0x1F) ∨
      (0x25 ≤ opcodeOf i ∧ opcodeOf i ≤ 0x2F) ∨ (0x33 ≤ opcodeOf i ∧ opcodeOf i ≤ 0x3F) ∨
      (0x44 ≤ opcodeOf i ∧ opcodeOf i ≤ 0x4F) ∨ 0x52 ≤ opcodeOf i) := by
  cases i <;> simp [opcodeOf]

/-- Settles O4: the fields of a word that decodes are those of a command, which rules out each kind of illegal word. -/
theorem illegalWordChangesOnlyTheErrorRecord : Obligations.IllegalWordChangesOnlyTheErrorRecord := by
  intro s w rest hp hw
  refine step_illegal hp (exists_decode_error fun i hi => ?_)
  obtain ⟨hop, ha0, ha1, hrsv⟩ := fields_of_decode hi
  rw [opField_eq] at hop
  rw [a0Field_eq] at ha0
  rw [a1Field_eq] at ha1
  rw [rsvField_eq] at hrsv
  rw [hop, ha0, ha1] at hw
  rcases hw with hunused | hreserved | ⟨hno, harg⟩ | ⟨hno, harg⟩
  · exact opcodeOf_not_unused i hunused
  · exact hreserved hrsv
  · exact hno (opcodeOf_mem_of_arg0 harg)
  · exact hno (opcodeOf_mem_of_arg1 harg)

/-- Settles O5: the decoder, evaluated on each word. -/
theorem sampleCommandWordsDecode : Obligations.SampleCommandWordsDecode := by
  unfold Obligations.SampleCommandWordsDecode
  decide

end Sys2Proof
end

section
/-! PROOFS. The statements about the field (40_field.md): what normalisation, the inverse ROM and the field functions
compute as numbers, and what each field command does with them. -/

namespace Sys2Proof.Machine

/-! ## Numbers as field elements -/

/-- A field element is the remainder of a number exactly when it is its image in the field (R110). -/
theorem val_eq_mod_iff {v : FE} {n : Nat} : v.val = n % 251 ↔ feZ v = (n : ZMod 251) := by
  rw [feZ, ZMod.natCast_eq_natCast_iff', Nat.mod_eq_of_lt v.isLt]

theorem fadd_val_eq_ite (a b : FE) :
    (fadd a b).val = if a.val + b.val < 251 then a.val + b.val else a.val + b.val - 251 := by
  rw [fadd_val]
  split <;> omega

theorem feq_eq_decide (a b : FE) : feq a b = decide (a.val = b.val) := rfl

/-- `fpow` as a number (R118). -/
theorem fpow_val (a : FE) (e : Word) : (fpow a e).val = a.val ^ e.toNat % 251 := by
  rw [val_eq_mod_iff, feZ_fpow, Nat.cast_pow, feZ]

/-- Fermat's little theorem: the exponent of a nonzero base counts modulo 250. -/
theorem feZ_pow_mod {a : FE} (h : a ≠ 0) (n : Nat) : feZ a ^ n = feZ a ^ (n % 250) := by
  have := prime251
  have hone : feZ a ^ 250 = 1 := ZMod.pow_card_sub_one_eq_one (mt feZ_eq_zero.mp h)
  exact pow_eq_pow_mod n hone

theorem fpow_val_of_ne_zero {a : FE} (h : a ≠ 0) (e : Word) : (fpow a e).val = a.val ^ (e.toNat % 250) % 251 := by
  rw [val_eq_mod_iff, feZ_fpow, feZ_pow_mod h, Nat.cast_pow, feZ]

/-- Settles O26: both sides of each law have the same image in the integers modulo 251. -/
theorem normalisationIsARingHomomorphism : Obligations.NormalisationIsARingHomomorphism := by
  refine ⟨normInt_val, fun u v => ⟨?_, ?_, ?_⟩⟩ <;> apply feZ_injective
  · simp only [feZ_normInt, feZ_fadd, Int.cast_add]
  · simp only [feZ_normInt, feZ_fsub, Int.cast_sub]
  · simp only [feZ_normInt, feZ_fmul, Int.cast_mul]

/-! ## The inverse ROM -/

/-- Every word of the ROM is a field element (R113). -/
theorem romWord_lt (a : Nat) : (romWord a).toNat < 251 := by
  have hall : ∀ n ∈ invRom, n < 251 := by
    simp only [invRom, List.forall_mem_append]
    decide
  have hword : invRom.getD a 0 < 251 := by
    rw [List.getD_eq_getElem?_getD]
    cases ha : invRom[a]? with
    | none => simp
    | some n => exact hall n (List.mem_of_getElem? ha)
  rw [romWord, BitVec.toNat_ofNat]
  omega

/-- The inverse is the ROM word as it stands (R113, R126). -/
theorem inverse_val (a : FE) : (inverse a).val = (romWord a.val).toNat := by
  rw [inverse, normByte_val, Nat.mod_eq_of_lt (romWord_lt _)]

/-- The inverse is the only one (R113). -/
theorem eq_inverse_of_fmul_eq_one {a v : FE} (ha : a ≠ 0) (h : fmul a v = 1) : v = inverse a := by
  have hv : feZ a * feZ v = 1 := by rw [← feZ_fmul, h, feZ_one]
  apply feZ_injective
  calc feZ v = feZ v * (feZ a * feZ (inverse a)) := by rw [feZ_inverse ha, mul_one]
    _ = feZ a * feZ v * feZ (inverse a) := by ring
    _ = feZ (inverse a) := by rw [hv, one_mul]

theorem inverse_mul_val {a : FE} (h : a ≠ 0) : a.val * (inverse a).val % 251 = 1 := by
  rw [← fmul_val, inverse_mul a h]
  rfl

/-- Settles O25: below 251 the ROM is `inverse`; the padding words are read off. -/
theorem inverseRomHoldsTheInverses : Obligations.InverseRomHoldsTheInverses := by
  refine ⟨fun a hlow hhigh => ?_, by decide, fun a hlow hhigh => by interval_cases a <;> decide⟩
  let x : FE := ⟨a, by omega⟩
  have hx : x ≠ 0 := fun h => by
    have ha : a = 0 := congrArg Fin.val h
    omega
  have hword : (inverse x).val = (romWord a).toNat := inverse_val x
  have hmul : a * (romWord a).toNat % 251 = 1 := hword ▸ inverse_mul_val hx
  have hpos : (romWord a).toNat ≠ 0 := fun h => by simp [h] at hmul
  have hlt := romWord_lt a
  refine ⟨by omega, by omega, hmul, fun v _ hv hav => ?_⟩
  have hone : fmul x ⟨v, by omega⟩ = 1 := Fin.ext ((fmul_val _ _).trans hav)
  exact hword ▸ congrArg Fin.val (eq_inverse_of_fmul_eq_one hx hone)

/-! ## The field commands -/

/-- A command that commits a value to `R` writes `R` and `ERR` and nothing else (R37, R67). -/
theorem exec_of_committed_withR {i : Instr} {s : State} {v : FE} (h : committed i s (s.withR v)) :
    exec i s = .next { s with r := v, err := 0#3 } :=
  exec_of_committed h

theorem exec_fdiv_of_zero {s : State} (h : s.b = 0) : exec .fdiv s = .next (s.divisionByZero 0) := by
  have hnone : fdiv s.a s.b = none := fdiv_eq_none.mpr h
  rw [exec, execFdiv, hnone]
  rfl

theorem exec_finv_of_zero {s : State} (h : s.a = 0) : exec .finv s = .next (s.divisionByZero 0) := by
  rw [exec, execFinv, if_pos h]
  rfl

/-- Settles O20: the values of `fadd`, `fsub` and `fmul`. -/
theorem faddFsubFmulComputeModulo251 : Obligations.FaddFsubFmulComputeModulo251 :=
  ⟨⟨rfl, fun s => ⟨fadd s.a s.b, fadd_val_eq_ite s.a s.b, fadd_val s.a s.b,
      exec_of_committed_withR (i := .fadd) rfl⟩⟩,
    ⟨rfl, fun s => ⟨fsub s.a s.b, fsub_val s.a s.b, normInt_val _, exec_of_committed_withR (i := .fsub) rfl⟩⟩,
    ⟨rfl, fun s => ⟨fmul s.a s.b, fmul_val s.a s.b, exec_of_committed_withR (i := .fmul) rfl⟩⟩⟩

/-- Settles O21: for a nonzero divisor the product with its inverse is the quotient of the field. -/
theorem fdivDividesOrRaises : Obligations.FdivDividesOrRaises := by
  refine ⟨rfl, fun s hb => ?_, fun s hb => exec_fdiv_of_zero hb⟩
  have hq : fdiv s.a s.b = some (fmul s.a (inverse s.b)) := if_neg hb
  obtain ⟨-, hquot⟩ := fdiv_eq_some.mp hq
  refine ⟨fmul s.a (inverse s.b), ?_, ?_, exec_of_committed_withR (i := .fdiv) ⟨_, hq, rfl⟩⟩
  · rw [fmul_val, inverse_val]
  · have hback : fmul (fmul s.a (inverse s.b)) s.b = s.a := feZ_injective ((feZ_fmul _ _).trans hquot)
    rw [← fmul_val, hback]

/-- Settles O22: square and multiply is the power, whose exponent Fermat's little theorem reduces. -/
theorem fpowRaisesToThePower : Obligations.FpowRaisesToThePower :=
  ⟨rfl, fun s => ⟨fpow s.a s.e, fpow_val s.a s.e, fun ha => fpow_val_of_ne_zero ha s.e,
    exec_of_committed_withR (i := .fpow) rfl⟩⟩

/-- Settles O23: `FINV` reads the word of the ROM, and that word is the inverse. -/
theorem finvInvertsOrRaises : Obligations.FinvInvertsOrRaises := by
  refine ⟨rfl, fun s ha => ⟨inverse s.a, inverse_val s.a, ?_, ?_⟩, fun s ha => exec_finv_of_zero ha⟩
  · rw [mul_comm, inverse_mul_val ha]
  · exact exec_of_committed_withR (i := .finv) ⟨ha, rfl⟩

/-- Settles O24: the flag is the comparison of the two values. -/
theorem feqComparesTheOperands : Obligations.FeqComparesTheOperands := by
  refine ⟨rfl, fun s => ?_⟩
  rw [← feq_eq_decide]
  exact exec_of_committed (i := .feq) rfl

end Sys2Proof.Machine
end

section
/-! PROOFS. The statements about polynomials (41_polynomial.md): what each polynomial command computes and when it
raises, and what abscissae that interpolation does not accept do to every command that interpolates. -/

namespace Sys2Proof.Machine

/-! ## Commands that raise -/

/-- Checks that all carry one subcode and do not pass report it. -/
theorem firstFailure_eq_some_of_ne_none {cs : List (Bool × Subcode)} {v : Subcode} (hv : ∀ c ∈ cs, c.2 = v)
    (h : firstFailure cs ≠ none) : firstFailure cs = some v := by
  rw [Ne, firstFailure_eq_none] at h
  simp only [not_forall, Bool.not_eq_false] at h
  obtain ⟨c, hc, hfails⟩ := h
  exact firstFailure_eq_some hv ⟨c, hc, hfails⟩

/-- A command whose checks fail raises `ValidationError` (R265). -/
theorem State.conclude_validate_fail (s : State) {cs : List (Bool × Subcode)} {v : Subcode}
    (h : firstFailure cs = some v) (k : Unit → Except Trap State) :
    s.conclude (validate cs >>= k) = .next (s.validationError v.code) := by
  rw [validate_fail h, State.conclude_error, State.raise_validation]

/-- A command whose checks pass raises what the computation after them raises (R265). -/
theorem State.conclude_validate_error (s : State) {cs : List (Bool × Subcode)} {k : Unit → Except Trap State}
    {trap : Trap} (h : firstFailure cs = none) (hk : k () = .error trap) :
    s.conclude (validate cs >>= k) = .next (s.raise trap) := by
  rw [validate_pass h, hk, State.conclude_error]

/-- A command whose checks pass and whose algorithm answers nothing raises `DivisionByZero` (R265). -/
theorem State.conclude_validate_orRaise_none (s : State) {α : Type} {cs : List (Bool × Subcode)} {o : Option α}
    {info : Nat} (h : firstFailure cs = none) (ho : o = none) (k : α → Except Trap State) :
    s.conclude (validate cs >>= fun _ => orRaise (.divisionByZero info) o >>= k) =
      .next (s.divisionByZero info) := by
  subst ho
  rw [validate_pass h]
  rfl

/-! ## Building, evaluating and comparing -/

theorem exec_pnew_of_bad_argument (s : State) {b len : Nat} (h : 1 < b ∨ len < 1 ∨ 8 < len) :
    exec (.pnew b len) s = .next (s.validationError 9) := by
  refine s.conclude_validate_fail (v := .vArg) (firstFailure_eq_some_of_ne_none (by simp) ?_) _
  rw [Ne, pnewGuard]
  omega

theorem Bank.load_nil (len : Nat) : Bank.load len [] = Bank.load len (List.replicate len 0) := by
  simp [Bank.load, elem]

/-- Settles O27: a bank loaded with no coefficients holds zeros below its length and beyond it. -/
theorem pnewBuildsTheZeroPolynomial : Obligations.PnewBuildsTheZeroPolynomial := by
  refine ⟨rfl, fun s len h1 h8 => ⟨Bank.load len [], ?_, ?_, ?_⟩, fun s b len h => exec_pnew_of_bad_argument s h⟩
  · have hlen : (List.replicate len (0 : FE)).length = len := List.length_replicate
    have hholds := Bank.load_holds (hlen.trans_le h8)
    rwa [hlen, ← Bank.load_nil] at hholds
  · exact exec_of_committed (i := .pnew 0 len) ⟨by omega, h1, h8, rfl⟩
  · exact exec_of_committed (i := .pnew 1 len) ⟨by omega, h1, h8, rfl⟩

/-- Settles O28: the Horner recurrence is the power sum. -/
theorem pevalComputesThePowerSum : Obligations.PevalComputesThePowerSum := by
  refine ⟨rfl, fun s => ⟨eval s.p0.poly s.a, eval_val _ _, ?_⟩, fun s => ⟨eval s.p1.poly s.a, eval_val _ _, ?_⟩,
    fun s b hb => ?_⟩
  · exact exec_of_committed_withR (i := .peval 0) ⟨by omega, rfl⟩
  · exact exec_of_committed_withR (i := .peval 1) ⟨by omega, rfl⟩
  · exact s.conclude_validate_fail ((bankChecks_spec b).1 hb) _

/-- What the comparison of two banks says (R147). -/
theorem Bank.sameAs_iff (p q : Bank) :
    p.sameAs q = true ↔ p.len = q.len ∧ ∀ i < p.len.toNat, elem p.c.toList i = elem q.c.toList i := by
  simp only [Bank.sameAs, Bool.and_eq_true, beq_iff_eq, List.all_eq_true, List.mem_range, feq_iff, elem]

/-- Settles O29: the flag is the comparison of the two banks. -/
theorem peqComparesLengthAndCoefficients : Obligations.PeqComparesLengthAndCoefficients :=
  ⟨rfl, fun s => ⟨s.p0.sameAs s.p1, Bank.sameAs_iff _ _, exec_of_committed (i := .peq) rfl⟩⟩

/-! ## The Lagrange basis value -/

theorem State.xs_eight (s : State) : s.xs 8 = s.x.toList := by simp [State.xs]

theorem exec_lag0_of_bad_argument (s : State) {i top : Nat} (h : top < 1 ∨ 8 < top ∨ top ≤ i) :
    exec (.lag0 i top) s = .next (s.validationError 9) := by
  refine s.conclude_validate_fail (v := .vArg) (firstFailure_eq_some_of_ne_none (by simp) ?_) _
  rw [Ne, lag0Guard]
  omega

theorem exec_lag0_of_none {s : State} {i top : Nat} (htop : top ≤ 8) (hi : i < top)
    (h : lag0 s.x.toList i top = none) : exec (.lag0 i top) s = .next (s.divisionByZero 0) := by
  rw [← s.xs_eight] at h
  exact s.conclude_validate_orRaise_none ((lag0Guard i top).mpr ⟨by omega, htop, hi⟩) h _

/-- Settles O30: the algorithm answers nothing exactly when another abscissa equals `X[i]`, and else the value of the
equation. -/
theorem lag0ComputesTheBasisValueAtZero : Obligations.Lag0ComputesTheBasisValueAtZero := by
  refine ⟨rfl, fun s i top htop hi hdistinct => ?_, fun s i top htop hi hequal => ?_,
    fun s i top h => exec_lag0_of_bad_argument s h⟩
  · obtain ⟨l, hl, hprod⟩ := (lag0_spec s.x.toList i top).2 hdistinct
    rw [← s.xs_eight] at hl
    exact ⟨l, hprod, exec_of_committed_withR (i := .lag0 i top) ⟨by omega, htop, hi, l, hl, rfl⟩⟩
  · exact exec_lag0_of_none htop hi ((lag0_spec s.x.toList i top).1 hequal)

/-! ## Interpolation -/

theorem State.elem_xs (s : State) {n i : Nat} (h : i < n) : elem (s.xs n) i = elem s.x.toList i := elem_take h

theorem State.elem_ys (s : State) {n i : Nat} (h : i < n) : elem (s.ys n) i = elem s.y.toList i := elem_take h

/-- The first `n` abscissae are accepted as numbers exactly when interpolation accepts them (R145). -/
theorem State.abscissaeOk_xs (s : State) (n : Nat) :
    abscissaeOk n (fun i => (elem s.x.toList i).val) ↔
      distinctBelow (s.xs n) n ∧ ∀ i, i + 1 < n → elem (s.xs n) i ≠ 0 :=
  abscissaeOk_iff fun _ hi => congrArg Fin.val (s.elem_xs hi)

/-- A list of coefficients takes the ordinates as power sums exactly when it takes them as values (R141). -/
theorem State.powerSum_points_iff (s : State) (n : Nat) (cs : List FE) :
    (∀ i < n, powerSum cs (elem s.x.toList i).val = (elem s.y.toList i).val) ↔
      ∀ i < n, eval cs (elem (s.xs n) i) = elem (s.ys n) i := by
  refine forall₂_congr fun i hi => ?_
  rw [powerSum_eq_iff, s.elem_xs hi, s.elem_ys hi]

/-- Settles O31: interpolation answers the only list through the points, and the bank is loaded with it. -/
theorem pinterpFindsTheUniquePolynomial : Obligations.PinterpFindsTheUniquePolynomial := by
  refine ⟨rfl, fun s h1 h8 hnpts hx => ?_⟩
  obtain ⟨hdistinct, hnonzero⟩ := (s.abscissaeOk_xs _).mp hx
  obtain ⟨cs, hcs, hlen, hvalues, hunique⟩ := interp_unique (ys := s.ys s.k.toNat) hdistinct hnonzero
  refine ⟨cs, Bank.load s.k.toNat cs, hlen, ?_, fun ds hds hpoints => ?_, ?_, ?_, ?_⟩
  · exact (s.powerSum_points_iff _ cs).mpr hvalues
  · exact hunique ds hds ((s.powerSum_points_iff _ ds).mp hpoints)
  · exact hlen ▸ Bank.load_holds (hlen ▸ h8)
  · exact exec_of_committed (i := .pinterp 0) ⟨by omega, h1, h8, hnpts, cs, hcs, rfl⟩
  · exact exec_of_committed (i := .pinterp 1) ⟨by omega, h1, h8, hnpts, cs, hcs, rfl⟩

/-- Points with abscissae that are not accepted end interpolation without an answer (R146). -/
theorem State.interp_points_eq_none {s : State} {n : Nat}
    (h : ¬ abscissaeOk n fun i => (elem s.x.toList i).val) : interp n (s.xs n) (s.ys n) = none := by
  rw [s.abscissaeOk_xs, not_and_or] at h
  refine interp_eq_none (h.imp_right fun hzero => ?_)
  simpa only [not_forall, not_not, exists_prop] using hzero

/-- Settles O32: the checks fail in their order, and interpolation raises on the abscissae it does not accept. -/
theorem pinterpRaisesOnBadArgumentsAndPoints : Obligations.PinterpRaisesOnBadArgumentsAndPoints := by
  refine ⟨fun s b hb => ?_, fun s b hb hpoints => ?_, fun s b hb h1 h8 hnpts hx => ?_⟩
  · refine s.conclude_validate_fail (v := .vArg) ?_ _
    rw [firstFailure_append, (bankChecks_spec b).1 hb, Option.some_or]
  · refine s.conclude_validate_fail (v := .vNpts) ?_ _
    rw [firstFailure_append, (bankChecks_spec b).2.mpr hb, Option.none_or, s.pointChecks_spec.1 hpoints]
  · have hnone : interp s.k.toNat (s.xs s.k.toNat) (s.ys s.k.toNat) = none := State.interp_points_eq_none hx
    exact s.conclude_validate_orRaise_none ((s.pinterpGuard b).mpr ⟨hb, h1, h8, hnpts⟩) hnone _

/-! ## Identifiers that interpolation does not accept -/

/-- They end the decoding of a plane at its first block (R207). -/
theorem State.decodeBlocks_badIds {s : State} (h : ¬ abscissaeOk s.k.toNat s.shareId) (hb : 0 < s.blocks)
    (shadows : List (List Byte)) : s.decodeBlocks shadows s.numBlocks 0 = .error (.divisionByZero 0) :=
  State.decodeBlocks_error (m := 0) s.numBlocks 0 hb (fun _ hi => absurd hi (Nat.not_lt_zero _))
    (State.decodeBlock_badIds (State.interpBlock_eq_none h shadows 0))

/-- Settles O44: no block interpolates, so each of the three commands raises at the first it comes to. -/
theorem badIdentifiersRaiseDivisionByZero : Obligations.BadIdentifiersRaiseDivisionByZero := by
  intro s hscheme hsel hids
  refine ⟨fun hblk => ?_, fun hb => ?_, fun hb hcap => ?_⟩
  · have hnone := State.interpBlock_eq_none hids s.storedShadows s.blk.toNat
    exact s.conclude_validate_orRaise_none (s.blkinterpGuard.mpr ⟨hscheme, hsel, hblk⟩) hnone _
  · refine s.conclude_validate_error (trap := .divisionByZero 0) (s.selectionGuard.mpr ⟨hscheme, hsel⟩) ?_
    rw [State.decodeBlocks_badIds hids hb]
    rfl
  · refine s.conclude_validate_error (trap := .divisionByZero 0) (s.recoverGuard.mpr ⟨hscheme, hsel, hcap⟩) ?_
    rw [State.decodeBlocks_badIds hids hb]
    rfl

end Sys2Proof.Machine
end

section
/-! PROOFS. The statements about the share encoder (42_share_encoder.md): what `BLKBUILD` and `ENCODE` compute, that
`DISTRIBUTE` is `ENCODE` and then `EMBED` of every slot, that the plane shared comes back from any `K` participants, and
in which order the share and embedding commands report what they check. -/

namespace Sys2Proof.Machine

/-! ## Checks that report -/

theorem firstFailure_append_left {cs : List (Bool × Subcode)} {v : Subcode} (h : firstFailure cs = some v)
    (ds : List (Bool × Subcode)) : firstFailure (cs ++ ds) = some v := by
  rw [firstFailure_append, h, Option.some_or]

theorem firstFailure_append_right {cs ds : List (Bool × Subcode)} {v : Subcode} (h : firstFailure cs = none)
    (h' : firstFailure ds = some v) : firstFailure (cs ++ ds) = some v := by
  rw [firstFailure_append, h, Option.none_or, h']

theorem State.schemeChecks_pass {s : State} (h : s.schemeOk) : firstFailure s.schemeChecks = none := by
  obtain ⟨-, -, -, hpass⟩ := s.schemeChecks_spec
  exact hpass.mpr h

/-- What `check_scheme()` reports, every share and embedding command reports (R171, R265). -/
theorem exec_of_schemeChecks_fail {s : State} {slot : Nat} (hslot : slot < s.params.nMax.val) {v : Subcode}
    (h : firstFailure s.schemeChecks = some v) :
    ∀ i ∈ [Instr.blkbuild, .encode, .distribute, .blkinterp, .decode, .recover, .embed slot, .extract slot],
      exec i s = .next (s.validationError v.code) := by
  have htwo : ∀ cs, firstFailure (s.schemeChecks ++ cs) = some v := firstFailure_append_left h
  have hthree : ∀ cs ds, firstFailure (s.schemeChecks ++ cs ++ ds) = some v := fun cs =>
    firstFailure_append_left (htwo cs)
  have hembedding : ∀ cs, firstFailure (s.slotArgChecks slot ++ s.schemeChecks ++ cs) = some v :=
    firstFailure_append_left (firstFailure_append_right ((s.slotArgChecks_spec slot).2.mpr hslot) h)
  simp only [List.forall_mem_cons]
  exact ⟨s.conclude_validate_fail (htwo _) _, s.conclude_validate_fail (htwo _) _,
    s.conclude_validate_fail (hthree _ _) _, s.conclude_validate_fail (hthree _ _) _,
    s.conclude_validate_fail (htwo _) _, s.conclude_validate_fail (hthree _ _) _,
    s.conclude_validate_fail (hembedding _) _, s.conclude_validate_fail (hembedding _) _, List.forall_mem_nil _⟩

/-- What `check_participants()` reports, `ENCODE` and `DISTRIBUTE` report after `check_scheme()` (R172, R265). -/
theorem exec_of_participantChecks_fail {s : State} (hs : s.schemeOk) {v : Subcode}
    (h : firstFailure s.participantChecks = some v) :
    ∀ i ∈ [Instr.encode, .distribute], exec i s = .next (s.validationError v.code) := by
  have htwo : firstFailure (s.schemeChecks ++ s.participantChecks) = some v :=
    firstFailure_append_right (State.schemeChecks_pass hs) h
  simp only [List.forall_mem_cons]
  exact ⟨s.conclude_validate_fail htwo _, s.conclude_validate_fail (firstFailure_append_left htwo _) _,
    List.forall_mem_nil _⟩

/-- What `check_selection()` reports, `BLKINTERP`, `DECODE` and `RECOVER` report after `check_scheme()` (R201, R265). -/
theorem exec_of_selectionChecks_fail {s : State} (hs : s.schemeOk) {v : Subcode}
    (h : firstFailure s.selectionChecks = some v) :
    ∀ i ∈ [Instr.blkinterp, .decode, .recover], exec i s = .next (s.validationError v.code) := by
  have htwo : firstFailure (s.schemeChecks ++ s.selectionChecks) = some v :=
    firstFailure_append_right (State.schemeChecks_pass hs) h
  simp only [List.forall_mem_cons]
  exact ⟨s.conclude_validate_fail (firstFailure_append_left htwo _) _, s.conclude_validate_fail htwo _,
    s.conclude_validate_fail (firstFailure_append_left htwo _) _, List.forall_mem_nil _⟩

/-- Settles O50: each clause is one report of `check_scheme()`. -/
theorem schemeChecksReportInOrder : Obligations.SchemeChecksReportInOrder := by
  intro s slot hslot i hi
  obtain ⟨hk, hsize, hdiv, -⟩ := s.schemeChecks_spec
  exact ⟨fun h => exec_of_schemeChecks_fail hslot (hk h) i hi,
    fun h h' => exec_of_schemeChecks_fail hslot (hsize h h') i hi,
    fun h h' h'' => exec_of_schemeChecks_fail hslot (hdiv h h' h'') i hi⟩

/-- Settles O51: `check_participants()` is a check of its own in the encoder and the first of `check_selection()` in the
decoder. -/
theorem coverChecksReportInOrder : Obligations.CoverChecksReportInOrder := by
  intro s hs
  obtain ⟨hncov, hsel, hdim, -⟩ := s.selectionChecks_spec
  refine ⟨fun h => ?_, fun i hi => ⟨fun h h' => ?_, fun h h' h'' => ?_⟩⟩
  · exact List.forall_mem_append.mpr
      ⟨exec_of_participantChecks_fail hs (s.participantChecks_spec.1 h), exec_of_selectionChecks_fail hs (hncov h)⟩
  · exact exec_of_selectionChecks_fail hs (hsel h h') i hi
  · exact exec_of_selectionChecks_fail hs (hdim h h' h'') i hi

/-- A selected cover that does not carry a shadow ends `RECOVER` (R208, R232). -/
theorem exec_recover_of_capacity {s : State} (hs : s.schemeOk) (hsel : s.selectionOk)
    (h : ∃ i < s.k.toNat, ¬ s.capacityOk (s.selAt i)) : exec .recover s = .next (s.validationError 7) := by
  obtain ⟨i, hi, hn⟩ := h
  have hfail := (State.capacityChecks_spec hs ((List.range s.k.toNat).map s.selAt)).1
    ⟨s.selAt i, List.mem_map_of_mem (List.mem_range.mpr hi), hn⟩
  rw [List.map_map] at hfail
  exact s.conclude_validate_fail (v := .vCap)
    (firstFailure_append_right (s.selectionGuard.mpr ⟨hs, hsel⟩) hfail) _

/-- A cover that does not carry a shadow ends `DISTRIBUTE` (R182, R232). -/
theorem exec_distribute_of_capacity {s : State} (hs : s.schemeOk) (hp : s.participantsOk)
    (h : ∃ slot < s.n.toNat, ¬ s.capacityOk slot) : exec .distribute s = .next (s.validationError 7) := by
  obtain ⟨slot, hslot, hn⟩ := h
  have hfail := (State.capacityChecks_spec hs (List.range s.n.toNat)).1 ⟨slot, List.mem_range.mpr hslot, hn⟩
  exact s.conclude_validate_fail (firstFailure_append_right (s.encodeGuard.mpr ⟨hs, hp⟩) hfail) _

/-- What the checks of `EMBED` and `EXTRACT` report, both report (R236, R237). -/
theorem exec_embedding_of_checks_fail {s : State} {slot : Nat} {v : Subcode}
    (h : firstFailure (s.slotArgChecks slot ++ s.schemeChecks ++ [s.capacityCheck slot]) = some v) :
    exec (.embed slot) s = .next (s.validationError v.code) ∧
      exec (.extract slot) s = .next (s.validationError v.code) :=
  ⟨s.conclude_validate_fail h _, s.conclude_validate_fail h _⟩

/-- Settles O52: in each command the check named fails and those before it pass. -/
theorem capacityBlockAndSlotChecks : Obligations.CapacityBlockAndSlotChecks := by
  refine ⟨fun s hs hp h => exec_distribute_of_capacity hs hp h, fun s hs hsel h => exec_recover_of_capacity hs hsel h,
    fun s slot hslot hs h => ?_, fun s hs h => ?_, fun s slot h => ?_⟩
  · have hcap : firstFailure [s.capacityCheck slot] = some .vCap :=
      (State.capacityChecks_spec hs [slot]).1 ⟨slot, List.mem_singleton_self slot, h⟩
    have hpass : firstFailure (s.slotArgChecks slot ++ s.schemeChecks) = none := by
      rw [firstFailure_append, (s.slotArgChecks_spec slot).2.mpr hslot, Option.none_or, State.schemeChecks_pass hs]
    exact exec_embedding_of_checks_fail (firstFailure_append_right hpass hcap)
  · have hblk := s.blockChecks_spec.1 h
    refine ⟨?_, fun hsel => ?_⟩
    · exact s.conclude_validate_fail (firstFailure_append_right (State.schemeChecks_pass hs) hblk) _
    · exact s.conclude_validate_fail (firstFailure_append_right (s.selectionGuard.mpr ⟨hs, hsel⟩) hblk) _
  · have harg := (s.slotArgChecks_spec slot).1 h
    exact exec_embedding_of_checks_fail (firstFailure_append_left (firstFailure_append_left harg _) _)

/-! ## Building a block and encoding the plane -/

/-- A command that commits two banks, `R` and the draw port writes these and `ERR` and nothing else (R180). -/
theorem exec_of_committed_block {i : Instr} {s : State} {port : DrawPort} {p q : Bank} {r : FE}
    (h : committed i s ((((s.withDrawPort port).withP0 p).withP1 q).withR r)) :
    exec i s = .next { s with p0 := p, p1 := q, r := r, drawPort := port, err := 0#3 } := by
  rw [exec_of_committed h]
  simp only [State.succeed, State.withR, State.withP1, State.withP0, State.withDrawPort]

/-- A bank loaded with a polynomial of length `K` holds it (R40, R171). -/
theorem State.load_holds {s : State} (hk : s.kOk) {cs : List FE} (h : cs.length = s.k.toNat) :
    (Bank.load s.k.toNat cs).holds cs := by
  rw [← h]
  exact Bank.load_holds (h.trans_le hk.2)

/-- Settles O33: `build_block` makes the two polynomials, and the banks are loaded with them. -/
theorem blkbuildBuildsBothPolynomials : Obligations.BlkbuildBuildsBothPolynomials := by
  refine ⟨rfl, ?_⟩
  intro s hs hblk px lead r
  have ⟨hk, _⟩ := hs
  obtain ⟨hflen, hglen, hf, hlead, hg⟩ := State.buildBlock_spec hk s.blk.toNat r
  refine ⟨_, _, _, _, hflen, hglen, hf, fun t ht => ?_, hg, State.load_holds hk hflen, State.load_holds hk hglen,
    exec_of_committed_block (i := .blkbuild) ⟨hs, hblk, rfl⟩⟩
  rw [hlead t ht]
  exact blinding_holds r (lead t)

/-- Settles O34: `ENCODE` commits the encoded state, in which the shadows of the participants alone are written. -/
theorem encodeWritesEveryShadow : Obligations.EncodeWritesEveryShadow := by
  refine ⟨rfl, ?_⟩
  intro s hs hp drawn
  obtain ⟨hregs, -, -, hbytes⟩ := State.encodeAll_spec hs hp
  refine ⟨_, exec_of_committed (i := .encode) ⟨hs, hp, rfl⟩, ?_, fun slot hslot b hb => ?_,
    fun sp slot i hr hn => ?_⟩
  · exact congrArg State.succeed hregs
  · exact State.encodeAll_shadow hs hp hslot hb
  · rw [State.shadowBytes_eq hs] at hn
    rw [State.succeed_byteAt, hbytes sp slot i hr, if_neg hn]

/-! ## Distributing as a run of commands -/

theorem execAll_cons {i : Instr} {is : List Instr} {s t : State} (h : exec i s = .next t) :
    execAll (i :: is) s = execAll is t := by
  rw [execAll, h]

theorem execAll_append {is js : List Instr} {s t : State} (h : execAll is s = .next t) :
    execAll (is ++ js) s = execAll js t := by
  induction is generalizing s with
  | nil =>
    cases h
    rfl
  | cons i is ih =>
    obtain ⟨u, hu⟩ := exec_answers i s
    rw [execAll_cons hu] at h
    rw [List.cons_append, execAll_cons hu, ih h]

/-- What a commit keeps decides `check_scheme()` (R171). -/
theorem State.Keeps.schemeOk {s u : State} (h : s.Keeps u) (hs : s.schemeOk) : u.schemeOk := by
  rw [h.registers]
  exact hs

/-- What a commit keeps decides `check_capacity` (R232). -/
theorem State.Keeps.capacityOk {s u : State} (h : s.Keeps u) {slot : Nat} (hc : s.capacityOk slot) :
    u.capacityOk slot := by
  obtain ⟨hw, hh⟩ := h.slotDims slot
  rw [State.capacityOk, hw, hh, h.registers]
  exact hc

theorem State.Keeps.selAt {s u : State} (h : s.Keeps u) (i : Nat) : u.selAt i = s.selAt i := by
  rw [h.registers]
  rfl

/-- What a commit keeps decides `check_selection()` (R201). -/
theorem State.Keeps.selectionOk {s u : State} (h : s.Keeps u) (hsel : s.selectionOk) : u.selectionOk := by
  obtain ⟨hp, hloaded, hdims⟩ := hsel
  refine ⟨by rw [h.registers]; exact hp, by rw [h.registers]; exact hloaded, fun i hi => ?_⟩
  rw [h.registers] at hi
  obtain ⟨hw, hh⟩ := h.slotDims (s.selAt i)
  obtain ⟨hw0, hh0⟩ := h.slotDims (s.selAt 0)
  rw [h.selAt, h.selAt, hw, hh, hw0, hh0]
  exact hdims i hi

/-- `EMBED 0`, ..., `EMBED n-1` one after the other embed the slots in turn (R182, R236). -/
theorem execAll_embed {s : State} (hs : s.schemeOk) (n : Nat) (hn : n ≤ s.params.nMax.val)
    (hcap : ∀ slot < n, s.capacityOk slot) :
    execAll ((List.range n).map Instr.embed) s.succeed = .next (s.embedSlots n).succeed := by
  induction n with
  | zero => rfl
  | succ n ih =>
    have hkeeps : s.Keeps (s.embedSlots n) := .foldl .embedSlot _ _
    have hslot : n < (s.embedSlots n).params.nMax.val := by
      rw [hkeeps.registers]
      exact hn
    have hembed : exec (.embed n) (s.embedSlots n).succeed = .next (s.embedSlots (n + 1)).succeed := by
      rw [State.embedSlots_succ]
      exact exec_of_committed (u := (s.embedSlots n).succeed.embedSlot n)
        ⟨hslot, hkeeps.schemeOk hs, hkeeps.capacityOk (hcap n (by omega)), rfl⟩
    rw [List.range_succ, List.map_append, execAll_append (ih (by omega) fun slot hslot => hcap slot (by omega))]
    exact execAll_cons hembed

/-- Distribution stamps the identifier of every participant (R182, R236). -/
theorem State.distributed_cid {s : State} (hp : s.participantsOk) (hlen : s.slots.length = s.params.nMax.val)
    {slot : Nat} (hslot : slot < s.n.toNat) :
    ((s.encodeAll.embedSlots s.n.toNat).slotRegs slot).cid = BitVec.ofNat 8 (slot + 1) := by
  obtain ⟨-, -, hslots⟩ := s.encodeAll.embedSlots_registers s.n.toNat
  have hcount : s.encodeAll.slots.length = s.params.nMax.val := (State.Keeps.encodeAll s).slotCount.trans hlen
  obtain ⟨-, -, hcid⟩ := hslots slot
  rw [hcid (hcount ▸ hslot.trans_le hp.2), if_pos hslot]

/-- Settles O35: both commit the encoded state with the slots embedded in turn, which writes the identifiers. -/
theorem distributeIsEncodeThenEmbed : Obligations.DistributeIsEncodeThenEmbed := by
  refine ⟨rfl, fun s hs hp hcap => ⟨_, exec_of_committed (i := .distribute) ⟨hs, hp, hcap, rfl⟩, rfl, ?_,
    fun hlen slot hslot => State.distributed_cid hp hlen hslot⟩⟩
  have hkeeps := State.Keeps.encodeAll s
  have hcount : s.n.toNat ≤ s.encodeAll.params.nMax.val := by
    rw [hkeeps.registers]
    exact hp.2
  rw [execAll_cons (exec_of_committed (i := .encode) ⟨hs, hp, rfl⟩)]
  exact execAll_embed (hkeeps.schemeOk hs) s.n.toNat hcount fun slot hslot => hkeeps.capacityOk (hcap slot hslot)

/-! ## Honest shares -/

/-- The polynomials of one block satisfy the cheating check with the value that blinds them (R175, R211). -/
theorem State.blinds_buildBlock {s : State} (hk : s.kOk) (b : Nat) (r : FE) :
    blinds (s.buildBlock b r).1 (s.buildBlock b r).2 r.val := by
  have h3 := hk.1
  obtain ⟨-, -, hf, hlead, -⟩ := State.buildBlock_spec hk b r
  have hequation : ∀ t < 2,
      (r.val * (elem (s.buildBlock b r).1 t).val + (elem (s.buildBlock b r).2 t).val) % 251 = 0 := by
    intro t ht
    rw [hf t (by omega), if_pos ht, hlead t ht]
    exact blinding_holds r _
  exact ⟨hequation 0 (by omega), hequation 1 (by omega)⟩

/-- Pixel `u` of block `b`, as `build_block` sees it, is pixel `b * (2K-2) + u` of the plane (R173, R184). -/
theorem State.sharedPixel_eq (s : State) {b u : Nat} (hu : u < 2 * s.k.toNat - 2) :
    s.sharedPixel (b * (2 * s.k.toNat - 2) + u) = (if u < 2 then remapZero (s.pixel b u) else s.pixel b u).val := by
  have hpx : (s.pixel b u).val = (s.byteAt .secret 0 (b * (2 * s.k.toNat - 2) + u)).toNat % 251 := normByte_val _
  have hzero : (s.pixel b u).val = 0 ↔ s.pixel b u = 0 := Fin.val_eq_zero_iff
  have hmod : (b * (2 * s.k.toNat - 2) + u) % (2 * s.k.toNat - 2) = u := by
    rw [Nat.mul_comm, Nat.mul_add_mod, Nat.mod_eq_of_lt hu]
  simp only [State.sharedPixel, hmod, ← hpx, hzero, remapZero]
  by_cases h2 : u < 2
  · by_cases h0 : s.pixel b u = 0 <;> simp [h2, h0]
  · simp [h2]

/-- Reassembling the polynomials of a block gives its pixels as R184 says (R179, R206). -/
theorem State.reassembled_buildBlock {s : State} (hk : s.kOk) (b : Nat) (r : FE) {u : Nat}
    (hu : u < 2 * s.k.toNat - 2) :
    (reassembled s.k.toNat (s.buildBlock b r).1 (s.buildBlock b r).2 u).val =
      s.sharedPixel (b * (2 * s.k.toNat - 2) + u) := by
  have h3 := hk.1
  obtain ⟨-, -, hf, -, hg⟩ := State.buildBlock_spec hk b r
  rw [s.sharedPixel_eq hu, reassembled]
  split
  · next hlt => rw [hf u hlt]
  · next hge =>
    rw [hg _ (by omega) (by omega), if_neg (by omega), show s.k.toNat + (u - s.k.toNat + 2) - 2 = u by omega]

/-- The selected shares of `t` are honest ones of the plane of `s`: they are of distinct participants under their own
identifiers, and the two bytes of each block are the values of the block's polynomials (R176, R202, R211). -/
structure State.HonestShares (s t : State) (share : Nat → Nat → Nat) : Prop where
  threshold : t.k = s.k
  planeLength : t.npix = s.npix
  distinct : ∀ i < s.k.toNat, ∀ j < s.k.toNat, j ≠ i → t.selAt j ≠ t.selAt i
  ids : ∀ i < s.k.toNat, t.shareId i = t.selAt i + 1
  bytes : ∃ r : Nat → FE, ∀ b < s.blocks, ∀ i < s.k.toNat,
    share i (2 * b) = powerSum (s.buildBlock b (r b)).1 (t.selAt i + 1) ∧
      share i (2 * b + 1) = powerSum (s.buildBlock b (r b)).2 (t.selAt i + 1)

/-- Identifiers of distinct participants are abscissae that interpolation accepts (R145, R202). -/
theorem State.HonestShares.abscissaeOk {s t : State} {share : Nat → Nat → Nat} (h : s.HonestShares t share) :
    abscissaeOk t.k.toNat t.shareId := by
  rw [h.threshold]
  refine ⟨fun i hi j hj hji => ?_, fun i hi => ?_⟩
  · rw [h.ids i hi, h.ids j hj]
    have := h.distinct i hi j hj hji
    omega
  · rw [h.ids i (by omega)]
    omega

theorem powerSum_mod (cs : List FE) (x : Nat) : powerSum cs x % 251 = powerSum cs x := Nat.mod_mod _ _

/-- The polynomials of the blocks pass through their honest shares (R202). -/
theorem State.HonestShares.blockIs {s t : State} {share : Nat → Nat → Nat} (h : s.HonestShares t share)
    (hk : s.kOk) :
    ∃ r : Nat → FE, ∀ b < s.blocks, t.blockIs share b (s.buildBlock b (r b)).1 (s.buildBlock b (r b)).2 := by
  obtain ⟨r, hr⟩ := h.bytes
  refine ⟨r, fun b hb => ?_⟩
  obtain ⟨hflen, hglen, -⟩ := State.buildBlock_spec hk b (r b)
  rw [← h.threshold] at hflen hglen
  refine ⟨⟨hflen, fun i hi => ?_⟩, ⟨hglen, fun i hi => ?_⟩⟩ <;> rw [h.threshold] at hi
  · simp only [h.ids i hi, (hr b hb i hi).1, powerSum_mod]
  · simp only [h.ids i hi, (hr b hb i hi).2, powerSum_mod]

/-- Blocks whose shares are those of polynomials that pass the cheating check decode to their reassembly (R206,
R207). -/
theorem State.decodeBlocks_of_blockIs {s : State} {shadows : List (List Byte)} {share : Nat → Nat → Nat}
    {f g : Nat → List FE} (hk : s.kOk) (hshares : sharesAre s shadows share)
    (hids : 0 < s.blocks → abscissaeOk s.k.toNat s.shareId)
    (hblocks : ∀ b < s.blocks, s.blockIs share b (f b) (g b) ∧ ∃ r < 251, blinds (f b) (g b) r) :
    ∃ plane, s.decodeBlocks shadows s.numBlocks 0 = .ok plane ∧ plane.length = s.blocks * (2 * s.k.toNat - 2) ∧
      ∀ b < s.blocks, ∀ u < 2 * s.k.toNat - 2,
        elem plane (b * (2 * s.k.toNat - 2) + u) = reassembled s.k.toNat (f b) (g b) u := by
  have h3 := hk.1
  have hsize : s.k.toNat + (s.k.toNat - 2) = 2 * s.k.toNat - 2 := by omega
  have hdecode : ∀ b < s.blocks, s.decodeBlock shadows b = .ok (reassemble (f b) (g b)) := by
    intro b hb
    obtain ⟨hblock, hblinds⟩ := hblocks b hb
    exact State.decodeBlock_ok (State.interpBlock_eq_some (hids (by omega)) hshares hb hblock) hblinds
  have hrun := State.decodeBlocks_ok (out := fun b => reassemble (f b) (g b)) s.blocks 0 fun b hb => by
    rw [Nat.zero_add]
    exact hdecode b hb
  have hlen : ∀ b < s.blocks, (reassemble (f b) (g b)).length = 2 * s.k.toNat - 2 := fun b hb =>
    (State.decodeBlock_length (hdecode b hb)).trans hsize
  refine ⟨_, hrun, (State.decodeBlocks_length _ _ hrun).trans (by rw [hsize]), fun b hb u hu => ?_⟩
  obtain ⟨⟨⟨hflen, -⟩, -⟩, -⟩ := hblocks b hb
  rw [← elem_reassemble hflen]
  exact getD_flatMap_range 0 (fun b => reassemble (f b) (g b)) hlen hb hu

/-- Every pixel of the plane is a pixel of one of its blocks (R5, R173). -/
theorem State.exists_block_of_pixel {s : State} (hs : s.schemeOk) {a : Nat} (ha : a < s.npix.toNat) :
    ∃ b < s.blocks, ∃ u < 2 * s.k.toNat - 2, b * (2 * s.k.toNat - 2) + u = a := by
  obtain ⟨⟨h3, -⟩, -, hdiv⟩ := hs
  rw [State.npix_eq hdiv, Nat.mul_comm] at ha
  exact ⟨_, Nat.div_lt_of_lt_mul ha, _, Nat.mod_lt a (by omega), Nat.div_add_mod' a _⟩

/-- Honest shares decode to the plane shared, each pixel as R184 says (R184, R211). -/
theorem State.HonestShares.decodeBlocks {s t : State} {share : Nat → Nat → Nat} (h : s.HonestShares t share)
    (hs : s.schemeOk) {shadows : List (List Byte)} (hshares : sharesAre t shadows share) :
    ∃ plane, t.decodeBlocks shadows t.numBlocks 0 = .ok plane ∧ plane.length = s.npix.toNat ∧
      ∀ a < s.npix.toNat, (elem plane a).val = s.sharedPixel a := by
  have ⟨hk, _, hdiv⟩ := hs
  have hk' : t.kOk := by
    rw [State.kOk, h.threshold]
    exact hk
  have hblocks : t.blocks = s.blocks := by rw [State.blocks, State.blocks, h.threshold, h.planeLength]
  obtain ⟨r, hr⟩ := h.blockIs hk
  obtain ⟨plane, hrun, hlen, hpixels⟩ := State.decodeBlocks_of_blockIs (f := fun b => (s.buildBlock b (r b)).1)
    (g := fun b => (s.buildBlock b (r b)).2) hk' hshares (fun _ => h.abscissaeOk)
    fun b hb => ⟨hr b (hblocks ▸ hb), (r b).val, (r b).isLt, State.blinds_buildBlock hk b (r b)⟩
  rw [h.threshold, hblocks] at hlen hpixels
  refine ⟨plane, hrun, hlen.trans (State.npix_eq hdiv).symm, fun a ha => ?_⟩
  obtain ⟨b, hb, u, hu, rfl⟩ := State.exists_block_of_pixel hs ha
  rw [hpixels b hb u hu, State.reassembled_buildBlock hk b (r b) hu]

/-- A pixel of a committed plane (R207). -/
theorem State.commitPlane_pixel {s : State} {plane : List FE} (hl : plane.length ≤ s.params.secretDepth.val) {a : Nat}
    (ha : a < plane.length) : ((s.commitPlane plane).byteAt .secret 0 a).toNat = (elem plane a).val := by
  obtain ⟨-, -, -, hbytes⟩ := State.commitPlane_spec hl
  rw [hbytes .secret 0 a (by rw [inRange_secret]; omega), if_pos ⟨rfl, ha⟩, feByte_toNat]

/-- The identifier of a participant is below 251, so that it is its own residue (R177, R202). -/
theorem State.shareId_of_cid {s : State} {i : Nat} (h : s.selAt i < s.params.nMax.val)
    (hcid : (s.slotRegs (s.selAt i)).cid = BitVec.ofNat 8 (s.selAt i + 1)) : s.shareId i = s.selAt i + 1 := by
  have := s.params.nMax.isLt
  rw [State.shareId, hcid, BitVec.toNat_ofNat]
  omega

/-- Ending with outcome 0 leaves honest shares what they are. -/
theorem State.HonestShares.succeed {s t : State} {share : Nat → Nat → Nat} (h : s.HonestShares t share) :
    s.HonestShares t.succeed share :=
  ⟨h.threshold, h.planeLength, h.distinct, h.ids, h.bytes⟩

/-- A commit after which the selected slots have their own identifiers, and shares that are values of the blocks'
polynomials, leaves honest shares. -/
theorem State.Keeps.honestShares {s u : State} {port : DrawPort} {share : Nat → Nat → Nat} {r : Nat → FE}
    (h : (s.withDrawPort port).Keeps u) (hp : s.participantsOk) (hloaded : s.selLoaded)
    (hdistinct : ∀ i < s.k.toNat, ∀ j < s.k.toNat, j ≠ i → s.selAt j ≠ s.selAt i)
    (hcid : ∀ i < s.k.toNat, (u.slotRegs (s.selAt i)).cid = BitVec.ofNat 8 (s.selAt i + 1))
    (hbytes : ∀ b < s.blocks, ∀ i < s.k.toNat,
      share i (2 * b) = powerSum (s.buildBlock b (r b)).1 (s.selAt i + 1) ∧
        share i (2 * b + 1) = powerSum (s.buildBlock b (r b)).2 (s.selAt i + 1)) : s.HonestShares u share := by
  have hsel : ∀ i, u.selAt i = s.selAt i := h.selAt
  have hpar : u.params = s.params := by
    rw [h.registers]
    rfl
  refine ⟨?_, ?_, ?_, fun i hi => State.shareId_of_cid ?_ ?_, r, ?_⟩
  · rw [h.registers]
    rfl
  · rw [h.registers]
    rfl
  · simpa only [hsel] using hdistinct
  · rw [hsel, hpar]
    exact Nat.lt_of_lt_of_le (hloaded i hi) hp.2
  · rw [hsel]
    exact hcid i hi
  · simpa only [hsel] using hbytes

/-! ## The scheme over shadows -/

/-- What encoding leaves in the shadows are honest shares (R176, R211). -/
theorem State.encodeAll_honestShares {s : State} (hs : s.schemeOk) (hsel : s.selectionOk)
    (hdistinct : ∀ i < s.k.toNat, ∀ j < s.k.toNat, j ≠ i → s.selAt j ≠ s.selAt i)
    (hcid : ∀ i < s.k.toNat, (s.slotRegs (s.selAt i)).cid = BitVec.ofNat 8 (s.selAt i + 1)) :
    s.HonestShares s.encodeAll s.encodeAll.storedByte := by
  obtain ⟨hp, hloaded, -⟩ := hsel
  have hkeeps := State.Keeps.encodeAll s
  obtain ⟨hregs, -⟩ := State.encodeAll_spec hs hp
  have hslots : ∀ slot, s.encodeAll.slotRegs slot = s.slotRegs slot := fun slot => by
    rw [hregs]
    rfl
  refine hkeeps.honestShares (r := elem (DrawPort.drawMany s.blocks s.drawPort).1) hp hloaded hdistinct
    (by simpa only [hslots] using hcid) fun b hb i hi => ?_
  have hsel : s.encodeAll.selAt i = s.selAt i := hkeeps.selAt i
  rw [State.storedByte, State.storedByte, hsel]
  exact State.encodeAll_shadow hs hp (hloaded i hi) hb

/-- Settles O48: what encoding leaves in the shadows are honest shares, and those decode to the plane. -/
theorem encodeThenDecodeRestoresThePlane : Obligations.EncodeThenDecodeRestoresThePlane := by
  intro s hs hsel hdistinct hcid
  have hkeeps := State.Keeps.encodeAll s
  have hs' : s.encodeAll.succeed.schemeOk := hkeeps.schemeOk hs
  have hsel' : s.encodeAll.succeed.selectionOk := hkeeps.selectionOk hsel
  have hencode : exec .encode s = .next s.encodeAll.succeed := exec_of_committed ⟨hs, hsel.1, rfl⟩
  obtain ⟨plane, hplane, hlen, hpixels⟩ :=
    (State.encodeAll_honestShares hs hsel hdistinct hcid).succeed.decodeBlocks hs (State.storedShadows_are _)
  have hdecode : exec .decode s.encodeAll.succeed = .next (s.encodeAll.succeed.commitPlane plane).succeed :=
    exec_of_committed ⟨hs', hsel', plane, hplane, rfl⟩
  refine ⟨_, _, hencode, hdecode, rfl, fun a ha => ?_⟩
  rw [State.succeed_byteAt, State.commitPlane_pixel (State.decodedPlane_length_le hs' hplane) (hlen ▸ ha),
    hpixels a ha]

/-! ## The scheme over covers -/

/-- The width of a group, and how many make up a byte (R230). -/
theorem State.bitsPerPixel_cases (s : State) :
    (s.bitsPerPixel = 4 ∧ s.pixelsPerByte = 2) ∨ (s.bitsPerPixel = 2 ∧ s.pixelsPerByte = 4) := by
  unfold State.bitsPerPixel State.pixelsPerByte
  split
  · exact .inl ⟨rfl, rfl⟩
  · exact .inr ⟨rfl, rfl⟩

/-- A cover whose pixels carry in their low bits the groups of a byte carries that byte (R233, R234). -/
theorem State.carriedByte_eq {s : State} {slot q : Nat} {v : Byte}
    (h : ∀ g < s.pixelsPerByte, (s.byteAt .cover slot (q * s.pixelsPerByte + g)).toNat % 2 ^ s.bitsPerPixel =
      v.toNat / 2 ^ (8 - s.bitsPerPixel * (g + 1)) % 2 ^ s.bitsPerPixel) : s.carriedByte slot q = v.toNat := by
  have hv := v.isLt
  have hgroups : s.carriedByte slot q = ((List.range s.pixelsPerByte).map fun g =>
      v.toNat / 2 ^ (8 - s.bitsPerPixel * (g + 1)) % 2 ^ s.bitsPerPixel *
        2 ^ (8 - s.bitsPerPixel * (g + 1))).sum := by
    refine congrArg List.sum (List.map_congr_left fun g hg => ?_)
    rw [h g (List.mem_range.mp hg)]
  rw [hgroups]
  rcases s.bitsPerPixel_cases with ⟨hw, hp⟩ | ⟨hw, hp⟩ <;> rw [hw, hp]
  · simp only [List.range, List.range.loop, List.map, List.sum_cons, List.sum_nil]
    omega
  · simp only [List.range, List.range.loop, List.map, List.sum_cons, List.sum_nil]
    omega

/-- Distribution is a commit of results, once its draws are taken (R50, R182). -/
theorem State.Keeps.distributed (s : State) :
    (s.withDrawPort (DrawPort.drawMany s.numBlocks s.drawPort).2).Keeps (s.encodeAll.embedSlots s.n.toNat) :=
  (State.Keeps.encodeAll s).trans (.foldl .embedSlot _ _)

section
variable {s : State} (hs : s.schemeOk) (hp : s.participantsOk) (hcap : ∀ slot < s.n.toNat, s.capacityOk slot)
include hs hp hcap

/-- A participant's cover carries the participant's shadow after distribution (R182, R234). -/
theorem State.distributed_carried {slot q : Nat} (hslot : slot < s.n.toNat) (hq : q < s.shadowBytes) :
    (s.encodeAll.embedSlots s.n.toNat).carriedByte slot q =
      ((s.encodeAll.embedSlots s.n.toNat).byteAt .shadow slot q).toNat := by
  have hk : (s.encodeAll.embedSlots s.n.toNat).k = s.k := by
    rw [(State.Keeps.distributed s).registers]
    rfl
  have hbits : (s.encodeAll.embedSlots s.n.toNat).bitsPerPixel = s.bitsPerPixel := by
    rw [State.bitsPerPixel, State.bitsPerPixel, hk]
  have hpixels : (s.encodeAll.embedSlots s.n.toNat).pixelsPerByte = s.pixelsPerByte := by
    rw [State.pixelsPerByte, State.pixelsPerByte, hk]
  refine State.carriedByte_eq fun g hg => ?_
  rw [hpixels] at hg
  rw [hbits, hpixels, State.distributed_cover hs hp hslot (hcap slot hslot) hq hg, Nat.mul_add_mod_self_right,
    Nat.mod_mod]

/-- The two bytes of a block that a participant's cover carries after distribution (R176, R182). -/
theorem State.distributed_block {slot b : Nat} (hslot : slot < s.n.toNat) (hb : b < s.blocks) :
    let fg := s.buildBlock b (elem (DrawPort.drawMany s.blocks s.drawPort).1 b)
    (s.encodeAll.embedSlots s.n.toNat).carriedByte slot (2 * b) = powerSum fg.1 (slot + 1) ∧
      (s.encodeAll.embedSlots s.n.toNat).carriedByte slot (2 * b + 1) = powerSum fg.2 (slot + 1) := by
  have hlen := State.shadowBytes_eq hs
  have hshadow : ∀ q < s.shadowBytes, (s.encodeAll.embedSlots s.n.toNat).carriedByte slot q =
      (s.encodeAll.byteAt .shadow slot q).toNat := by
    intro q hq
    have hr : inRange s.params .shadow slot q = true := by
      have := State.shadowBytes_le hs
      have := hp.2
      rw [inRange_shadow]
      omega
    rw [State.distributed_carried hs hp hcap hslot hq,
      State.distributed_byteAt hs hp (State.coverUsed_le hs (hcap slot hslot)) hr, if_neg (by simp)]
  rw [hshadow _ (by omega), hshadow _ (by omega)]
  exact State.encodeAll_shadow hs hp hslot hb

end

/-- What distribution leaves in the covers are honest shares (R182, R211). -/
theorem State.distributed_honestShares {s : State} (hlen : s.slots.length = s.params.nMax.val) (hs : s.schemeOk)
    (hsel : s.selectionOk) (hcap : ∀ slot < s.n.toNat, s.capacityOk slot)
    (hdistinct : ∀ i < s.k.toNat, ∀ j < s.k.toNat, j ≠ i → s.selAt j ≠ s.selAt i) :
    s.HonestShares (s.encodeAll.embedSlots s.n.toNat) fun i q =>
      (s.encodeAll.embedSlots s.n.toNat).carriedByte ((s.encodeAll.embedSlots s.n.toNat).selAt i) q := by
  obtain ⟨hp, hloaded, -⟩ := hsel
  have hkeeps := State.Keeps.distributed s
  refine hkeeps.honestShares (r := elem (DrawPort.drawMany s.blocks s.drawPort).1) hp hloaded hdistinct
    (fun i hi => State.distributed_cid hp hlen (hloaded i hi)) fun b hb i hi => ?_
  have hselAt : (s.encodeAll.embedSlots s.n.toNat).selAt i = s.selAt i := hkeeps.selAt i
  rw [hselAt]
  exact State.distributed_block hs hp hcap (hloaded i hi) hb

/-- Settles O49: what distribution leaves in the covers are honest shares, and those decode to the plane. -/
theorem distributeThenRecoverRestoresThePlane : Obligations.DistributeThenRecoverRestoresThePlane := by
  rintro s ⟨-, hslots, -⟩ hs hsel hcap hdistinct
  have ⟨hp, hloaded, _⟩ := hsel
  have hkeeps := State.Keeps.distributed s
  have hdistribute : exec .distribute s = .next (s.encodeAll.embedSlots s.n.toNat).succeed :=
    exec_of_committed ⟨hs, hp, hcap, rfl⟩
  have hhonest := (State.distributed_honestShares hslots hs hsel hcap hdistinct).succeed
  generalize s.encodeAll.embedSlots s.n.toNat = t at hkeeps hdistribute hhonest
  have hs' : t.succeed.schemeOk := hkeeps.schemeOk hs
  have hsel' : t.succeed.selectionOk := hkeeps.selectionOk hsel
  have hcap' : ∀ i < t.succeed.k.toNat, t.succeed.capacityOk (t.succeed.selAt i) := by
    intro i hi
    rw [hhonest.threshold] at hi
    have hselAt : t.succeed.selAt i = s.selAt i := hkeeps.selAt i
    rw [hselAt]
    exact hkeeps.capacityOk (hcap _ (hloaded i hi))
  obtain ⟨plane, hplane, hlen, hpixels⟩ := hhonest.decodeBlocks hs (State.carriedShadows_are hs'.1)
  have hfits : plane.length ≤ (t.succeed.storeShadows t.succeed.carriedShadows 0).params.secretDepth.val := by
    rw [(State.Keeps.storeShadows ..).registers]
    exact State.decodedPlane_length_le hs' hplane
  refine ⟨_, _, hdistribute, exec_of_committed (i := .recover) ⟨hs', hsel', hcap', plane, hplane, rfl⟩, rfl,
    fun a ha => ?_⟩
  rw [State.succeed_byteAt, State.commitPlane_pixel hfits (hlen ▸ ha), hpixels a ha]

end Sys2Proof.Machine
end

section
/-! PROOFS. The statements about the share decoder (43_share_decoder.md): that `BLKINTERP` finds the polynomials of a
block and `CHEAT` the least blinding value, that `DECODE` and `RECOVER` reassemble the plane or report the lowest forged
block, and that `RECOVER` is `EXTRACT` of every selected slot and then `DECODE`. -/

namespace Sys2Proof.Machine

/-! ## Interpolating one block -/

/-- Under identifiers that interpolation accepts, the pair of polynomials interpolated is the only one that passes
through the shares of the block (R145, R203). -/
theorem State.interpBlock_unique {s : State} {shadows : List (List Byte)} {share : Nat → Nat → Nat} {b : Nat}
    (hids : abscissaeOk s.k.toNat s.shareId) (hshares : sharesAre s shadows share) (hb : b < s.blocks) :
    ∃ f g, s.interpBlock shadows b = some (f, g) ∧ s.blockIs share b f g ∧
      ∀ f' g', s.blockIs share b f' g' → f' = f ∧ g' = g := by
  have hlen : s.shadowLen = 2 * s.blocks := rfl
  obtain ⟨f, -, hf⟩ := State.passes_of_interp hids hshares (q := 2 * b) (by omega)
  obtain ⟨g, -, hg⟩ := State.passes_of_interp hids hshares (q := 2 * b + 1) (by omega)
  have hfg := State.interpBlock_eq_some hids hshares hb ⟨hf, hg⟩
  refine ⟨f, g, hfg, ⟨hf, hg⟩, fun f' g' h => ?_⟩
  have hfg' := State.interpBlock_eq_some hids hshares hb h
  rw [hfg] at hfg'
  cases hfg'
  exact ⟨rfl, rfl⟩

/-- Settles O40: the banks are loaded with the only pair of polynomials through the shares. -/
theorem blkinterpInterpolatesBothPolynomials : Obligations.BlkinterpInterpolatesBothPolynomials := by
  refine ⟨rfl, fun s hs hsel hblk hids => ?_⟩
  have ⟨hk, _⟩ := hs
  obtain ⟨f, g, hfg, hblock, hunique⟩ := State.interpBlock_unique hids s.storedShadows_are hblk
  have ⟨⟨hflen, _⟩, hglen, _⟩ := hblock
  exact ⟨f, g, _, _, hblock, hunique, State.load_holds hk hflen, State.load_holds hk hglen,
    exec_of_committed (i := .blkinterp) ⟨hs, hsel, hblk, (f, g), hfg, rfl⟩⟩

/-! ## The cheating check -/

/-- The check reads the two leading coefficients of each bank, which stand below a length of 2 or more (R204, R205). -/
theorem cheat_poly {p q : Bank} (hp : 2 ≤ p.len.toNat) (hq : 2 ≤ q.len.toNat) :
    cheat p.poly q.poly = cheat p.c.toList q.c.toList := by
  have hlead : ∀ {b : Bank} {i : Nat}, 2 ≤ b.len.toNat → i < 2 → elem b.poly i = elem b.c.toList i :=
    fun hb hi => elem_take (by omega)
  simp only [cheat, hlead hp, hlead hq, Nat.zero_lt_two, Nat.one_lt_two]

theorem exec_cheat_of_none {s : State} (hp : 2 ≤ s.p0.len.toNat) (hq : 2 ≤ s.p1.len.toNat)
    (h : cheat s.p0.poly s.p1.poly = none) : exec .cheat s = .next (s.cheatingDetected 0) := by
  refine s.conclude_validate_error (trap := .cheatingDetected 0) (s.cheatGuard.mpr ⟨hp, hq⟩) ?_
  rw [h]
  rfl

theorem exec_cheat_of_short_bank {s : State} (h : s.p0.len.toNat < 2 ∨ s.p1.len.toNat < 2) :
    exec .cheat s = .next (s.validationError 10) := by
  refine s.conclude_validate_fail (v := .vLen) (firstFailure_eq_some_of_ne_none (by simp) ?_) _
  rw [Ne, s.cheatGuard]
  omega

/-- Settles O41: the search answers the least blinding value, or nothing when there is none. -/
theorem cheatFindsTheLeastBlindingValue : Obligations.CheatFindsTheLeastBlindingValue := by
  refine ⟨rfl, fun s r hp hq hr hleast => ?_, fun s hp hq hnone => ?_, fun s h => exec_cheat_of_short_bank h⟩
  · have hfound := ((cheat_spec _ _).2 r).mpr ⟨hr, hleast⟩
    rw [← cheat_poly hp hq] at hfound
    exact exec_of_committed_withR (i := .cheat) ⟨hp, hq, r, hfound, rfl⟩
  · have hempty := (cheat_spec _ _).1.mpr hnone
    rw [← cheat_poly hp hq] at hempty
    exact exec_cheat_of_none hp hq hempty

/-! ## Forged blocks -/

/-- Decoding ends at the lowest block whose shares no blinding value fits (R204, R207). -/
theorem State.decodeBlocks_forged {s : State} {shadows : List (List Byte)} {share : Nat → Nat → Nat}
    {f g : Nat → List FE} {b : Nat} (hshares : sharesAre s shadows share) (hb : b < s.blocks)
    (hids : abscissaeOk s.k.toNat s.shareId) (hblocks : ∀ b' ≤ b, s.blockIs share b' (f b') (g b'))
    (hpass : ∀ b' < b, ∃ r < 251, blinds (f b') (g b') r) (hforged : ∀ r < 251, ¬ blinds (f b) (g b) r) :
    s.decodeBlocks shadows s.numBlocks 0 = .error (.cheatingDetected b) := by
  have hinterp : ∀ b' ≤ b, s.interpBlock shadows b' = some (f b', g b') := fun b' hb' =>
    State.interpBlock_eq_some hids hshares (by omega) (hblocks b' hb')
  refine State.decodeBlocks_error (m := b) s.numBlocks 0 hb (fun i hi => ?_) ?_ <;> rw [Nat.zero_add]
  · exact ⟨_, State.decodeBlock_ok (hinterp i hi.le) (hpass i hi)⟩
  · exact State.decodeBlock_forged (hinterp b le_rfl) hforged

/-- Settles O43: the stored shares end the decoding at the forged block. -/
theorem decodeReportsTheLowestForgedBlock : Obligations.DecodeReportsTheLowestForgedBlock := by
  intro s f g b hs hsel hb hids hblocks hpass hforged
  refine s.conclude_validate_error (trap := .cheatingDetected b) (s.selectionGuard.mpr ⟨hs, hsel⟩) ?_
  rw [State.decodeBlocks_forged s.storedShadows_are hb hids hblocks hpass hforged]
  rfl

/-- Settles O47: the carried shares end the decoding at the forged block, before anything is stored. -/
theorem recoverReportsTheLowestForgedBlock : Obligations.RecoverReportsTheLowestForgedBlock := by
  intro s f g b hs hsel hcap hb hids hblocks hpass hforged
  have ⟨hk, _⟩ := hs
  refine s.conclude_validate_error (trap := .cheatingDetected b) (s.recoverGuard.mpr ⟨hs, hsel, hcap⟩) ?_
  rw [State.decodeBlocks_forged (State.carriedShadows_are hk) hb hids hblocks hpass hforged]
  rfl

/-! ## Committing a reassembled plane -/

/-- What committing a plane of the blocks' reassemblies does, from a state `v` that has every register of `s` (R206,
R207, R209). -/
theorem State.commitPlane_reassembled {s v : State} {plane : List FE} {f g : Nat → List FE}
    (hv : v = { s with mem := v.mem }) (hs : s.schemeOk) (hlen : plane.length = s.blocks * (2 * s.k.toNat - 2))
    (hpixels : ∀ b < s.blocks, ∀ u < 2 * s.k.toNat - 2,
      elem plane (b * (2 * s.k.toNat - 2) + u) = reassembled s.k.toNat (f b) (g b) u) :
    (v.commitPlane plane).succeed = { s with
      mem := (v.commitPlane plane).succeed.mem
      outw := (s.slotRegs (s.selAt 0)).cw
      outh := (s.slotRegs (s.selAt 0)).ch
      err := 0#3 } ∧
    (∀ b < s.blocks, ∀ u < 2 * s.k.toNat - 2,
      ((v.commitPlane plane).succeed.byteAt .secret 0 (b * (2 * s.k.toNat - 2) + u)).toNat =
        (reassembled s.k.toNat (f b) (g b) u).val) ∧
    ∀ sp slot i, inRange s.params sp slot i = true → ¬ (sp = .secret ∧ i < s.npix.toNat) →
      (v.commitPlane plane).succeed.byteAt sp slot i = v.byteAt sp slot i := by
  have ⟨_, hsize, hdiv⟩ := hs
  have hnpix : plane.length = s.npix.toNat := hlen.trans (State.npix_eq hdiv).symm
  have hparams : v.params = s.params := by rw [hv]
  have hfits : plane.length ≤ v.params.secretDepth.val := by
    rw [hparams, hnpix]
    exact hsize
  obtain ⟨-, -, -, hbytes⟩ := State.commitPlane_spec hfits
  rw [hparams] at hbytes
  refine ⟨?_, fun b hb u hu => ?_, fun sp slot i hr hn => ?_⟩
  · rw [hv]
    rfl
  · have hin : b * (2 * s.k.toNat - 2) + u < plane.length := by
      have hblock : (b + 1) * (2 * s.k.toNat - 2) ≤ s.blocks * (2 * s.k.toNat - 2) := Nat.mul_le_mul_right _ hb
      rw [Nat.succ_mul] at hblock
      omega
    rw [State.succeed_byteAt, State.commitPlane_pixel hfits hin, hpixels b hb u hu]
  · rw [State.succeed_byteAt, hbytes sp slot i hr, hnpix, if_neg hn]

/-- Settles O42: the stored shares decode to the reassembled plane, which is committed. -/
theorem decodeReassemblesThePlane : Obligations.DecodeReassemblesThePlane := by
  refine ⟨rfl, fun s f g hs hsel hids hblocks => ?_⟩
  have ⟨hk, _⟩ := hs
  obtain ⟨plane, hplane, hlen, hpixels⟩ :=
    State.decodeBlocks_of_blockIs hk s.storedShadows_are hids hblocks
  exact ⟨_, exec_of_committed (i := .decode) ⟨hs, hsel, plane, hplane, rfl⟩,
    State.commitPlane_reassembled rfl hs hlen hpixels⟩

/-! ## Extracting the selected slots -/

/-- Storing one more shadow is a fill of the slot that comes next (R208). -/
theorem State.storeShadows_concat (s : State) (shadows : List (List Byte)) (sh : List Byte) (i : Nat) :
    s.storeShadows (shadows ++ [sh]) i =
      (s.storeShadows shadows i).fill .shadow (s.selAt (i + shadows.length)) sh := by
  induction shadows generalizing s i with
  | nil => rfl
  | cons first rest ih =>
    rw [List.cons_append, State.storeShadows, ih, State.fill_selAt, List.length_cons, Nat.add_right_comm,
      ← Nat.add_assoc]
    rfl

/-- The state with the shadows that the covers of the first `n` selected slots carry stored in order (R208). -/
def State.extractSlots (s : State) (n : Nat) : State :=
  s.storeShadows ((List.range n).map fun i => s.unpack (s.selAt i)) 0

/-- What `RECOVER` stores beside the plane (R208). -/
theorem State.extractSlots_threshold (s : State) : s.extractSlots s.k.toNat = s.storeShadows s.carriedShadows 0 := rfl

theorem State.extractSlots_succ (s : State) (n : Nat) :
    s.extractSlots (n + 1) = (s.extractSlots n).fill .shadow (s.selAt n) (s.unpack (s.selAt n)) := by
  rw [State.extractSlots, List.range_succ, List.map_append, List.map_singleton, State.storeShadows_concat,
    List.length_map, List.length_range, Nat.zero_add]
  rfl

theorem State.unpack_length {s : State} (hs : s.schemeOk) (slot : Nat) : (s.unpack slot).length = s.shadowBytes := by
  have ⟨hk, _, hdiv⟩ := hs
  rw [State.unpack, List.length_map, List.length_range, State.shadowLen_eq hk hdiv]

theorem State.selAt_lt_nMax {s : State} (hsel : s.selectionOk) {i : Nat} (hi : i < s.k.toNat) :
    s.selAt i < s.params.nMax.val := by
  obtain ⟨⟨-, hmax⟩, hloaded, -⟩ := hsel
  exact (hloaded i hi).trans_le hmax

/-- The bytes of the shadow of a selected slot exist (R65, R201). -/
theorem State.inRange_selected {s : State} (hs : s.schemeOk) (hsel : s.selectionOk) {i q : Nat} (hi : i < s.k.toNat)
    (hq : q < s.shadowBytes) : inRange s.params .shadow (s.selAt i) q = true :=
  (inRange_shadow _ _ _).mpr ⟨State.selAt_lt_nMax hsel hi, hq.trans_le (State.shadowBytes_le hs)⟩

/-- What extracting the first `n` selected slots does: the memory alone changes, the shadow of each of these slots is
what its cover carries, and every other byte is as before (R208, R234). -/
theorem State.extractSlots_spec {s : State} (hs : s.schemeOk) (hsel : s.selectionOk) {n : Nat} (hn : n ≤ s.k.toNat) :
    s.extractSlots n = { s with mem := (s.extractSlots n).mem } ∧
    ∀ sp slot a, inRange s.params sp slot a = true → (s.extractSlots n).byteAt sp slot a =
      if sp = .shadow ∧ (∃ j < n, slot = s.selAt j) ∧ a < s.shadowBytes then (s.unpack slot).getD a 0#8
      else s.byteAt sp slot a := by
  have hslots : ∀ j < n, s.selAt (0 + j) < s.params.nMax.val := fun j hj => by
    rw [Nat.zero_add]
    exact State.selAt_lt_nMax hsel (by omega)
  have hspec := State.storeShadows_spec s.unpack (State.unpack_length hs) (State.shadowBytes_le hs) n 0 hslots s rfl
  simp only [Nat.zero_add, ← List.range_eq_range'] at hspec
  obtain ⟨hregs, -, -, hbytes⟩ := hspec
  exact ⟨hregs, hbytes⟩

/-- A byte of an unpacked shadow (R234). -/
theorem State.unpack_getD (s : State) (slot : Nat) {q : Nat} (hq : q < s.shadowLen) :
    (s.unpack slot).getD q 0#8 = s.unpackByte slot q := by
  simp [State.unpack, hq]

/-- A byte of the shadow of a selected slot after extraction is the one its cover carries (R208, R234). -/
theorem State.extractSlots_shadow {s : State} (hs : s.schemeOk) (hsel : s.selectionOk) {i q : Nat}
    (hi : i < s.k.toNat) (hq : q < s.shadowBytes) :
    (s.extractSlots s.k.toNat).byteAt .shadow (s.selAt i) q = s.unpackByte (s.selAt i) q := by
  have ⟨hk, _, hdiv⟩ := hs
  obtain ⟨-, hbytes⟩ := State.extractSlots_spec hs hsel le_rfl
  rw [hbytes _ _ _ (State.inRange_selected hs hsel hi hq), if_pos ⟨rfl, ⟨i, hi, rfl⟩, hq⟩,
    State.unpack_getD _ _ (by rwa [State.shadowLen_eq hk hdiv])]

/-- Settles O46: the carried shares decode to the reassembled plane, which is committed after the shadows extracted. -/
theorem recoverReassemblesThePlane : Obligations.RecoverReassemblesThePlane := by
  refine ⟨rfl, fun s f g hs hsel hcap hids hblocks => ?_⟩
  have ⟨hk, _⟩ := hs
  obtain ⟨plane, hplane, hlen, hpixels⟩ :=
    State.decodeBlocks_of_blockIs hk (State.carriedShadows_are hk) hids hblocks
  obtain ⟨hextract, hbytes⟩ := State.extractSlots_spec hs hsel le_rfl
  obtain ⟨hregs, hplaneBytes, hother⟩ := State.commitPlane_reassembled hextract hs hlen hpixels
  refine ⟨_, exec_of_committed (i := .recover) ⟨hs, hsel, hcap, plane, hplane, rfl⟩, hregs, hplaneBytes,
    fun i hi q hq => ?_, fun sp slot i hr hn hn' => ?_⟩ <;> rw [← s.extractSlots_threshold]
  · rw [hother _ _ _ (State.inRange_selected hs hsel hi hq) (by simp), State.extractSlots_shadow hs hsel hi hq,
      State.unpackByte_toNat hk]
  · rw [hother _ _ _ hr hn, hbytes _ _ _ hr, if_neg hn']

/-! ## Recovering as a run of commands -/

/-- Covers that hold the same bytes unpack to the same shadow (R234). -/
theorem State.unpack_congr {s : State} {m : Memory} {slot : Nat}
    (h : ∀ i < s.coverUsed, State.byteAt { s with mem := m } .cover slot i = s.byteAt .cover slot i) :
    State.unpack { s with mem := m } slot = s.unpack slot := by
  refine List.map_congr_left fun q hq => List.foldl_ext _ _ _ fun sb t ht => ?_
  have hin : q * s.groupsPerByte + t < s.coverUsed := by
    have hbyte : (q + 1) * s.groupsPerByte ≤ s.shadowLen * s.groupsPerByte :=
      Nat.mul_le_mul_right _ (List.mem_range.mp hq)
    have hgroup : t < s.groupsPerByte := List.mem_range.mp ht
    rw [Nat.succ_mul] at hbyte
    exact (Nat.add_lt_add_left hgroup _).trans_le hbyte
  exact congrArg (fun c => (sb <<< s.groupWidth) ||| (c &&& s.groupMask)) (h _ hin)

/-- Decoding reads of the state nothing but the threshold and the identifiers of the selected slots (R202, R207). -/
theorem State.decodeBlocks_congr {s u : State} (hk : u.k = s.k) (hxs : u.shareXs = s.shareXs)
    (shadows : List (List Byte)) (n b : Nat) : u.decodeBlocks shadows n b = s.decodeBlocks shadows n b := by
  have hblock : ∀ b, u.decodeBlock shadows b = s.decodeBlock shadows b := fun b => by
    rw [State.decodeBlock, State.decodeBlock, State.interpBlock, State.interpBlock, hk, hxs]
  induction n generalizing b with
  | zero => rfl
  | succ n ih =>
    rw [State.decodeBlocks, State.decodeBlocks, hblock]
    simp only [ih]

/-- Extraction leaves every cover, so the slots extracted before do not change what a cover carries (R208, R237). -/
theorem State.extractSlots_unpack {s : State} (hs : s.schemeOk) (hsel : s.selectionOk) {n : Nat}
    (hn : n ≤ s.k.toNat) {slot : Nat} (hslot : slot < s.params.nMax.val) (hcap : s.capacityOk slot) :
    (s.extractSlots n).unpack slot = s.unpack slot := by
  obtain ⟨hregs, hbytes⟩ := State.extractSlots_spec hs hsel hn
  rw [hregs]
  refine State.unpack_congr fun i hi => ?_
  have hr : inRange s.params .cover slot i = true :=
    (inRange_cover _ _ _).mpr ⟨hslot, hi.trans_le (State.coverUsed_le hs hcap)⟩
  rw [← hregs, hbytes _ _ _ hr, if_neg (by simp)]

/-- After extraction the stored shadows are the ones the covers carry (R208). -/
theorem State.extractSlots_storedShadows {s : State} (hs : s.schemeOk) (hsel : s.selectionOk) :
    (s.extractSlots s.k.toNat).storedShadows = s.carriedShadows := by
  have ⟨hk, _, hdiv⟩ := hs
  obtain ⟨hregs, -⟩ := State.extractSlots_spec hs hsel le_rfl
  have hstored : (s.extractSlots s.k.toNat).storedShadows = (List.range s.k.toNat).map fun i =>
      (List.range s.shadowLen).map ((s.extractSlots s.k.toNat).byteAt .shadow (s.selAt i)) := by
    rw [hregs]
    rfl
  rw [hstored]
  refine List.map_congr_left fun i hi => List.map_congr_left fun q hq => ?_
  rw [List.mem_range] at hi hq
  exact State.extractSlots_shadow hs hsel hi (by rwa [← State.shadowLen_eq hk hdiv])

theorem State.Keeps.extractSlots (s : State) (n : Nat) : s.Keeps (s.extractSlots n) := .storeShadows s _ _

section
variable {s : State} (hs : s.schemeOk) (hsel : s.selectionOk)
include hs hsel

/-- `EXTRACT SEL[n]`, where the first `n` selected slots are extracted, whatever `ERR` then holds, extracts the next one
(R208, R237). -/
theorem exec_extract_next (hcap : ∀ i < s.k.toNat, s.capacityOk (s.selAt i)) {n : Nat} (hn : n < s.k.toNat) {v : State}
    (hv : v.succeed = (s.extractSlots n).succeed) :
    exec (.extract (s.selAt n)) v = .next (s.extractSlots (n + 1)).succeed := by
  have hkeeps : s.Keeps (s.extractSlots n) := .extractSlots s n
  have hslot := State.selAt_lt_nMax hsel hn
  have hparams : v.succeed.params = s.params := by
    rw [hv, State.succeed_params, hkeeps.registers]
    rfl
  have hs' : v.succeed.schemeOk := hv ▸ hkeeps.schemeOk hs
  have hcap' : v.succeed.capacityOk (s.selAt n) := hv ▸ hkeeps.capacityOk (hcap n hn)
  have hcommit : (v.succeed.fill .shadow (s.selAt n) (v.succeed.unpack (s.selAt n))).succeed =
      (s.extractSlots (n + 1)).succeed := by
    rw [State.extractSlots_succ, ← State.extractSlots_unpack hs hsel hn.le hslot (hcap n hn), hv]
    rfl
  rw [← hcommit]
  exact exec_of_committed (i := .extract _) (u := v.fill .shadow (s.selAt n) (v.unpack (s.selAt n)))
    ⟨hparams ▸ hslot, hs', hcap', rfl⟩

/-- `EXTRACT SEL[0]`, ..., `EXTRACT SEL[n]` one after the other extract these slots in order (R208, R237). -/
theorem execAll_extract (hcap : ∀ i < s.k.toNat, s.capacityOk (s.selAt i)) {n : Nat} (hn : n < s.k.toNat) :
    execAll ((List.range (n + 1)).map fun i => .extract (s.selAt i)) s = .next (s.extractSlots (n + 1)).succeed := by
  induction n with
  | zero => exact execAll_cons (exec_extract_next hs hsel hcap hn rfl)
  | succ n ih =>
    rw [List.range_succ, List.map_append, execAll_append (ih (by omega))]
    exact execAll_cons (exec_extract_next hs hsel hcap hn rfl)

/-- `DECODE` after the extraction of every selected slot commits the plane that the carried shares give (R207, R208). -/
theorem exec_decode_extracted {plane : List FE} (h : s.decodeBlocks s.carriedShadows s.numBlocks 0 = .ok plane) :
    exec .decode (s.extractSlots s.k.toNat).succeed = .next ((s.extractSlots s.k.toNat).commitPlane plane).succeed := by
  have hkeeps : s.Keeps (s.extractSlots s.k.toNat) := .extractSlots s _
  obtain ⟨hregs, -⟩ := State.extractSlots_spec hs hsel le_rfl
  have hplane : (s.extractSlots s.k.toNat).succeed.decodeBlocks (s.extractSlots s.k.toNat).succeed.storedShadows
      (s.extractSlots s.k.toNat).succeed.numBlocks 0 = .ok plane := by
    rw [← h, ← State.extractSlots_storedShadows hs hsel, State.decodeBlocks_congr (s := s)] <;>
      rw [hregs] <;> rfl
  exact exec_of_committed (i := .decode) (u := (s.extractSlots s.k.toNat).succeed.commitPlane plane)
    ⟨hkeeps.schemeOk hs, hkeeps.selectionOk hsel, plane, hplane, rfl⟩

end

/-- Settles O45: `RECOVER` that raises nothing commits the plane to the extracted state, and so does the run. -/
theorem recoverIsExtractThenDecode : Obligations.RecoverIsExtractThenDecode := by
  intro s t h h0
  rcases exec_cases h with ⟨trap, -, -, rfl⟩ | ⟨u, hu, rfl⟩
  · exact absurd h0 (s.raise_err_ne_zero trap)
  · obtain ⟨hs, hsel, hcap, plane, hplane, rfl⟩ := hu
    have ⟨⟨h3, _⟩, _⟩ := hs
    obtain ⟨n, hn⟩ : ∃ n, s.k.toNat = n + 1 := ⟨s.k.toNat - 1, by omega⟩
    have hextract := execAll_extract hs hsel hcap (n := n) (by omega)
    rw [← hn] at hextract
    rw [execAll_append hextract]
    exact execAll_cons (exec_decode_extracted hs hsel hplane)

end Sys2Proof.Machine
end

section
/-! PROOFS. The statements about the embedding unit (44_embedding.md): what `EMBED` and `EXTRACT` write and leave, that
extraction gives back what was embedded, and how little a packed pixel differs from the cover's. -/

namespace Sys2Proof.Machine

/-! ## Pixels that carry a shadow -/

/-- The pixel that carries group `g` of byte `q` is one of those in use (R230). -/
theorem State.carrier_lt {s : State} {q g : Nat} (hq : q < s.shadowBytes) (hg : g < s.pixelsPerByte) :
    q * s.pixelsPerByte + g < s.shadowBytes * s.pixelsPerByte :=
  calc q * s.pixelsPerByte + g
    _ < q * s.pixelsPerByte + s.pixelsPerByte := Nat.add_lt_add_left hg _
    _ = (q + 1) * s.pixelsPerByte := (Nat.succ_mul ..).symm
    _ ≤ s.shadowBytes * s.pixelsPerByte := Nat.mul_le_mul_right _ hq

/-- The packed pixel that carries group `g` of byte `q` (R233). -/
theorem State.packedByte_carrier {s : State} (hk : s.kOk) (slot q : Nat) {g : Nat} (hg : g < s.pixelsPerByte) :
    (s.packedByte slot (q * s.pixelsPerByte + g)).toNat =
      (s.byteAt .cover slot (q * s.pixelsPerByte + g)).toNat / 2 ^ s.bitsPerPixel * 2 ^ s.bitsPerPixel +
        (s.byteAt .shadow slot q).toNat / 2 ^ (8 - s.bitsPerPixel * (g + 1)) % 2 ^ s.bitsPerPixel := by
  have hdiv : (q * s.pixelsPerByte + g) / s.pixelsPerByte = q := by
    rw [Nat.mul_comm, Nat.mul_add_div (by omega), Nat.div_eq_of_lt hg, Nat.add_zero]
  have hmod : (q * s.pixelsPerByte + g) % s.pixelsPerByte = g := Nat.mul_add_mod_of_lt hg
  rw [State.packedByte_toNat, State.groupWidth_eq hk, State.groupsPerByte_eq hk, hdiv, hmod]

@[simp] theorem State.embedSlot_bitsPerPixel (s : State) (slot : Nat) :
    (s.embedSlot slot).bitsPerPixel = s.bitsPerPixel := rfl

@[simp] theorem State.embedSlot_pixelsPerByte (s : State) (slot : Nat) :
    (s.embedSlot slot).pixelsPerByte = s.pixelsPerByte := rfl

/-- A number whose part below `m` is replaced keeps its part from `m` up and moves by less than `m` (R235). -/
theorem replace_remainder (c : Nat) {m r : Nat} (hr : r < m) :
    (c / m * m + r) / m = c / m ∧ c / m * m + r < c + m ∧ c < c / m * m + r + m := by
  have hc : c / m * m + c % m = c := Nat.div_add_mod' c m
  have hrem : c % m < m := Nat.mod_lt c (by omega)
  refine ⟨?_, by omega, by omega⟩
  rw [Nat.mul_comm, Nat.mul_add_div (by omega), Nat.div_eq_of_lt hr, Nat.add_zero]

section
variable {s : State} {slot : Nat} (hslot : slot < s.params.nMax.val) (hs : s.schemeOk)
include hslot hs

/-- The bytes of a slot's shadow exist (R65, R171). -/
theorem State.inRange_shadowByte {q : Nat} (hq : q < s.shadowBytes) : inRange s.params .shadow slot q = true :=
  (inRange_shadow _ _ _).mpr ⟨hslot, hq.trans_le (State.shadowBytes_le hs)⟩

/-- The pixels that carry a slot's shadow exist (R65, R232). -/
theorem State.inRange_carrier (hcap : s.capacityOk slot) {i : Nat} (hi : i < s.shadowBytes * s.pixelsPerByte) :
    inRange s.params .cover slot i = true := by
  rw [← State.coverUsed_eq hs] at hi
  exact (inRange_cover _ _ _).mpr ⟨hslot, hi.trans_le (State.coverUsed_le hs hcap)⟩

/-! ## Embedding one slot -/

/-- Every byte after one slot is embedded (R233, R236). -/
theorem State.embedSlot_byteAt (hcap : s.capacityOk slot) {sp : Space} {slot' i : Nat}
    (hr : inRange s.params sp slot' i = true) :
    (s.embedSlot slot).byteAt sp slot' i =
      if sp = .cover ∧ slot' = slot ∧ i < s.shadowBytes * s.pixelsPerByte then s.packedByte slot i
      else s.byteAt sp slot' i := by
  obtain ⟨-, -, -, hbytes⟩ := State.embedSlot_spec hslot (State.coverUsed_le hs hcap)
  rw [hbytes sp slot' i hr, State.coverUsed_eq hs]

/-- The pixels in use of the slot embedded are the packed ones (R233). -/
theorem State.embedSlot_cover (hcap : s.capacityOk slot) {i : Nat} (hi : i < s.shadowBytes * s.pixelsPerByte) :
    (s.embedSlot slot).byteAt .cover slot i = s.packedByte slot i := by
  rw [State.embedSlot_byteAt hslot hs hcap (State.inRange_carrier hslot hs hcap hi), if_pos ⟨rfl, rfl, hi⟩]

/-- A cover carries, once embedded, the shadow of its slot (R235). -/
theorem State.embedSlot_carried (hcap : s.capacityOk slot) {q : Nat} (hq : q < s.shadowBytes) :
    (s.embedSlot slot).carriedByte slot q = (s.byteAt .shadow slot q).toNat := by
  refine State.carriedByte_eq fun g hg => ?_
  rw [State.embedSlot_pixelsPerByte] at hg ⊢
  rw [State.embedSlot_bitsPerPixel, State.embedSlot_cover hslot hs hcap (State.carrier_lt hq hg),
    State.packedByte_carrier hs.1 slot q hg, Nat.mul_add_mod_self_right, Nat.mod_mod]

/-! ## Extracting one slot -/

/-- Every byte after the shadow that a slot's cover carries is stored (R234, R237). -/
theorem State.fill_unpack_byteAt {sp : Space} {slot' i : Nat} (hr : inRange s.params sp slot' i = true) :
    (s.fill .shadow slot (s.unpack slot)).byteAt sp slot' i =
      if sp = .shadow ∧ slot' = slot ∧ i < s.shadowBytes then (s.unpack slot).getD i 0#8
      else s.byteAt sp slot' i := by
  obtain ⟨-, hbytes⟩ := State.fillShadow_spec hslot (s.unpack slot) (State.unpack_length_le hs slot)
  rw [hbytes sp slot' i hr, State.unpack_length hs]

/-- The shadow stored is, byte by byte, the one the cover carries (R234, R237). -/
theorem State.fill_unpack_shadow {q : Nat} (hq : q < s.shadowBytes) :
    ((s.fill .shadow slot (s.unpack slot)).byteAt .shadow slot q).toNat = s.carriedByte slot q := by
  have ⟨hk, _, hdiv⟩ := hs
  rw [State.fill_unpack_byteAt hslot hs (State.inRange_shadowByte hslot hs hq), if_pos ⟨rfl, rfl, hq⟩,
    State.unpack_getD _ _ (by rwa [State.shadowLen_eq hk hdiv]), State.unpackByte_toNat hk]

end

/-! ## The statements -/

/-- Settles O37: `EMBED` commits the state with the slot embedded. -/
theorem embedPacksTheShadowIntoTheCover : Obligations.EmbedPacksTheShadowIntoTheCover := by
  refine ⟨rfl, fun s slot hslot hs hcap => ?_⟩
  have hrun : exec (.embed slot) s = .next (s.embedSlot slot).succeed :=
    exec_of_committed ⟨hslot, hs, hcap, rfl⟩
  obtain ⟨hregs, -⟩ := State.embedSlot_spec hslot (State.coverUsed_le hs hcap)
  refine ⟨_, hrun, congrArg State.succeed hregs, fun q hq g hg => ?_, fun sp slot' i hr hn => ?_⟩
  · rw [State.succeed_byteAt, State.embedSlot_cover hslot hs hcap (State.carrier_lt hq hg),
      State.packedByte_carrier hs.1 slot q hg]
  · rw [State.succeed_byteAt, State.embedSlot_byteAt hslot hs hcap hr, if_neg hn]

/-- Settles O38: `EXTRACT` commits the state with the unpacked shadow stored. -/
theorem extractUnpacksTheCover : Obligations.ExtractUnpacksTheCover := by
  refine ⟨rfl, fun s slot hslot hs hcap => ?_⟩
  have hrun : exec (.extract slot) s = .next (s.fill .shadow slot (s.unpack slot)).succeed :=
    exec_of_committed ⟨hslot, hs, hcap, rfl⟩
  refine ⟨_, hrun, rfl, fun q hq => ?_, fun sp slot' i hr hn => ?_⟩
  · rw [State.succeed_byteAt, State.fill_unpack_shadow hslot hs hq]
  · rw [State.succeed_byteAt, State.fill_unpack_byteAt hslot hs hr, if_neg hn]

/-- Settles O39: the embedded cover carries the shadow, `EXTRACT` passes its checks on it and stores what it carries,
and packing replaces the low bits of a pixel alone. -/
theorem embedThenExtractRestoresTheShadow : Obligations.EmbedThenExtractRestoresTheShadow := by
  intro s slot hslot hs hcap
  have hembed : exec (.embed slot) s = .next (s.embedSlot slot).succeed :=
    exec_of_committed ⟨hslot, hs, hcap, rfl⟩
  have hkeeps := State.Keeps.embedSlot s slot
  have hs' : (s.embedSlot slot).succeed.schemeOk := hkeeps.schemeOk hs
  obtain ⟨-, hextract⟩ := extractUnpacksTheCover
  obtain ⟨u, hrun, hregs, hshadow, -⟩ := hextract (s.embedSlot slot).succeed slot hslot hs' (hkeeps.capacityOk hcap)
  refine ⟨_, u, hembed, hrun, by rw [hregs], fun q hq => ?_, fun i hi => ?_⟩
  · have hcarried : (s.embedSlot slot).succeed.carriedByte slot q = (s.byteAt .shadow slot q).toNat :=
      State.embedSlot_carried hslot hs hcap hq
    exact BitVec.eq_of_toNat_eq ((hshadow q hq).trans hcarried)
  · rw [State.succeed_byteAt, State.embedSlot_cover hslot hs hcap hi, State.packedByte_toNat, State.groupWidth_eq hs.1]
    exact replace_remainder _ (Nat.mod_lt _ (Nat.two_pow_pos _))

end Sys2Proof.Machine
end

section
/-! PROOFS. The statement about the system commands (45_system.md): what `NOP` and `CLRERR` write and leave. -/

namespace Sys2Proof.Machine

/-- Settles O19: `NOP` commits the state it finds, and `CLRERR` that state with `ESTICKY` and `EINFO` cleared, so that
the end of the command writes `ERR` and nothing else. -/
theorem nopAndClrerrTouchOnlyTheErrorRecord : Obligations.NopAndClrerrTouchOnlyTheErrorRecord := by
  refine ⟨rfl, rfl, fun s => ?_, fun s => ?_⟩
  · exact exec_of_committed (i := .nop) rfl
  · exact exec_of_committed (i := .clrerr) rfl

end Sys2Proof.Machine
end

section
/-! PROOFS. The statements about outcomes (60_exceptions.md): that a command that raises writes the error record alone,
and that the draws have no part in what a command reports. -/

namespace Sys2Proof.Machine

/-! ## A command that raises -/

/-- A code up to 3 fits the three bits of `ERR` (R26). -/
theorem State.raise_err_toNat (s : State) {trap : Trap} (h : trap.code ≤ 3) :
    (s.raise trap).err.toNat = trap.code := by
  rw [State.raise_err, BitVec.toNat_ofNat, Nat.mod_eq_of_lt (by omega)]

/-- Settles O7: of the two ways a command ends, a commit leaves outcome 0, and a raise is what the statement says. -/
theorem failedCommandWritesOnlyTheErrorRecord : Obligations.FailedCommandWritesOnlyTheErrorRecord := by
  intro i s t h hne
  rcases exec_cases h with ⟨trap, -, hle, rfl⟩ | ⟨u, -, rfl⟩
  · rw [s.raise_err_toNat hle]
    exact ⟨rfl, hle⟩
  · exact absurd u.succeed_err hne

/-! ## Computations that raise alike -/

/-- Two computations raise the same outcome, or neither raises; what they commit is left open. -/
inductive RaisesAlike {α β : Type} : Except Trap α → Except Trap β → Prop where
  | commit (u : α) (v : β) : RaisesAlike (.ok u) (.ok v)
  | raise (trap : Trap) : RaisesAlike (.error trap) (.error trap)

namespace RaisesAlike
variable {α β γ : Type}

/-- A computation raises like itself, whatever is then made of its value. -/
theorem map (x : Except Trap α) (f : α → β) (g : α → γ) : RaisesAlike (x.map f) (x.map g) := by
  cases x with
  | ok v => exact .commit _ _
  | error trap => exact .raise trap

/-- Two computations that begin with the same part raise alike if what follows it does. -/
theorem bind (x : Except Trap α) {f : α → Except Trap β} {g : α → Except Trap γ}
    (h : ∀ v, RaisesAlike (f v) (g v)) : RaisesAlike (x >>= f) (x >>= g) := by
  cases x with
  | ok v => exact h v
  | error trap => exact .raise trap

/-- A computation whose last step commits raises what its first part raises. -/
theorem bind_ok (x : Except Trap α) (f : α → β) (g : α → γ) :
    RaisesAlike (x >>= fun v => .ok (f v)) (x >>= fun v => .ok (g v)) :=
  bind x fun v => .commit (f v) (g v)

end RaisesAlike

/-! ## Draws and outcomes -/

/-- Decoding does not read the draw port (R207). -/
theorem State.decodeBlocks_withDrawPort (s : State) (p : DrawPort) (shadows : List (List Byte)) (n b : Nat) :
    (s.withDrawPort p).decodeBlocks shadows n b = s.decodeBlocks shadows n b :=
  State.decodeBlocks_congr (s := s) (u := s.withDrawPort p) rfl rfl shadows n b

/-- No check and no computation that may raise reads the draw port: with another one, what a command computes raises
the same outcome or, again, none (R261). -/
theorem exec_raisesAlike (i : Instr) (s : State) (p : DrawPort) : ∃ r r', RaisesAlike r r' ∧
    exec i s = s.conclude r ∧ exec i (s.withDrawPort p) = (s.withDrawPort p).conclude r' := by
  cases i with
  | nop => exact ⟨_, _, .commit _ _, rfl, rfl⟩
  | clrerr => exact ⟨_, _, .commit _ _, rfl, rfl⟩
  | fadd => exact ⟨_, _, .commit _ _, rfl, rfl⟩
  | fsub => exact ⟨_, _, .commit _ _, rfl, rfl⟩
  | fmul => exact ⟨_, _, .commit _ _, rfl, rfl⟩
  | fdiv => exact ⟨_, _, .map (orRaise _ _) _ _, rfl, rfl⟩
  | fpow => exact ⟨_, _, .commit _ _, rfl, rfl⟩
  | finv =>
    refine ⟨_, _, ?_, rfl, rfl⟩
    by_cases ha : s.a = 0
    · rw [State.withDrawPort_a, if_pos ha, if_pos ha]
      exact .raise _
    · rw [State.withDrawPort_a, if_neg ha, if_neg ha]
      exact .commit _ _
  | feq => exact ⟨_, _, .commit _ _, rfl, rfl⟩
  | pnew bank len => exact ⟨_, _, .bind_ok (validate _) _ _, rfl, rfl⟩
  | peval bank => exact ⟨_, _, .bind_ok (validate _) _ _, rfl, rfl⟩
  | peq => exact ⟨_, _, .commit _ _, rfl, rfl⟩
  | lag0 j top => exact ⟨_, _, .bind (validate _) fun _ => .bind_ok (orRaise _ _) _ _, rfl, rfl⟩
  | pinterp bank => exact ⟨_, _, .bind (validate _) fun _ => .bind_ok (orRaise _ _) _ _, rfl, rfl⟩
  | blkbuild => exact ⟨_, _, .bind_ok (validate _) _ _, rfl, rfl⟩
  | encode => exact ⟨_, _, .bind_ok (validate _) _ _, rfl, rfl⟩
  | distribute => exact ⟨_, _, .bind_ok (validate _) _ _, rfl, rfl⟩
  | blkinterp => exact ⟨_, _, .bind (validate _) fun _ => .bind_ok (orRaise _ _) _ _, rfl, rfl⟩
  | cheat => exact ⟨_, _, .bind (validate _) fun _ => .bind_ok (orRaise _ _) _ _, rfl, rfl⟩
  | decode =>
    refine ⟨_, _, .bind (validate _) fun _ => ?_, rfl, rfl⟩
    rw [State.decodeBlocks_withDrawPort]
    exact .bind_ok (s.decodeBlocks s.storedShadows s.numBlocks 0) _ _
  | recover =>
    refine ⟨_, _, .bind (validate _) fun _ => ?_, rfl, rfl⟩
    rw [State.decodeBlocks_withDrawPort]
    exact .bind_ok (s.decodeBlocks s.carriedShadows s.numBlocks 0) _ _
  | embed slot => exact ⟨_, _, .bind_ok (validate _) _ _, rfl, rfl⟩
  | extract slot => exact ⟨_, _, .bind_ok (validate _) _ _, rfl, rfl⟩

/-- Settles O10: two runs that differ in the draw port raise the same outcome, which alone decides the error record, or
both commit, and then the record is that of `CLRERR` or the one they both found. -/
theorem drawsNeverDecideAnOutcome : Obligations.DrawsNeverDecideAnOutcome := by
  intro i s t t' p h h'
  obtain ⟨r, r', halike, hr, hr'⟩ := exec_raisesAlike i s p
  have hend : s.conclude r = .next t := hr.symm.trans h
  have hend' : (s.withDrawPort p).conclude r' = .next t' := hr'.symm.trans h'
  cases halike with
  | raise trap =>
    rw [State.raising_eq hend, State.raising_eq hend']
    exact ⟨rfl, rfl, rfl⟩
  | commit u v =>
    have herr : t.err = 0#3 := by rw [State.committing_cases hend, State.succeed_err]
    have herr' : t'.err = 0#3 := by rw [State.committing_cases hend', State.succeed_err]
    refine ⟨herr'.trans herr.symm, ?_⟩
    by_cases hi : i = .clrerr
    · subst hi
      cases h
      cases h'
      exact ⟨rfl, rfl⟩
    · obtain ⟨hsticky, hinfo⟩ := successfulCommandKeepsTheErrorRecord i s t h herr hi
      obtain ⟨hsticky', hinfo'⟩ := successfulCommandKeepsTheErrorRecord i _ t' h' herr' hi
      exact ⟨hsticky'.trans hsticky.symm, hinfo'.trans hinfo.symm⟩

end Sys2Proof.Machine
end

section
/-! PROOFS. The statements about reset and termination (70_reset_and_hazards.md): the registers right after power-up,
the invariant there, what the reset event leaves of any state, and that no run stops. -/

namespace Sys2Proof.Machine

/-! ## Power-up -/

/-- Every element of a register group at reset is 0 (R300), as is one beyond the group. -/
theorem elem_replicate_zero (n i : Nat) : elem (Vector.replicate n (0 : FE)).toList i = 0 := by
  rw [elem, Vector.toList_replicate, List.getD_eq_getElem?_getD, List.getElem?_replicate]
  split <;> rfl

/-- `SEL[i] = i` at power-up (R300). -/
theorem State.resetWith_selAt (p : Config.Params) {i : Nat} (h : i < 8) : (State.resetWith p).selAt i = i := by
  interval_cases i <;> rfl

/-- Every slot has the registers of reset at power-up (R300), as one that does not exist always has. -/
theorem State.resetWith_slotRegs (p : Config.Params) (i : Nat) : (State.resetWith p).slotRegs i = Slot.zero := by
  have hslots : (State.resetWith p).slots = List.replicate p.nMax.val Slot.zero := rfl
  rw [State.slotRegs, hslots, List.getD_eq_getElem?_getD, List.getElem?_replicate]
  split <;> rfl

/-- Settles O14: the plain registers are written out in `State.resetWith`; a group is read element by element, and the
slots through the one list of `N_MAX` equal entries. -/
theorem powerUpRegistersHoldTheirResetValues : Obligations.PowerUpRegistersHoldTheirResetValues := by
  intro p s
  refine ⟨?plain, ?operands, fun i hi => ⟨State.resetWith_selAt p hi, ?_, ?_, ?_, ?_⟩, ⟨rfl, rfl⟩,
    List.length_replicate, fun i => ?slot⟩
  case plain => exact ⟨rfl, rfl, rfl, rfl, rfl, rfl⟩
  case operands => exact ⟨rfl, rfl, rfl, rfl, rfl, rfl, rfl, rfl, rfl, rfl, rfl, rfl, rfl⟩
  case slot =>
    rw [State.resetWith_slotRegs p i]
    exact ⟨rfl, rfl, rfl⟩
  all_goals exact elem_replicate_zero 8 i

/-- The invariant holds right after power-up, since a reset event then changes nothing but the count of resets, of which
the invariant does not speak. -/
theorem State.resetWith_inv (p : Config.Params) : (State.resetWith p).inv := State.resetEvent_inv (State.resetWith p)

/-- Settles O15: power-up is a state a reset event leaves, and it lists no byte. -/
theorem powerUpSatisfiesTheInvariant : Obligations.PowerUpSatisfiesTheInvariant :=
  ⟨State.resetWith_inv, State.resetWith_inv Config.params, List.forall_mem_nil _⟩

/-! ## The reset event -/

/-- The reset input is taken as an event like any other (R69, R300). -/
theorem step_reset {s : State} {rest : List HostOp} (hp : s.pending = .reset :: rest) :
    step s = .next (State.resetEvent { s with pending := rest }) := by
  simp only [step, State.request, hp]

/-- Settles O18: the step is the reset event, which builds its state from `State.resetWith`. -/
theorem resetEventRestoresEveryRegister : Obligations.ResetEventRestoresEveryRegister :=
  fun _ _ hp => step_reset hp

/-! ## Runs -/

/-- Every step answers a next state: an event that is no command leaves a state at once, and a command always ends in
one (R262, R309). -/
theorem step_answers (s : State) : ∃ t, step s = .next t := by
  rw [step]
  cases s.request with
  | done t => exact ⟨t, rfl⟩
  | command i t => exact exec_answers i t

/-- A run goes on from the state its first step answers. -/
theorem run_succ {M : Host.Core} {s t : M.State} (h : M.step s = .next t) (n : Nat) : M.run (n + 1) s = M.run n t := by
  rw [Host.Core.run, h]

/-- A machine each of whose steps answers a next state runs for any number of steps. -/
theorem run_answers {M : Host.Core} (hstep : ∀ s, ∃ t, M.step s = .next t) (n : Nat) (s : M.State) :
    ∃ t, M.run n s = .next t := by
  induction n generalizing s with
  | zero => exact ⟨s, rfl⟩
  | succ n ih =>
    obtain ⟨u, hu⟩ := hstep s
    rw [run_succ hu]
    exact ih u

/-- Settles O9: no step of the core ends otherwise than in a next state, so no run does. -/
theorem noRunEverStops : Obligations.NoRunEverStops := run_answers (M := core) step_answers

end Sys2Proof.Machine
end
